-- ==== Sys2Proof/Word.lean ====
section
/-! DEFINITION. The two word types of the core: an 8-bit byte and a 16-bit word (00_scope R9, R11). -/

namespace Sys2Proof

/-- An 8-bit value: a register, a memory byte, an instruction byte. -/
abbrev Byte := BitVec 8

/-- A 16-bit value: SP, PC, a pair view, an address. -/
abbrev Word := BitVec 16

/-- The number of an interrupt request, k in 0..4 (60_exceptions R405, R406). -/
abbrev IrqNum := Fin 5

end Sys2Proof
end

