-- ==== Sys2Proof/Config.lean ====
section
/-! DEFINITION. The parameters the spec leaves open (00_scope R10), with the defaults of its table.
A configuration is plain data carried by the state and written by no step, so a statement about every
state is a statement about every value of every parameter. `MEM_INIT` is not here: the state's `mem` field takes
every value it can have. `IRQ_PORT` is the state's `irqPort` field; the answers of the arbitrary environment are
the one free (opaque) value of the model. The spec leaves no result of an instruction undefined. -/

namespace Sys2Proof

/-- `RESET_PC`: 0x0000, or 0x0100 when the caller skips the bootstrap (70_reset R442, decision D1). -/
inductive ResetPc where
  | zero
  | bootSkipped
  deriving DecidableEq, Repr

/-- `ACC_ROTATE_Z`: what RLCA, RRCA, RLA and RRA do to Z (44_rotate R305, decision D2). -/
inductive AccRotateZ where
  | reset
  | result
  deriving DecidableEq, Repr

/-- `STOP_LENGTH`: STOP is one byte, or two with an ignored operand byte (30_encoding R115, decision D10). -/
inductive StopLength where
  | one
  | two
  deriving DecidableEq, Repr

/-- `EI_DELAY`: EI takes effect at once (0) or after the next instruction (1) (46_system R384, decision D6). -/
inductive EiDelay where
  | zero
  | one
  deriving DecidableEq, Repr

/-- The configuration of one core (00_scope R10). -/
structure Config where
  resetPc        : ResetPc := .zero
  accRotateZ     : AccRotateZ := .reset
  stopLength     : StopLength := .two
  haltIdleCycles : Nat := 4
  stopIdleCycles : Nat := 0
  eiDelay        : EiDelay := .one
  deriving DecidableEq, Repr

/-- Every parameter at the default of 00_scope R10. -/
def Config.default : Config := {}

/-- FREE VALUE (DESIGN CHOICE, log entry 3): the answers on `irq` of an arbitrary environment, the oracle of
60_exceptions R405: an endless sequence of which nothing is known, the answer at each position free. -/
opaque Config.irqOracle : Nat → Option IrqNum

end Sys2Proof
end

