-- ==== Sys2Proof/Syntax.lean ====
section
/-! DEFINITION. The instructions: one constructor per row of opcode_table.json, in the table's order, the
eleven invalid slots and the prefix 0xCB among them (30_encoding R110 to R114). Register, pair and condition
codes are constructors here (30_encoding R104); bit numbers and RST numbers are numbers, bounded by
WellFormed.lean. -/

namespace Sys2Proof

/-- The 8-bit registers an operand code names: `r8[k]` for k other than 6 (30_encoding R104). -/
inductive Reg8 where
  | b | c | d | e | h | l | a
  deriving DecidableEq, Repr

/-- The pair code `rp[p]` of LD rr,nn, INC rr, DEC rr and ADD HL,rr (30_encoding R104). -/
inductive Pair where
  | bc | de | hl | sp
  deriving DecidableEq, Repr

/-- The pair code `rp2[p]` of PUSH and POP (30_encoding R104). -/
inductive StackPair where
  | bc | de | hl | af
  deriving DecidableEq, Repr

/-- The condition code `cc` (30_encoding R104, 45_control R342). -/
inductive Cond where
  | nz | z | nc | c
  deriving DecidableEq, Repr

/-- An instruction. `n` is an unsigned byte operand (R105), `nn` a 16-bit operand (R106), `e` the raw byte of
a signed displacement (R107), `b` a bit number, `t` an RST number (R109). -/
inductive Instr where
  /-- NOP (R380) -/
  | nop
  /-- LD rr,nn (R189) -/
  | ldRrNn (p : Pair) (nn : Word)
  /-- LD (BC),A (R177) -/
  | ldBcA
  /-- LD (DE),A (R178) -/
  | ldDeA
  /-- LD (HL+),A (R187) -/
  | ldHliA
  /-- LD (HL-),A (R188) -/
  | ldHldA
  /-- INC rr (R281) -/
  | incRr (p : Pair)
  /-- INC r (R247) -/
  | incR (rd : Reg8)
  /-- INC (HL) (R248) -/
  | incHl
  /-- DEC r (R249) -/
  | decR (rd : Reg8)
  /-- DEC (HL) (R250) -/
  | decHl
  /-- LD r,n (R171) -/
  | ldRN (rd : Reg8) (n : Byte)
  /-- LD (HL),n (R174) -/
  | ldHlN (n : Byte)
  /-- RLCA (R301) -/
  | rlca
  /-- RRCA (R302) -/
  | rrca
  /-- RLA (R303) -/
  | rla
  /-- RRA (R304) -/
  | rra
  /-- LD (nn),SP (R190) -/
  | ldNnSp (nn : Word)
  /-- ADD HL,rr (R280) -/
  | addHlRr (p : Pair)
  /-- LD A,(BC) (R175) -/
  | ldABc
  /-- LD A,(DE) (R176) -/
  | ldADe
  /-- LD A,(HL+) (R185) -/
  | ldAHli
  /-- LD A,(HL-) (R186) -/
  | ldAHld
  /-- DEC rr (R282) -/
  | decRr (p : Pair)
  /-- STOP (R382) -/
  | stop
  /-- JR e (R348) -/
  | jrE (e : Byte)
  /-- JR cc,e (R349) -/
  | jrCcE (cc : Cond) (e : Byte)
  /-- DAA (R251) -/
  | daa
  /-- CPL (R252) -/
  | cpl
  /-- SCF (R253) -/
  | scf
  /-- CCF (R254) -/
  | ccf
  /-- LD r,r' (R170) -/
  | ldRR (rd rs : Reg8)
  /-- LD r,(HL) (R172) -/
  | ldRHl (rd : Reg8)
  /-- LD (HL),r (R173) -/
  | ldHlR (rs : Reg8)
  /-- HALT (R381) -/
  | halt
  /-- ADD A,r (R223) -/
  | addAR (rs : Reg8)
  /-- ADD A,(HL) (R224) -/
  | addAHl
  /-- ADD A,n (R225) -/
  | addAN (n : Byte)
  /-- ADC A,r (R226) -/
  | adcAR (rs : Reg8)
  /-- ADC A,(HL) (R227) -/
  | adcAHl
  /-- ADC A,n (R228) -/
  | adcAN (n : Byte)
  /-- SUB A,r (R229) -/
  | subAR (rs : Reg8)
  /-- SUB A,(HL) (R230) -/
  | subAHl
  /-- SUB A,n (R231) -/
  | subAN (n : Byte)
  /-- SBC A,r (R232) -/
  | sbcAR (rs : Reg8)
  /-- SBC A,(HL) (R233) -/
  | sbcAHl
  /-- SBC A,n (R234) -/
  | sbcAN (n : Byte)
  /-- AND A,r (R235) -/
  | andAR (rs : Reg8)
  /-- AND A,(HL) (R236) -/
  | andAHl
  /-- AND A,n (R237) -/
  | andAN (n : Byte)
  /-- XOR A,r (R238) -/
  | xorAR (rs : Reg8)
  /-- XOR A,(HL) (R239) -/
  | xorAHl
  /-- XOR A,n (R240) -/
  | xorAN (n : Byte)
  /-- OR A,r (R241) -/
  | orAR (rs : Reg8)
  /-- OR A,(HL) (R242) -/
  | orAHl
  /-- OR A,n (R243) -/
  | orAN (n : Byte)
  /-- CP A,r (R244) -/
  | cpAR (rs : Reg8)
  /-- CP A,(HL) (R245) -/
  | cpAHl
  /-- CP A,n (R246) -/
  | cpAN (n : Byte)
  /-- RET cc (R353) -/
  | retCc (cc : Cond)
  /-- POP qq (R344) -/
  | popQq (q : StackPair)
  /-- JP cc,nn (R346) -/
  | jpCcNn (cc : Cond) (nn : Word)
  /-- JP nn (R345) -/
  | jpNn (nn : Word)
  /-- CALL cc,nn (R351) -/
  | callCcNn (cc : Cond) (nn : Word)
  /-- PUSH qq (R343) -/
  | pushQq (q : StackPair)
  /-- RST t (R355) -/
  | rstT (t : Nat)
  /-- RET (R352) -/
  | ret
  /-- RETI (R354) -/
  | reti
  /-- PREFIX CB (R148) -/
  | prefixCb
  /-- CALL nn (R350) -/
  | callNn (nn : Word)
  /-- LDH (n),A (R184) -/
  | ldhNA (n : Byte)
  /-- LDH A,(n) (R183) -/
  | ldhAN (n : Byte)
  /-- LDH (C),A (R182) -/
  | ldhCA
  /-- LDH A,(C) (R181) -/
  | ldhAC
  /-- ADD SP,e (R284) -/
  | addSpE (e : Byte)
  /-- JP HL (R347) -/
  | jpHl
  /-- LD (nn),A (R180) -/
  | ldNnA (nn : Word)
  /-- LD A,(nn) (R179) -/
  | ldANn (nn : Word)
  /-- DI (R383) -/
  | di
  /-- EI (R384) -/
  | ei
  /-- LD HL,SP+e (R285) -/
  | ldHlSpE (e : Byte)
  /-- LD SP,HL (R191) -/
  | ldSpHl
  /-- invalid slot 0xD3 (R385) -/
  | invalidD3
  /-- invalid slot 0xDB (R385) -/
  | invalidDB
  /-- invalid slot 0xDD (R385) -/
  | invalidDD
  /-- invalid slot 0xE3 (R385) -/
  | invalidE3
  /-- invalid slot 0xE4 (R385) -/
  | invalidE4
  /-- invalid slot 0xEB (R385) -/
  | invalidEB
  /-- invalid slot 0xEC (R385) -/
  | invalidEC
  /-- invalid slot 0xED (R385) -/
  | invalidED
  /-- invalid slot 0xF4 (R385) -/
  | invalidF4
  /-- invalid slot 0xFC (R385) -/
  | invalidFC
  /-- invalid slot 0xFD (R385) -/
  | invalidFD
  /-- RLC r (R307) -/
  | rlcR (rs : Reg8)
  /-- RLC (HL) (R307) -/
  | rlcHl
  /-- RRC r (R308) -/
  | rrcR (rs : Reg8)
  /-- RRC (HL) (R308) -/
  | rrcHl
  /-- RL r (R309) -/
  | rlR (rs : Reg8)
  /-- RL (HL) (R309) -/
  | rlHl
  /-- RR r (R310) -/
  | rrR (rs : Reg8)
  /-- RR (HL) (R310) -/
  | rrHl
  /-- SLA r (R311) -/
  | slaR (rs : Reg8)
  /-- SLA (HL) (R311) -/
  | slaHl
  /-- SRA r (R312) -/
  | sraR (rs : Reg8)
  /-- SRA (HL) (R312) -/
  | sraHl
  /-- SWAP r (R313) -/
  | swapR (rs : Reg8)
  /-- SWAP (HL) (R313) -/
  | swapHl
  /-- SRL r (R314) -/
  | srlR (rs : Reg8)
  /-- SRL (HL) (R314) -/
  | srlHl
  /-- BIT b,r (R315) -/
  | bitBR (b : Nat) (rs : Reg8)
  /-- BIT b,(HL) (R316) -/
  | bitBHl (b : Nat)
  /-- RES b,r (R317) -/
  | resBR (b : Nat) (rs : Reg8)
  /-- RES b,(HL) (R318) -/
  | resBHl (b : Nat)
  /-- SET b,r (R319) -/
  | setBR (b : Nat) (rs : Reg8)
  /-- SET b,(HL) (R320) -/
  | setBHl (b : Nat)
  deriving DecidableEq, Repr

/-- The byte of an invalid slot, for the eleven rows that are no instruction of the hardware (30_encoding
R112, 46_system R385). -/
def Instr.invalidByte : Instr → Option Byte
  | .invalidD3 => some 0xD3
  | .invalidDB => some 0xDB
  | .invalidDD => some 0xDD
  | .invalidE3 => some 0xE3
  | .invalidE4 => some 0xE4
  | .invalidEB => some 0xEB
  | .invalidEC => some 0xEC
  | .invalidED => some 0xED
  | .invalidF4 => some 0xF4
  | .invalidFC => some 0xFC
  | .invalidFD => some 0xFD
  | _ => none

end Sys2Proof
end

