-- ==== Sys2Proof/WellFormed.lean ====
section
/-! DEFINITION. Which instruction terms an encoding can denote: a bit number is below 8 (30_encoding R102,
44_rotate R315 to R320) and so is an RST number (30_encoding R109). Every other operand is bounded by its
type. -/

namespace Sys2Proof

/-- The operands fit their fields. -/
def Instr.wellFormed : Instr → Bool
  | .rstT t => decide (t < 8)
  | .bitBR b _ => decide (b < 8)
  | .bitBHl b => decide (b < 8)
  | .resBR b _ => decide (b < 8)
  | .resBHl b => decide (b < 8)
  | .setBR b _ => decide (b < 8)
  | .setBHl b => decide (b < 8)
  | _ => true

end Sys2Proof
end

