-- ==== Sys2Proof/Decode.lean ====
section
/-! DEFINITION. The decoder, total on any bytes, and after it the encoder, both from the opcode maps and
code tables of 30_encoding R100 to R115. The bit-field and byte-order helpers stand first. -/

namespace Sys2Proof

/-! ## Bit fields and byte order -/

/-- `v[hi:lo]` as a number (00_scope R11). -/
def bits (v : Byte) (hi lo : Nat) : Nat := v.toNat / 2 ^ lo % 2 ^ (hi + 1 - lo)

/-- `{hi, lo}`: the 16-bit value of two bytes (00_scope R11, 10_state R32). -/
def pairWord (hi lo : Byte) : Word := hi ++ lo

/-- `v[15:8]` (10_state R32). -/
def hiByte (v : Word) : Byte := v.extractLsb' 8 8

/-- `v[7:0]` (10_state R32). -/
def loByte (v : Word) : Byte := v.extractLsb' 0 8

/-! ## The operand code tables (30_encoding R104) -/

/-- `r8[k]`; none is code 6, the byte at HL. -/
def r8 : Nat → Option Reg8
  | 0 => some .b
  | 1 => some .c
  | 2 => some .d
  | 3 => some .e
  | 4 => some .h
  | 5 => some .l
  | 6 => none
  | _ => some .a

/-- `rp[p]`. -/
def rp : Nat → Pair
  | 0 => .bc
  | 1 => .de
  | 2 => .hl
  | _ => .sp

/-- `rp2[p]`. -/
def rp2 : Nat → StackPair
  | 0 => .bc
  | 1 => .de
  | 2 => .hl
  | _ => .af

/-- The condition `cc`. -/
def condOf : Nat → Cond
  | 0 => .nz
  | 1 => .z
  | 2 => .nc
  | _ => .c

/-- An operand code that selects the register form, or the (HL) form at code 6. -/
def onR8 (k : Nat) (hlForm : Instr) (regForm : Reg8 → Instr) : Instr :=
  match r8 k with
  | some r => regForm r
  | none => hlForm

/-! ## The primary map (30_encoding R110) -/

/-- The quarter x = 0 of the primary map: bytes 0x00 to 0x3F. -/
def decodeQuarter0 (y z : Nat) (n : Byte) (nn : Word) : Instr :=
  match z with
  | 0 =>
    match y with
    | 0 => .nop
    | 1 => .ldNnSp nn
    | 2 => .stop
    | 3 => .jrE n
    | _ => .jrCcE (condOf (y - 4)) n
  | 1 => if y % 2 = 0 then .ldRrNn (rp (y / 2)) nn else .addHlRr (rp (y / 2))
  | 2 =>
    match y with
    | 0 => .ldBcA
    | 1 => .ldABc
    | 2 => .ldDeA
    | 3 => .ldADe
    | 4 => .ldHliA
    | 5 => .ldAHli
    | 6 => .ldHldA
    | _ => .ldAHld
  | 3 => if y % 2 = 0 then .incRr (rp (y / 2)) else .decRr (rp (y / 2))
  | 4 => onR8 y .incHl .incR
  | 5 => onR8 y .decHl .decR
  | 6 => onR8 y (.ldHlN n) (fun rd => .ldRN rd n)
  | _ =>
    match y with
    | 0 => .rlca
    | 1 => .rrca
    | 2 => .rla
    | 3 => .rra
    | 4 => .daa
    | 5 => .cpl
    | 6 => .scf
    | _ => .ccf

/-- The quarter x = 1: LD r,r' and its (HL) forms, with HALT in the slot of LD (HL),(HL) (R113). -/
def decodeQuarter1 (y z : Nat) : Instr :=
  match r8 y, r8 z with
  | some rd, some rs => .ldRR rd rs
  | some rd, none => .ldRHl rd
  | none, some rs => .ldHlR rs
  | none, none => .halt

/-- The quarter x = 2: `alu[y] A,r8[z]`. -/
def decodeQuarter2 (y z : Nat) : Instr :=
  match y with
  | 0 => onR8 z .addAHl .addAR
  | 1 => onR8 z .adcAHl .adcAR
  | 2 => onR8 z .subAHl .subAR
  | 3 => onR8 z .sbcAHl .sbcAR
  | 4 => onR8 z .andAHl .andAR
  | 5 => onR8 z .xorAHl .xorAR
  | 6 => onR8 z .orAHl .orAR
  | _ => onR8 z .cpAHl .cpAR

/-- The quarter x = 3: bytes 0xC0 to 0xFF, the prefix and the eleven invalid slots among them (R112). -/
def decodeQuarter3 (y z : Nat) (n : Byte) (nn : Word) : Instr :=
  match z with
  | 0 =>
    match y with
    | 4 => .ldhNA n
    | 5 => .addSpE n
    | 6 => .ldhAN n
    | 7 => .ldHlSpE n
    | _ => .retCc (condOf y)
  | 1 =>
    match y with
    | 1 => .ret
    | 3 => .reti
    | 5 => .jpHl
    | 7 => .ldSpHl
    | _ => .popQq (rp2 (y / 2))
  | 2 =>
    match y with
    | 4 => .ldhCA
    | 5 => .ldNnA nn
    | 6 => .ldhAC
    | 7 => .ldANn nn
    | _ => .jpCcNn (condOf y) nn
  | 3 =>
    match y with
    | 0 => .jpNn nn
    | 1 => .prefixCb
    | 2 => .invalidD3
    | 3 => .invalidDB
    | 4 => .invalidE3
    | 5 => .invalidEB
    | 6 => .di
    | _ => .ei
  | 4 =>
    match y with
    | 4 => .invalidE4
    | 5 => .invalidEC
    | 6 => .invalidF4
    | 7 => .invalidFC
    | _ => .callCcNn (condOf y) nn
  | 5 =>
    match y with
    | 1 => .callNn nn
    | 3 => .invalidDD
    | 5 => .invalidED
    | 7 => .invalidFD
    | _ => .pushQq (rp2 (y / 2))
  | 6 =>
    match y with
    | 0 => .addAN n
    | 1 => .adcAN n
    | 2 => .subAN n
    | 3 => .sbcAN n
    | 4 => .andAN n
    | 5 => .xorAN n
    | 6 => .orAN n
    | _ => .cpAN n
  | _ => .rstT y

/-- The primary table: the row of opcode byte `op`, its operand bytes (where the row has them) being `b1` and
then `b2`. `n` and `e` are `b1`; `nn` is `{b2, b1}` (R105 to R107). -/
def decodePrimary (op b1 b2 : Byte) : Instr :=
  match bits op 7 6 with
  | 0 => decodeQuarter0 (bits op 5 3) (bits op 2 0) b1 (pairWord b2 b1)
  | 1 => decodeQuarter1 (bits op 5 3) (bits op 2 0)
  | 2 => decodeQuarter2 (bits op 5 3) (bits op 2 0)
  | _ => decodeQuarter3 (bits op 5 3) (bits op 2 0) b1 (pairWord b2 b1)

/-! ## The extended map (30_encoding R111) -/

/-- The rotate and shift rows `rot[y]`. -/
def decodeRot (y z : Nat) : Instr :=
  match y with
  | 0 => onR8 z .rlcHl .rlcR
  | 1 => onR8 z .rrcHl .rrcR
  | 2 => onR8 z .rlHl .rlR
  | 3 => onR8 z .rrHl .rrR
  | 4 => onR8 z .slaHl .slaR
  | 5 => onR8 z .sraHl .sraR
  | 6 => onR8 z .swapHl .swapR
  | _ => onR8 z .srlHl .srlR

/-- The extended table: the row of the byte after the prefix. Every byte has one. -/
def decodeExtended (op : Byte) : Instr :=
  match bits op 7 6 with
  | 0 => decodeRot (bits op 5 3) (bits op 2 0)
  | 1 => onR8 (bits op 2 0) (.bitBHl (bits op 5 3)) (.bitBR (bits op 5 3))
  | 2 => onR8 (bits op 2 0) (.resBHl (bits op 5 3)) (.resBR (bits op 5 3))
  | _ => onR8 (bits op 2 0) (.setBHl (bits op 5 3)) (.setBR (bits op 5 3))

/-! ## Whole instructions -/

/-- The prefix byte (30_encoding R114). -/
def prefixByte : Byte := 0xCB

/-- The number of bytes of STOP (30_encoding R115). -/
def StopLength.bytes : StopLength → Nat
  | .one => 1
  | .two => 2

/-- The length in bytes of an instruction (30_encoding R100, R101, R103). The prefix row counts its own byte
alone, as the table has it; an extended row counts the prefix. -/
def Instr.length (c : Config) : Instr → Nat
  | .ldRrNn _ _ | .ldNnSp _ | .jpCcNn _ _ | .jpNn _ | .callCcNn _ _ | .callNn _ | .ldNnA _ | .ldANn _ => 3
  | .ldRN _ _ | .ldHlN _ | .jrE _ | .jrCcE _ _ => 2
  | .addAN _ | .adcAN _ | .subAN _ | .sbcAN _ | .andAN _ | .xorAN _ | .orAN _ | .cpAN _ => 2
  | .ldhNA _ | .ldhAN _ | .addSpE _ | .ldHlSpE _ => 2
  | .rlcR _ | .rlcHl | .rrcR _ | .rrcHl | .rlR _ | .rlHl | .rrR _ | .rrHl => 2
  | .slaR _ | .slaHl | .sraR _ | .sraHl | .swapR _ | .swapHl | .srlR _ | .srlHl => 2
  | .bitBR _ _ | .bitBHl _ | .resBR _ _ | .resBHl _ | .setBR _ _ | .setBHl _ => 2
  | .stop => c.stopLength.bytes
  | _ => 1

/-- The instruction that three successive bytes begin with: the primary row of the first, or after the prefix
the extended row of the second (40_engine R147, R148). Reading the bytes an instruction does not have changes
nothing (20_memory R81). -/
def decodeBytes (b0 b1 b2 : Byte) : Instr :=
  if b0 = prefixByte then decodeExtended b1 else decodePrimary b0 b1 b2

/-- Why a list of bytes holds no whole instruction. -/
inductive DecodeError where
  /-- There is no opcode byte. -/
  | noBytes
  /-- The list ends before the operand bytes of the opcode `op`. -/
  | truncated (op : Byte)
  deriving DecidableEq, Repr

/-- The first instruction of a list of bytes and the bytes after it. A list that ends right after the prefix
byte gives the prefix row itself. -/
def decode (c : Config) : List Byte → Except DecodeError (Instr × List Byte)
  | [] => .error .noBytes
  | op :: rest =>
    if op = prefixByte then
      match rest with
      | [] => .ok (.prefixCb, [])
      | x :: rest' => .ok (decodeExtended x, rest')
    else
      match (decodePrimary op 0 0).length c, rest with
      | 1, _ => .ok (decodePrimary op 0 0, rest)
      | 2, b1 :: rest' => .ok (decodePrimary op b1 0, rest')
      | 3, b1 :: b2 :: rest' => .ok (decodePrimary op b1 b2, rest')
      | _, _ => .error (.truncated op)

/-! ## The encoder (30_encoding R101, R104, the encoding column of opcode_table.json) -/

/-- The code k of a register, `r8[k]`. -/
def Reg8.code : Reg8 → Byte
  | .b => 0
  | .c => 1
  | .d => 2
  | .e => 3
  | .h => 4
  | .l => 5
  | .a => 7

/-- The code p of a pair, `rp[p]`. -/
def Pair.code : Pair → Byte
  | .bc => 0
  | .de => 1
  | .hl => 2
  | .sp => 3

/-- The code p of a stack pair, `rp2[p]`. -/
def StackPair.code : StackPair → Byte
  | .bc => 0
  | .de => 1
  | .hl => 2
  | .af => 3

/-- The code of a condition. -/
def Cond.code : Cond → Byte
  | .nz => 0
  | .z => 1
  | .nc => 2
  | .c => 3

/-- A number in bits 5 to 3 of an opcode byte. -/
def field53 (k : Nat) : Byte := BitVec.ofNat 8 k <<< 3

/-- The bytes of an instruction, the first at the lowest address. STOP's ignored byte is written as the
conventional 0x00 (R115). -/
def encode (c : Config) : Instr → List Byte
  | .nop => [0x00]
  | .ldRrNn p nn => [0x01#8 ||| p.code <<< 4, loByte nn, hiByte nn]
  | .ldBcA => [0x02]
  | .ldDeA => [0x12]
  | .ldHliA => [0x22]
  | .ldHldA => [0x32]
  | .incRr p => [0x03#8 ||| p.code <<< 4]
  | .incR rd => [0x04#8 ||| rd.code <<< 3]
  | .incHl => [0x34]
  | .decR rd => [0x05#8 ||| rd.code <<< 3]
  | .decHl => [0x35]
  | .ldRN rd n => [0x06#8 ||| rd.code <<< 3, n]
  | .ldHlN n => [0x36, n]
  | .rlca => [0x07]
  | .rrca => [0x0F]
  | .rla => [0x17]
  | .rra => [0x1F]
  | .ldNnSp nn => [0x08, loByte nn, hiByte nn]
  | .addHlRr p => [0x09#8 ||| p.code <<< 4]
  | .ldABc => [0x0A]
  | .ldADe => [0x1A]
  | .ldAHli => [0x2A]
  | .ldAHld => [0x3A]
  | .decRr p => [0x0B#8 ||| p.code <<< 4]
  | .stop =>
    match c.stopLength with
    | .one => [0x10]
    | .two => [0x10, 0x00]
  | .jrE e => [0x18, e]
  | .jrCcE cc e => [0x20#8 ||| cc.code <<< 3, e]
  | .daa => [0x27]
  | .cpl => [0x2F]
  | .scf => [0x37]
  | .ccf => [0x3F]
  | .ldRR rd rs => [0x40#8 ||| rd.code <<< 3 ||| rs.code]
  | .ldRHl rd => [0x46#8 ||| rd.code <<< 3]
  | .ldHlR rs => [0x70#8 ||| rs.code]
  | .halt => [0x76]
  | .addAR rs => [0x80#8 ||| rs.code]
  | .addAHl => [0x86]
  | .addAN n => [0xC6, n]
  | .adcAR rs => [0x88#8 ||| rs.code]
  | .adcAHl => [0x8E]
  | .adcAN n => [0xCE, n]
  | .subAR rs => [0x90#8 ||| rs.code]
  | .subAHl => [0x96]
  | .subAN n => [0xD6, n]
  | .sbcAR rs => [0x98#8 ||| rs.code]
  | .sbcAHl => [0x9E]
  | .sbcAN n => [0xDE, n]
  | .andAR rs => [0xA0#8 ||| rs.code]
  | .andAHl => [0xA6]
  | .andAN n => [0xE6, n]
  | .xorAR rs => [0xA8#8 ||| rs.code]
  | .xorAHl => [0xAE]
  | .xorAN n => [0xEE, n]
  | .orAR rs => [0xB0#8 ||| rs.code]
  | .orAHl => [0xB6]
  | .orAN n => [0xF6, n]
  | .cpAR rs => [0xB8#8 ||| rs.code]
  | .cpAHl => [0xBE]
  | .cpAN n => [0xFE, n]
  | .retCc cc => [0xC0#8 ||| cc.code <<< 3]
  | .popQq q => [0xC1#8 ||| q.code <<< 4]
  | .jpCcNn cc nn => [0xC2#8 ||| cc.code <<< 3, loByte nn, hiByte nn]
  | .jpNn nn => [0xC3, loByte nn, hiByte nn]
  | .callCcNn cc nn => [0xC4#8 ||| cc.code <<< 3, loByte nn, hiByte nn]
  | .pushQq q => [0xC5#8 ||| q.code <<< 4]
  | .rstT t => [0xC7#8 ||| field53 t]
  | .ret => [0xC9]
  | .reti => [0xD9]
  | .prefixCb => [0xCB]
  | .callNn nn => [0xCD, loByte nn, hiByte nn]
  | .ldhNA n => [0xE0, n]
  | .ldhAN n => [0xF0, n]
  | .ldhCA => [0xE2]
  | .ldhAC => [0xF2]
  | .addSpE e => [0xE8, e]
  | .jpHl => [0xE9]
  | .ldNnA nn => [0xEA, loByte nn, hiByte nn]
  | .ldANn nn => [0xFA, loByte nn, hiByte nn]
  | .di => [0xF3]
  | .ei => [0xFB]
  | .ldHlSpE e => [0xF8, e]
  | .ldSpHl => [0xF9]
  | .invalidD3 => [0xD3]
  | .invalidDB => [0xDB]
  | .invalidDD => [0xDD]
  | .invalidE3 => [0xE3]
  | .invalidE4 => [0xE4]
  | .invalidEB => [0xEB]
  | .invalidEC => [0xEC]
  | .invalidED => [0xED]
  | .invalidF4 => [0xF4]
  | .invalidFC => [0xFC]
  | .invalidFD => [0xFD]
  | .rlcR rs => [0xCB, rs.code]
  | .rlcHl => [0xCB, 0x06]
  | .rrcR rs => [0xCB, 0x08#8 ||| rs.code]
  | .rrcHl => [0xCB, 0x0E]
  | .rlR rs => [0xCB, 0x10#8 ||| rs.code]
  | .rlHl => [0xCB, 0x16]
  | .rrR rs => [0xCB, 0x18#8 ||| rs.code]
  | .rrHl => [0xCB, 0x1E]
  | .slaR rs => [0xCB, 0x20#8 ||| rs.code]
  | .slaHl => [0xCB, 0x26]
  | .sraR rs => [0xCB, 0x28#8 ||| rs.code]
  | .sraHl => [0xCB, 0x2E]
  | .swapR rs => [0xCB, 0x30#8 ||| rs.code]
  | .swapHl => [0xCB, 0x36]
  | .srlR rs => [0xCB, 0x38#8 ||| rs.code]
  | .srlHl => [0xCB, 0x3E]
  | .bitBR b rs => [0xCB, 0x40#8 ||| field53 b ||| rs.code]
  | .bitBHl b => [0xCB, 0x46#8 ||| field53 b]
  | .resBR b rs => [0xCB, 0x80#8 ||| field53 b ||| rs.code]
  | .resBHl b => [0xCB, 0x86#8 ||| field53 b]
  | .setBR b rs => [0xCB, 0xC0#8 ||| field53 b ||| rs.code]
  | .setBHl b => [0xCB, 0xC6#8 ||| field53 b]

/-! ## The words of opcode_table.json -/

/-- The bytes, in memory order, of an instruction whose bits are `w`, of which the table numbers `nbits`; the
bits above are 0. A row of the extended table is numbered there with the prefix in bits 15 to 8 and the
extended byte in bits 7 to 0, so a 16-bit word with 0xCB on top is laid out prefix first; any other word lies
with its least significant byte first (log entry 7). -/
def tableBytes (nbits w : Nat) : Byte × Byte × Byte :=
  let v := w % 2 ^ nbits
  if nbits = 16 ∧ v / 256 = 0xCB then (0xCB, BitVec.ofNat 8 v, 0)
  else (BitVec.ofNat 8 v, BitVec.ofNat 8 (v / 256), BitVec.ofNat 8 (v / 65536))

/-- The instruction the decoder reads from an instruction numbered as the table numbers it. The prefix row,
one byte long in the table, is the prefix with nothing after it (30_encoding R114). -/
def decodeTableWord (nbits w : Nat) : Option Instr :=
  match tableBytes nbits w with
  | (b0, b1, b2) =>
    match decode Config.default (if nbits ≤ 8 ∧ b0 = prefixByte then [b0] else [b0, b1, b2]) with
    | .ok (i, _) => some i
    | .error _ => none

end Sys2Proof
end

