-- ==== Sys2Proof/Machine/State.lean ====
section
/-! DEFINITION. The state of the core (10_state R30), the reasons a step can stop, and the state right after
power-on. State is plain data: every value of every field is a state, and a statement about every state is
about every memory image, every configuration and every pattern of interrupt requests. -/

namespace Sys2Proof.Machine

/-- Memory as its listed bytes: addresses strictly rising, and no entry equal to what an unlisted address
reads as (Machine/Ops.lean says what that is and when the form holds). -/
abbrev Memory := List Host.Cell

/-- What the hidden register `fault` records (10_state R44, 60_exceptions R404). -/
inductive FaultRecord where
  /-- `InvalidOpcode(addr, byte)`, code 1: the opcode fetched at `addr` is the invalid slot `byte`. -/
  | invalidOpcode (addr : Word) (byte : Byte)
  /-- `HaltBugUnmodelled(addr)`, code 2: HALT at `addr` with `ime` = 0 and a request present. -/
  | haltBugUnmodelled (addr : Word)
  deriving DecidableEq, Repr

/-- The environment's answers on the input `irq`, one per step, without end: the parameter IRQ_PORT (00_scope R10,
60_exceptions R405). What each answers, and what remains after an answer, is in Machine/Ops.lean. -/
inductive IrqPort where
  /-- No request is ever asserted: the default. -/
  | never
  /-- The arbitrary environment from position `n` of its sequence on. -/
  | oracle (n : Nat)
  /-- The answers of the pattern, over and over: a storm of requests, a periodic timer. -/
  | cycle (pattern : List (Option IrqNum))
  /-- One answer, and then a port's. -/
  | given (answer : Option IrqNum) (rest : IrqPort)
  deriving DecidableEq, Repr

/-- The state. -/
structure State where
  /-- Accumulator (10_state R31). -/
  a : Byte
  /-- Flags Z, N, H, C in bits 7 to 4; read and written through `State.readF` and `State.writeF` (R35). -/
  f : Byte
  /-- General registers (R31). -/
  b : Byte
  c : Byte
  d : Byte
  e : Byte
  h : Byte
  l : Byte
  /-- Stack pointer (R39). -/
  sp : Word
  /-- Program counter: between steps, the address of the next opcode byte (R40). -/
  pc : Word
  /-- Interrupt master enable (R41). -/
  ime : Bool
  /-- Halted (R42). -/
  halt : Bool
  /-- Stopped (R42). -/
  stop : Bool
  /-- Dispatch is blocked at the next instruction boundary (R43). -/
  eiDelay : Bool
  /-- The terminal error, if any (R44). -/
  fault : Option FaultRecord
  /-- Elapsed clock ticks (R46). -/
  cycles : Nat
  /-- The 65,536 bytes of memory (20_memory R70). -/
  mem : Memory
  /-- MODEL's own: the parameters of 00_scope R10; no step writes it. -/
  cfg : Config
  /-- MODEL's own: the parameter IRQ_PORT, the answers of the environment at the coming steps (60_exceptions
  R405). -/
  irqPort : IrqPort
  /-- MODEL's own: the input `irq` as the current step sampled it (40_engine R140). -/
  irq : Option IrqNum
  /-- MODEL's own: the output `irq_ack` of the last step (60_exceptions R407). -/
  irqAck : Option IrqNum
  deriving DecidableEq, Repr

/-- Why a step faults. -/
inductive Fault where
  /-- Raised by a step of a core whose `fault` holds an InvalidOpcode record: the core has no step until reset
  (40_engine R141, 60_exceptions R401). Safe: the spec's own stuck state. -/
  | invalidOpcode (addr : Word) (byte : Byte)
  deriving DecidableEq, Repr

/-- Why a step is refused. -/
inductive Refusal where
  /-- Raised by an arm of `exec` whose instruction has no meaning yet. Safe: the model stops where the
  hardware goes on. -/
  | notModelled (mnemonic : String)
  /-- Raised by a step of a core whose `fault` holds a HaltBugUnmodelled record (60_exceptions R403): the
  spec refuses what the hardware does there. Safe: the model stops where the hardware goes on. -/
  | haltBugUnmodelled (addr : Word)
  deriving DecidableEq, Repr

/-- The state at power-on of a core with configuration `c`, in the environment `port`, whose memory holds the image
`image` (10_state R50, 70_reset R441). -/
def State.powerOn (c : Config) (image : Memory) (port : IrqPort) : State where
  a := 0
  f := 0
  b := 0
  c := 0
  d := 0
  e := 0
  h := 0
  l := 0
  sp := 0xFFFE
  pc := match c.resetPc with
    | .zero => 0x0000
    | .bootSkipped => 0x0100
  ime := false
  halt := false
  stop := false
  eiDelay := false
  fault := none
  cycles := 0
  mem := image
  cfg := c
  irqPort := port
  irq := none
  irqAck := none

/-- The machine right after reset: power-on with every parameter at its default and nothing listed in memory
(log entries 1 to 3). -/
def State.reset : State := State.powerOn Config.default [] .never

end Sys2Proof.Machine
end

