-- ==== Sys2Proof/Machine/Ops.lean ====
section
/-! DEFINITION. The named operations over memory, registers and the stack; fetching past an instruction and
charging its ticks; recording a fault; the environment's answers on `irq`; taking an interrupt and returning from
one; reset and the host's access between steps. -/

namespace Sys2Proof.Machine

/-- What a meaning answers. -/
abbrev Result := Host.Outcome State Fault Refusal

/-! ## Memory (20_memory R70, R71) -/

/-- What an unlisted address reads as (log entry 2; the spec leaves the initial image to the host, decision
D25, and every image is a value of the memory). -/
def Memory.unlisted : Byte := 0x00

/-- The canonical form from address `lo` on: addresses at least `lo`, strictly rising, inside the 64 KiB
space, and no entry equal to what an unlisted address reads as. -/
def Memory.wfFrom : Nat → Memory → Bool
  | _, [] => true
  | lo, (k, v) :: rest =>
    decide (lo ≤ k) && decide (k < 65536) && decide (v ≠ Memory.unlisted) && Memory.wfFrom (k + 1) rest

/-- The canonical form. -/
def Memory.wf (m : Memory) : Bool := Memory.wfFrom 0 m

/-- `MemRead(addr, 1)`, total (R71). -/
def Memory.read : Memory → Nat → Byte
  | [], _ => Memory.unlisted
  | (k, v) :: rest, addr => if k = addr then v else Memory.read rest addr

/-- The memory with nothing listed at `addr`. -/
def Memory.erase : Memory → Nat → Memory
  | [], _ => []
  | (k, v) :: rest, addr => if k = addr then Memory.erase rest addr else (k, v) :: Memory.erase rest addr

/-- List `v` at `addr`, before the first higher address. -/
def Memory.place : Memory → Nat → Byte → Memory
  | [], addr, v => [(addr, v)]
  | (k, w) :: rest, addr, v =>
    if addr < k then (addr, v) :: (k, w) :: rest else (k, w) :: Memory.place rest addr v

/-- `MemWrite(addr, 1, v)`, total (R71): that byte alone changes. -/
def Memory.write (m : Memory) (addr : Nat) (v : Byte) : Memory :=
  if v = Memory.unlisted then m.erase addr else (m.erase addr).place addr v

/-- The byte at a 16-bit address. -/
def State.readByte (s : State) (addr : Word) : Byte := s.mem.read addr.toNat

/-- Store a byte at a 16-bit address. -/
def State.writeByte (s : State) (addr : Word) (v : Byte) : State :=
  { s with mem := s.mem.write addr.toNat v }

/-! ## Registers (10_state R31 to R35) -/

/-- What a read of F returns: bits 3 to 0 read as 0 (R35). -/
def State.readF (s : State) : Byte := s.f &&& 0xF0

/-- Every write of F keeps bits 7 to 4 alone (R35). -/
def State.writeF (s : State) (v : Byte) : State := { s with f := v &&& 0xF0 }

/-- `r8[k]` for a register code (30_encoding R104). -/
def State.reg8 (s : State) : Reg8 → Byte
  | .b => s.b
  | .c => s.c
  | .d => s.d
  | .e => s.e
  | .h => s.h
  | .l => s.l
  | .a => s.a

/-- `r8[k] <- v`. -/
def State.setReg8 (s : State) (r : Reg8) (v : Byte) : State :=
  match r with
  | .b => { s with b := v }
  | .c => { s with c := v }
  | .d => { s with d := v }
  | .e => { s with e := v }
  | .h => { s with h := v }
  | .l => { s with l := v }
  | .a => { s with a := v }

/-- The pair view BC (R32). -/
def State.bc (s : State) : Word := pairWord s.b s.c

/-- The pair view DE (R32). -/
def State.de (s : State) : Word := pairWord s.d s.e

/-- The pair view HL (R32). -/
def State.hl (s : State) : Word := pairWord s.h s.l

/-- The pair view AF (R32, R35). -/
def State.af (s : State) : Word := pairWord s.a s.readF

/-- `BC <- v`. -/
def State.setBc (s : State) (v : Word) : State := { s with b := hiByte v, c := loByte v }

/-- `DE <- v`. -/
def State.setDe (s : State) (v : Word) : State := { s with d := hiByte v, e := loByte v }

/-- `HL <- v`. -/
def State.setHl (s : State) (v : Word) : State := { s with h := hiByte v, l := loByte v }

/-- `AF <- v`, the low byte through F's mask. -/
def State.setAf (s : State) (v : Word) : State := { s with a := hiByte v }.writeF (loByte v)

/-- `rp[p]` (30_encoding R104). -/
def State.pair (s : State) : Pair → Word
  | .bc => s.bc
  | .de => s.de
  | .hl => s.hl
  | .sp => s.sp

/-- `rp[p] <- v`. -/
def State.setPair (s : State) (p : Pair) (v : Word) : State :=
  match p with
  | .bc => s.setBc v
  | .de => s.setDe v
  | .hl => s.setHl v
  | .sp => { s with sp := v }

/-- `rp2[p]` (30_encoding R104). -/
def State.stackPair (s : State) : StackPair → Word
  | .bc => s.bc
  | .de => s.de
  | .hl => s.hl
  | .af => s.af

/-- `rp2[p] <- v`. -/
def State.setStackPair (s : State) (q : StackPair) (v : Word) : State :=
  match q with
  | .bc => s.setBc v
  | .de => s.setDe v
  | .hl => s.setHl v
  | .af => s.setAf v

/-! ## Fetching past an instruction and charging it -/

/-- The execution stage has fetched the `n` bytes of the instruction: PC is past them (00_scope R14, 10_state
R40) and `ei_delay` is cleared (40_engine R146). -/
def State.fetched (s : State) (n : Nat) : State :=
  { s with pc := s.pc + BitVec.ofNat 16 n, eiDelay := false }

/-- `charge(k)` (00_scope R15). -/
def State.charge (s : State) (k : Nat) : State := { s with cycles := s.cycles + k }

/-- An instruction ends its step with its ticks charged (40_engine R150). -/
def State.complete (s : State) (k : Nat) : Result := .next (s.charge k)

/-- `PC <- target`. -/
def State.jump (s : State) (target : Word) : State := { s with pc := target }

/-! ## The stack (45_control R340, R341) -/

/-- `push16(v)`: the high byte at SP - 1, then the low byte at SP - 2. -/
def State.push16 (s : State) (v : Word) : State :=
  let s1 := { s with sp := s.sp - 1 }
  let s2 := s1.writeByte s1.sp (hiByte v)
  let s3 := { s2 with sp := s2.sp - 1 }
  s3.writeByte s3.sp (loByte v)

/-- The value `pop16()` returns: the low byte at SP, the high byte at SP + 1. -/
def State.popValue (s : State) : Word := pairWord (s.readByte (s.sp + 1)) (s.readByte s.sp)

/-- What `pop16()` does to the state: SP rises by 2. -/
def State.popped (s : State) : State := { s with sp := s.sp + 2 }

/-- `PC <- pop16()`. -/
def State.popPc (s : State) : State := s.popped.jump s.popValue

/-! ## Faults (40_engine R149, 60_exceptions R400 to R404) -/

/-- Record a fault: nothing changes but `fault`, PC staying at the opcode. -/
def State.raise (s : State) (r : FaultRecord) : State := { s with fault := some r }

/-- The fault code of 60_exceptions R404. -/
def State.faultCode (s : State) : Nat :=
  match s.fault with
  | none => 0
  | some (.invalidOpcode _ _) => 1
  | some (.haltBugUnmodelled _) => 2

/-! ## The environment's answers on `irq` (60_exceptions R405) -/

/-- The answer at the coming step. -/
def IrqPort.answer : IrqPort → Option IrqNum
  | .never => none
  | .oracle n => Config.irqOracle n
  | .cycle pattern => pattern.headD none
  | .given a _ => a

/-- The answers at the steps after the coming one. -/
def IrqPort.later : IrqPort → IrqPort
  | .never => .never
  | .oracle n => .oracle (n + 1)
  | .cycle [] => .cycle []
  | .cycle (a :: rest) => .cycle (rest ++ [a])
  | .given _ rest => rest

/-! ## Taking an interrupt and returning from one -/

/-- The vector of request k: 0x0040 + 8 k (60_exceptions R406). -/
def irqVector (k : IrqNum) : Word := 0x0040 + 8 * BitVec.ofNat 16 k.val

/-- `Dispatch(k)`: `ime` is cleared, PC is pushed, PC goes to the vector, the request is acknowledged and 20
ticks are charged (60_exceptions R407). -/
def State.takeInterrupt (s : State) (k : IrqNum) : State :=
  let s1 := ({ s with ime := false }).push16 s.pc
  { s1.jump (irqVector k) with irqAck := some k }.charge 20

/-- The return from an interrupt: PC is popped and `ime` set, with no delay (45_control R354, 60_exceptions
R411). -/
def State.returnFromInterrupt (s : State) : State := { s.popPc with ime := true }

/-! ## Reset and the host's access, between steps (70_reset R440, 10_state R49) -/

/-- The `reset` operation: every piece of state at its reset value, memory and `cycles` unchanged (R440). The
environment (the coming answers on `irq`) is not the core's to reset; the ports hold no stale value. -/
def State.applyReset (s : State) : State :=
  { State.powerOn s.cfg s.mem s.irqPort with cycles := s.cycles }

/-- The eight registers the host can name (10_state R49). -/
inductive HostReg where
  | a | f | b | c | d | e | h | l
  deriving DecidableEq, Repr

/-- A host read of a register. -/
def State.hostRead (s : State) : HostReg → Byte
  | .a => s.a
  | .f => s.readF
  | .b => s.b
  | .c => s.c
  | .d => s.d
  | .e => s.e
  | .h => s.h
  | .l => s.l

/-- A host write of a register, F through its mask (R49, decision D31). -/
def State.hostWrite (s : State) (r : HostReg) (v : Byte) : State :=
  match r with
  | .a => { s with a := v }
  | .f => s.writeF v
  | .b => { s with b := v }
  | .c => { s with c := v }
  | .d => { s with d := v }
  | .e => { s with e := v }
  | .h => { s with h := v }
  | .l => { s with l := v }

/-- A host read of a pair view (R49). -/
def State.hostReadPair (s : State) (q : StackPair) : Word := s.stackPair q

/-- A host write of a pair view, AF through F's mask (R49, decision D31). -/
def State.hostWritePair (s : State) (q : StackPair) (v : Word) : State := s.setStackPair q v

end Sys2Proof.Machine
end

