-- ==== Sys2Proof/Machine/Flags.lean ====
section
/-! DEFINITION. The flags and every computation that yields one: the arithmetic functions of 42_alu8 and
43_alu16 and the rotate and shift functions of 44_rotate_shift_bit, each on unbounded numbers where the spec
writes them so. -/

namespace Sys2Proof.Machine

/-! ## The flag bits of F (10_state R35, 00_scope R12) -/

/-- The byte of four flags: Z bit 7, N bit 6, H bit 5, C bit 4, low nibble 0. -/
def flagByte (z n h c : Bool) : Byte :=
  (bif z then 0x80 else 0) ||| (bif n then 0x40 else 0) ||| (bif h then 0x20 else 0) ||| (bif c then 0x10 else 0)

/-- `F.Z`. -/
def State.flagZ (s : State) : Bool := s.f.getLsbD 7

/-- `F.N`. -/
def State.flagN (s : State) : Bool := s.f.getLsbD 6

/-- `F.H`. -/
def State.flagH (s : State) : Bool := s.f.getLsbD 5

/-- `F.C`. -/
def State.flagC (s : State) : Bool := s.f.getLsbD 4

/-- Write the four flags; a flag an instruction leaves alone is passed as it was. -/
def State.setFlags (s : State) (z n h c : Bool) : State := s.writeF (flagByte z n h c)

/-- An 8-bit result with its four flags. -/
structure AluResult where
  res : Byte
  z : Bool
  n : Bool
  h : Bool
  c : Bool
  deriving DecidableEq, Repr

/-- Write the flags of a result. -/
def State.applyFlags (s : State) (r : AluResult) : State := s.setFlags r.z r.n r.h r.c

/-- Write a result to A, and its flags. -/
def State.applyAlu (s : State) (r : AluResult) : State := { s with a := r.res }.applyFlags r

/-! ## 8-bit arithmetic and logic (42_alu8) -/

/-- `ADD8(a, b, cin)` (R220). -/
def add8 (a b : Byte) (cin : Bool) : AluResult :=
  let sum := a.toNat + b.toNat + cin.toNat
  let res := BitVec.ofNat 8 sum
  { res := res
    z := decide (res = 0)
    n := false
    h := decide (a.toNat % 16 + b.toNat % 16 + cin.toNat > 0x0F)
    c := decide (sum > 0xFF) }

/-- `SUB8(a, b, cin)` (R221). -/
def sub8 (a b : Byte) (cin : Bool) : AluResult :=
  let res := BitVec.ofInt 8 ((a.toNat : Int) - b.toNat - cin.toNat)
  { res := res
    z := decide (res = 0)
    n := true
    h := decide (a.toNat % 16 < b.toNat % 16 + cin.toNat)
    c := decide (a.toNat < b.toNat + cin.toNat) }

/-- AND (R235). -/
def and8 (a b : Byte) : AluResult :=
  { res := a &&& b, z := decide (a &&& b = 0), n := false, h := true, c := false }

/-- XOR (R238). -/
def xor8 (a b : Byte) : AluResult :=
  { res := a ^^^ b, z := decide (a ^^^ b = 0), n := false, h := false, c := false }

/-- OR (R241). -/
def or8 (a b : Byte) : AluResult :=
  { res := a ||| b, z := decide (a ||| b = 0), n := false, h := false, c := false }

/-- INC of a byte; C is handed through (R247). -/
def inc8 (v : Byte) (c : Bool) : AluResult :=
  { res := v + 1, z := decide (v + 1 = 0), n := false, h := decide (v.toNat % 16 = 0x0F), c := c }

/-- DEC of a byte; C is handed through (R249). -/
def dec8 (v : Byte) (c : Bool) : AluResult :=
  { res := v - 1, z := decide (v - 1 = 0), n := true, h := decide (v.toNat % 16 = 0x00), c := c }

/-- DAA: the correction of A by the flags N, H and C (R251). Both thresholds test A before the correction. -/
def daa8 (a : Byte) (n h c : Bool) : AluResult :=
  if n then
    let corr : Byte := (bif c then 0x60 else 0x00) ||| (bif h then 0x06 else 0x00)
    { res := a - corr, z := decide (a - corr = 0), n := true, h := false, c := c }
  else
    let high := c || decide (a.toNat > 0x99)
    let low := h || decide (a.toNat % 16 > 0x09)
    let corr : Byte := (bif high then 0x60 else 0x00) ||| (bif low then 0x06 else 0x00)
    { res := a + corr, z := decide (a + corr = 0), n := false, h := false, c := high }

/-! ## 16-bit arithmetic (43_alu16) -/

/-- A 16-bit result with its four flags. -/
structure WideResult where
  res : Word
  z : Bool
  n : Bool
  h : Bool
  c : Bool
  deriving DecidableEq, Repr

/-- Write the flags of a 16-bit result. -/
def State.applyWideFlags (s : State) (r : WideResult) : State := s.setFlags r.z r.n r.h r.c

/-- ADD HL,rr: H out of bit 11, C out of bit 15, Z handed through (R280). -/
def add16 (a b : Word) (z : Bool) : WideResult :=
  let sum := a.toNat + b.toNat
  { res := BitVec.ofNat 16 sum
    z := z
    n := false
    h := decide (a.toNat % 4096 + b.toNat % 4096 > 0x0FFF)
    c := decide (sum > 0xFFFF) }

/-- `sext_16(e)` (00_scope R11). -/
def sext16 (e : Byte) : Word := e.signExtend 16

/-- `SPADD(sp, e)`: H and C of the unsigned low-byte sum (R283). -/
def spAdd (sp : Word) (e : Byte) : WideResult :=
  { res := sp + sext16 e
    z := false
    n := false
    h := decide (sp.toNat % 16 + e.toNat % 16 > 0x0F)
    c := decide (sp.toNat % 256 + e.toNat > 0xFF) }

/-! ## Rotates, shifts and swap (44_rotate_shift_bit R300) -/

/-- An 8-bit result and the bit that goes to the carry flag. -/
structure RotResult where
  r : Byte
  c : Bool
  deriving DecidableEq, Repr

/-- `RLC(v)`. -/
def rlc8 (v : Byte) : RotResult := { r := v <<< 1 ||| v >>> 7, c := v.getLsbD 7 }

/-- `RRC(v)`. -/
def rrc8 (v : Byte) : RotResult := { r := v >>> 1 ||| v <<< 7, c := v.getLsbD 0 }

/-- `RL(v, cin)`. -/
def rl8 (v : Byte) (cin : Bool) : RotResult :=
  { r := v <<< 1 ||| (bif cin then 0x01 else 0x00), c := v.getLsbD 7 }

/-- `RR(v, cin)`. -/
def rr8 (v : Byte) (cin : Bool) : RotResult :=
  { r := v >>> 1 ||| (bif cin then 0x80 else 0x00), c := v.getLsbD 0 }

/-- `SLA(v)`. -/
def sla8 (v : Byte) : RotResult := { r := v <<< 1, c := v.getLsbD 7 }

/-- `SRA(v)`. -/
def sra8 (v : Byte) : RotResult := { r := v >>> 1 ||| v &&& 0x80, c := v.getLsbD 0 }

/-- `SWAP(v)`. -/
def swap8 (v : Byte) : RotResult := { r := v <<< 4 ||| v >>> 4, c := false }

/-- `SRL(v)`. -/
def srl8 (v : Byte) : RotResult := { r := v >>> 1, c := v.getLsbD 0 }

/-- The flags of a rotate, shift or swap with Z as given: N and H reset, C the bit moved out. -/
def State.rotFlags (s : State) (z : Bool) (x : RotResult) : State := s.setFlags z false false x.c

/-- `AccZ(r)`: Z of an accumulator rotate, by the parameter ACC_ROTATE_Z (R301, R305). -/
def State.accZ (s : State) (r : Byte) : Bool :=
  match s.cfg.accRotateZ with
  | .reset => false
  | .result => decide (r = 0)

/-- An accumulator rotate writes A and the flags (R301 to R304). -/
def State.accRotate (s : State) (x : RotResult) : State := { s with a := x.r }.rotFlags (s.accZ x.r) x

/-! ## Bit operations (44_rotate_shift_bit R315 to R320) -/

/-- BIT b: Z the complement of the bit, N reset, H set, C unchanged (R315). -/
def State.bitFlags (s : State) (b : Nat) (v : Byte) : State := s.setFlags (!v.getLsbD b) false true s.flagC

/-- RES b: `v & ~(1 << b)` (R317). -/
def resBit (b : Nat) (v : Byte) : Byte := v &&& ~~~(1#8 <<< b)

/-- SET b: `v | (1 << b)` (R319). -/
def setBit (b : Nat) (v : Byte) : Byte := v ||| 1#8 <<< b

/-! ## Conditions (45_control R342) -/

/-- `cond(cc)`. -/
def State.cond (s : State) : Cond → Bool
  | .nz => !s.flagZ
  | .z => s.flagZ
  | .nc => !s.flagC
  | .c => s.flagC

end Sys2Proof.Machine
end

