-- ==== Sys2Proof/Machine/Operands.lean ====
section
/-! DEFINITION. The operand forms: the byte at HL, the high-RAM window, the target of a relative jump, and
the write-back of the extended forms to a register or to the byte at HL. -/

namespace Sys2Proof.Machine

/-- The operand (HL): `MemRead(HL, 1)` (42_alu8 R222, 44_rotate R306). -/
def State.atHl (s : State) : Byte := s.readByte s.hl

/-- `MemWrite(HL, 1, v)`. -/
def State.setAtHl (s : State) (v : Byte) : State := s.writeByte s.hl v

/-- The high-RAM address `0xFF00 + offset` (30_encoding R108). -/
def highRam (offset : Byte) : Word := 0xFF00 + offset.setWidth 16

/-- The target of a relative jump: PC, already past the displacement, plus `sext_16(e)` (30_encoding R107). -/
def State.relTarget (s : State) (e : Byte) : Word := s.pc + sext16 e

/-- The target of RST t: `zext_16(t * 8)` (30_encoding R109). -/
def rstTarget (t : Nat) : Word := BitVec.ofNat 16 (t * 8)

/-- An extended rotate, shift or swap of a register: it is written back, Z by the result (44_rotate R306). -/
def State.rotReg (s : State) (r : Reg8) (x : RotResult) : State :=
  (s.setReg8 r x.r).rotFlags (decide (x.r = 0)) x

/-- An extended rotate, shift or swap of the byte at HL, written back to the same address (44_rotate R306). -/
def State.rotHl (s : State) (x : RotResult) : State := (s.setAtHl x.r).rotFlags (decide (x.r = 0)) x

end Sys2Proof.Machine
end

