-- ==== Sys2Proof/Machine/Alu16.lean ====
section
/-! DEFINITION. 16-bit arithmetic (43_alu16 R280 to R285). A meaning runs from the address of the
opcode: it fetches past its bytes, has its effect and charges its ticks. -/

namespace Sys2Proof.Machine

/-- ADD HL,rr (R280). -/
def execAddHlRr (p : Pair) (s : State) : Result :=
  let s := s.fetched 1
  let x := add16 s.hl (s.pair p) s.flagZ
  ((s.setHl x.res).applyWideFlags x).complete 8

/-- INC rr (R281). -/
def execIncRr (p : Pair) (s : State) : Result :=
  let s := s.fetched 1
  (s.setPair p (s.pair p + 1)).complete 8

/-- DEC rr (R282). -/
def execDecRr (p : Pair) (s : State) : Result :=
  let s := s.fetched 1
  (s.setPair p (s.pair p - 1)).complete 8

/-- ADD SP,e (R284). -/
def execAddSpE (e : Byte) (s : State) : Result :=
  let s := s.fetched 2
  let x := spAdd s.sp e
  (({ s with sp := x.res }).applyWideFlags x).complete 16

/-- LD HL,SP+e (R285): SP is not written. -/
def execLdHlSpE (e : Byte) (s : State) : Result :=
  let s := s.fetched 2
  let x := spAdd s.sp e
  ((s.setHl x.res).applyWideFlags x).complete 12

end Sys2Proof.Machine
end

