-- ==== Sys2Proof/Machine/Alu8.lean ====
section
/-! DEFINITION. 8-bit arithmetic and logic (42_alu8 R223 to R254). A meaning runs from the address of the
opcode: it fetches past its bytes, has its effect and charges its ticks. -/

namespace Sys2Proof.Machine

/-- ADD A,r (R223). -/
def execAddAR (rs : Reg8) (s : State) : Result :=
  let s := s.fetched 1
  (s.applyAlu (add8 s.a (s.reg8 rs) false)).complete 4

/-- ADD A,(HL) (R224). -/
def execAddAHl (s : State) : Result :=
  let s := s.fetched 1
  (s.applyAlu (add8 s.a s.atHl false)).complete 8

/-- ADD A,n (R225). -/
def execAddAN (n : Byte) (s : State) : Result :=
  let s := s.fetched 2
  (s.applyAlu (add8 s.a n false)).complete 8

/-- ADC A,r (R226). -/
def execAdcAR (rs : Reg8) (s : State) : Result :=
  let s := s.fetched 1
  (s.applyAlu (add8 s.a (s.reg8 rs) s.flagC)).complete 4

/-- ADC A,(HL) (R227). -/
def execAdcAHl (s : State) : Result :=
  let s := s.fetched 1
  (s.applyAlu (add8 s.a s.atHl s.flagC)).complete 8

/-- ADC A,n (R228). -/
def execAdcAN (n : Byte) (s : State) : Result :=
  let s := s.fetched 2
  (s.applyAlu (add8 s.a n s.flagC)).complete 8

/-- SUB A,r (R229). -/
def execSubAR (rs : Reg8) (s : State) : Result :=
  let s := s.fetched 1
  (s.applyAlu (sub8 s.a (s.reg8 rs) false)).complete 4

/-- SUB A,(HL) (R230). -/
def execSubAHl (s : State) : Result :=
  let s := s.fetched 1
  (s.applyAlu (sub8 s.a s.atHl false)).complete 8

/-- SUB A,n (R231). -/
def execSubAN (n : Byte) (s : State) : Result :=
  let s := s.fetched 2
  (s.applyAlu (sub8 s.a n false)).complete 8

/-- SBC A,r (R232). -/
def execSbcAR (rs : Reg8) (s : State) : Result :=
  let s := s.fetched 1
  (s.applyAlu (sub8 s.a (s.reg8 rs) s.flagC)).complete 4

/-- SBC A,(HL) (R233). -/
def execSbcAHl (s : State) : Result :=
  let s := s.fetched 1
  (s.applyAlu (sub8 s.a s.atHl s.flagC)).complete 8

/-- SBC A,n (R234). -/
def execSbcAN (n : Byte) (s : State) : Result :=
  let s := s.fetched 2
  (s.applyAlu (sub8 s.a n s.flagC)).complete 8

/-- AND A,r (R235). -/
def execAndAR (rs : Reg8) (s : State) : Result :=
  let s := s.fetched 1
  (s.applyAlu (and8 s.a (s.reg8 rs))).complete 4

/-- AND A,(HL) (R236). -/
def execAndAHl (s : State) : Result :=
  let s := s.fetched 1
  (s.applyAlu (and8 s.a s.atHl)).complete 8

/-- AND A,n (R237). -/
def execAndAN (n : Byte) (s : State) : Result :=
  let s := s.fetched 2
  (s.applyAlu (and8 s.a n)).complete 8

/-- XOR A,r (R238). -/
def execXorAR (rs : Reg8) (s : State) : Result :=
  let s := s.fetched 1
  (s.applyAlu (xor8 s.a (s.reg8 rs))).complete 4

/-- XOR A,(HL) (R239). -/
def execXorAHl (s : State) : Result :=
  let s := s.fetched 1
  (s.applyAlu (xor8 s.a s.atHl)).complete 8

/-- XOR A,n (R240). -/
def execXorAN (n : Byte) (s : State) : Result :=
  let s := s.fetched 2
  (s.applyAlu (xor8 s.a n)).complete 8

/-- OR A,r (R241). -/
def execOrAR (rs : Reg8) (s : State) : Result :=
  let s := s.fetched 1
  (s.applyAlu (or8 s.a (s.reg8 rs))).complete 4

/-- OR A,(HL) (R242). -/
def execOrAHl (s : State) : Result :=
  let s := s.fetched 1
  (s.applyAlu (or8 s.a s.atHl)).complete 8

/-- OR A,n (R243). -/
def execOrAN (n : Byte) (s : State) : Result :=
  let s := s.fetched 2
  (s.applyAlu (or8 s.a n)).complete 8

/-- CP A,r (R244): A is not written. -/
def execCpAR (rs : Reg8) (s : State) : Result :=
  let s := s.fetched 1
  (s.applyFlags (sub8 s.a (s.reg8 rs) false)).complete 4

/-- CP A,(HL) (R245): A is not written. -/
def execCpAHl (s : State) : Result :=
  let s := s.fetched 1
  (s.applyFlags (sub8 s.a s.atHl false)).complete 8

/-- CP A,n (R246): A is not written. -/
def execCpAN (n : Byte) (s : State) : Result :=
  let s := s.fetched 2
  (s.applyFlags (sub8 s.a n false)).complete 8

/-- INC r (R247). -/
def execIncR (rd : Reg8) (s : State) : Result :=
  let s := s.fetched 1
  let x := inc8 (s.reg8 rd) s.flagC
  ((s.setReg8 rd x.res).applyFlags x).complete 4

/-- INC (HL) (R248). -/
def execIncHl (s : State) : Result :=
  let s := s.fetched 1
  let x := inc8 s.atHl s.flagC
  ((s.setAtHl x.res).applyFlags x).complete 12

/-- DEC r (R249). -/
def execDecR (rd : Reg8) (s : State) : Result :=
  let s := s.fetched 1
  let x := dec8 (s.reg8 rd) s.flagC
  ((s.setReg8 rd x.res).applyFlags x).complete 4

/-- DEC (HL) (R250). -/
def execDecHl (s : State) : Result :=
  let s := s.fetched 1
  let x := dec8 s.atHl s.flagC
  ((s.setAtHl x.res).applyFlags x).complete 12

/-- DAA (R251). -/
def execDaa (s : State) : Result :=
  let s := s.fetched 1
  (s.applyAlu (daa8 s.a s.flagN s.flagH s.flagC)).complete 4

/-- CPL (R252). -/
def execCpl (s : State) : Result :=
  let s := s.fetched 1
  (({ s with a := ~~~s.a }).setFlags s.flagZ true true s.flagC).complete 4

/-- SCF (R253). -/
def execScf (s : State) : Result :=
  let s := s.fetched 1
  (s.setFlags s.flagZ false false true).complete 4

/-- CCF (R254). -/
def execCcf (s : State) : Result :=
  let s := s.fetched 1
  (s.setFlags s.flagZ false false (!s.flagC)).complete 4

end Sys2Proof.Machine
end

