-- ==== Sys2Proof/Machine/Control.lean ====
section
/-! DEFINITION. Stack and control transfer (45_control R343 to R355). A meaning runs from the address of the
opcode: it fetches past its bytes, has its effect and charges its ticks. -/

namespace Sys2Proof.Machine

/-- PUSH qq (R343). -/
def execPushQq (q : StackPair) (s : State) : Result :=
  let s := s.fetched 1
  (s.push16 (s.stackPair q)).complete 16

/-- POP qq (R344). -/
def execPopQq (q : StackPair) (s : State) : Result :=
  let s := s.fetched 1
  (s.popped.setStackPair q s.popValue).complete 12

/-- JP nn (R345). -/
def execJpNn (nn : Word) (s : State) : Result :=
  let s := s.fetched 3
  (s.jump nn).complete 16

/-- JP cc,nn (R346): the operand bytes are passed whether or not the condition holds. -/
def execJpCcNn (cc : Cond) (nn : Word) (s : State) : Result :=
  let s := s.fetched 3
  if s.cond cc then (s.jump nn).complete 16 else s.complete 12

/-- JP HL (R347). -/
def execJpHl (s : State) : Result :=
  let s := s.fetched 1
  (s.jump s.hl).complete 4

/-- JR e (R348). -/
def execJrE (e : Byte) (s : State) : Result :=
  let s := s.fetched 2
  (s.jump (s.relTarget e)).complete 12

/-- JR cc,e (R349): the displacement byte is passed whether or not the condition holds. -/
def execJrCcE (cc : Cond) (e : Byte) (s : State) : Result :=
  let s := s.fetched 2
  if s.cond cc then (s.jump (s.relTarget e)).complete 12 else s.complete 8

/-- CALL nn (R350). -/
def execCallNn (nn : Word) (s : State) : Result :=
  let s := s.fetched 3
  ((s.push16 s.pc).jump nn).complete 24

/-- CALL cc,nn (R351): nothing is pushed when the condition does not hold. -/
def execCallCcNn (cc : Cond) (nn : Word) (s : State) : Result :=
  let s := s.fetched 3
  if s.cond cc then ((s.push16 s.pc).jump nn).complete 24 else s.complete 12

/-- RET (R352). -/
def execRet (s : State) : Result :=
  let s := s.fetched 1
  (s.popPc).complete 16

/-- RET cc (R353). -/
def execRetCc (cc : Cond) (s : State) : Result :=
  let s := s.fetched 1
  if s.cond cc then (s.popPc).complete 20 else s.complete 8

/-- RETI (R354). -/
def execReti (s : State) : Result :=
  let s := s.fetched 1
  (s.returnFromInterrupt).complete 16

/-- RST t (R355). -/
def execRstT (t : Nat) (s : State) : Result :=
  let s := s.fetched 1
  ((s.push16 s.pc).jump (rstTarget t)).complete 16

end Sys2Proof.Machine
end

