-- ==== Sys2Proof/Machine/Loads.lean ====
section
/-! DEFINITION. The loads and stores of 41_loads (R170 to R191). A meaning runs from the address of the
opcode: it fetches past its bytes, has its effect and charges its ticks. -/

namespace Sys2Proof.Machine

/-- LD r,r' (R170). -/
def execLdRR (rd rs : Reg8) (s : State) : Result :=
  let s := s.fetched 1
  (s.setReg8 rd (s.reg8 rs)).complete 4

/-- LD r,n (R171). -/
def execLdRN (rd : Reg8) (n : Byte) (s : State) : Result :=
  let s := s.fetched 2
  (s.setReg8 rd n).complete 8

/-- LD r,(HL) (R172): HL is read before half of it may be written. -/
def execLdRHl (rd : Reg8) (s : State) : Result :=
  let s := s.fetched 1
  (s.setReg8 rd s.atHl).complete 8

/-- LD (HL),r (R173). -/
def execLdHlR (rs : Reg8) (s : State) : Result :=
  let s := s.fetched 1
  (s.setAtHl (s.reg8 rs)).complete 8

/-- LD (HL),n (R174). -/
def execLdHlN (n : Byte) (s : State) : Result :=
  let s := s.fetched 2
  (s.setAtHl n).complete 12

/-- LD A,(BC) (R175). -/
def execLdABc (s : State) : Result :=
  let s := s.fetched 1
  ({ s with a := s.readByte s.bc }).complete 8

/-- LD A,(DE) (R176). -/
def execLdADe (s : State) : Result :=
  let s := s.fetched 1
  ({ s with a := s.readByte s.de }).complete 8

/-- LD (BC),A (R177). -/
def execLdBcA (s : State) : Result :=
  let s := s.fetched 1
  (s.writeByte s.bc s.a).complete 8

/-- LD (DE),A (R178). -/
def execLdDeA (s : State) : Result :=
  let s := s.fetched 1
  (s.writeByte s.de s.a).complete 8

/-- LD A,(nn) (R179). -/
def execLdANn (nn : Word) (s : State) : Result :=
  let s := s.fetched 3
  ({ s with a := s.readByte nn }).complete 16

/-- LD (nn),A (R180). -/
def execLdNnA (nn : Word) (s : State) : Result :=
  let s := s.fetched 3
  (s.writeByte nn s.a).complete 16

/-- LDH A,(C) (R181). -/
def execLdhAC (s : State) : Result :=
  let s := s.fetched 1
  ({ s with a := s.readByte (highRam s.c) }).complete 8

/-- LDH (C),A (R182). -/
def execLdhCA (s : State) : Result :=
  let s := s.fetched 1
  (s.writeByte (highRam s.c) s.a).complete 8

/-- LDH A,(n) (R183). -/
def execLdhAN (n : Byte) (s : State) : Result :=
  let s := s.fetched 2
  ({ s with a := s.readByte (highRam n) }).complete 12

/-- LDH (n),A (R184). -/
def execLdhNA (n : Byte) (s : State) : Result :=
  let s := s.fetched 2
  (s.writeByte (highRam n) s.a).complete 12

/-- LD A,(HL+) (R185). -/
def execLdAHli (s : State) : Result :=
  let s := s.fetched 1
  (({ s with a := s.atHl }).setHl (s.hl + 1)).complete 8

/-- LD A,(HL-) (R186). -/
def execLdAHld (s : State) : Result :=
  let s := s.fetched 1
  (({ s with a := s.atHl }).setHl (s.hl - 1)).complete 8

/-- LD (HL+),A (R187). -/
def execLdHliA (s : State) : Result :=
  let s := s.fetched 1
  ((s.setAtHl s.a).setHl (s.hl + 1)).complete 8

/-- LD (HL-),A (R188). -/
def execLdHldA (s : State) : Result :=
  let s := s.fetched 1
  ((s.setAtHl s.a).setHl (s.hl - 1)).complete 8

/-- LD rr,nn (R189). -/
def execLdRrNn (p : Pair) (nn : Word) (s : State) : Result :=
  let s := s.fetched 3
  (s.setPair p nn).complete 12

/-- LD (nn),SP (R190). -/
def execLdNnSp (nn : Word) (s : State) : Result :=
  let s := s.fetched 3
  ((s.writeByte nn (loByte s.sp)).writeByte (nn + 1) (hiByte s.sp)).complete 20

/-- LD SP,HL (R191). -/
def execLdSpHl (s : State) : Result :=
  let s := s.fetched 1
  ({ s with sp := s.hl }).complete 8

end Sys2Proof.Machine
end

