-- ==== Sys2Proof/Machine/Rotate.lean ====
section
/-! DEFINITION. Rotates, shifts, swap and bit operations (44_rotate_shift_bit R301 to R320). A meaning runs from the address of the
opcode: it fetches past its bytes, has its effect and charges its ticks. -/

namespace Sys2Proof.Machine

/-- RLCA (R301). -/
def execRlca (s : State) : Result :=
  let s := s.fetched 1
  (s.accRotate (rlc8 s.a)).complete 4

/-- RRCA (R302). -/
def execRrca (s : State) : Result :=
  let s := s.fetched 1
  (s.accRotate (rrc8 s.a)).complete 4

/-- RLA (R303). -/
def execRla (s : State) : Result :=
  let s := s.fetched 1
  (s.accRotate (rl8 s.a s.flagC)).complete 4

/-- RRA (R304). -/
def execRra (s : State) : Result :=
  let s := s.fetched 1
  (s.accRotate (rr8 s.a s.flagC)).complete 4

/-- RLC r (R307). -/
def execRlcR (rs : Reg8) (s : State) : Result :=
  let s := s.fetched 2
  (s.rotReg rs (rlc8 (s.reg8 rs))).complete 8

/-- RLC (HL) (R307). -/
def execRlcHl (s : State) : Result :=
  let s := s.fetched 2
  (s.rotHl (rlc8 s.atHl)).complete 16

/-- RRC r (R308). -/
def execRrcR (rs : Reg8) (s : State) : Result :=
  let s := s.fetched 2
  (s.rotReg rs (rrc8 (s.reg8 rs))).complete 8

/-- RRC (HL) (R308). -/
def execRrcHl (s : State) : Result :=
  let s := s.fetched 2
  (s.rotHl (rrc8 s.atHl)).complete 16

/-- RL r (R309). -/
def execRlR (rs : Reg8) (s : State) : Result :=
  let s := s.fetched 2
  (s.rotReg rs (rl8 (s.reg8 rs) s.flagC)).complete 8

/-- RL (HL) (R309). -/
def execRlHl (s : State) : Result :=
  let s := s.fetched 2
  (s.rotHl (rl8 s.atHl s.flagC)).complete 16

/-- RR r (R310). -/
def execRrR (rs : Reg8) (s : State) : Result :=
  let s := s.fetched 2
  (s.rotReg rs (rr8 (s.reg8 rs) s.flagC)).complete 8

/-- RR (HL) (R310). -/
def execRrHl (s : State) : Result :=
  let s := s.fetched 2
  (s.rotHl (rr8 s.atHl s.flagC)).complete 16

/-- SLA r (R311). -/
def execSlaR (rs : Reg8) (s : State) : Result :=
  let s := s.fetched 2
  (s.rotReg rs (sla8 (s.reg8 rs))).complete 8

/-- SLA (HL) (R311). -/
def execSlaHl (s : State) : Result :=
  let s := s.fetched 2
  (s.rotHl (sla8 s.atHl)).complete 16

/-- SRA r (R312). -/
def execSraR (rs : Reg8) (s : State) : Result :=
  let s := s.fetched 2
  (s.rotReg rs (sra8 (s.reg8 rs))).complete 8

/-- SRA (HL) (R312). -/
def execSraHl (s : State) : Result :=
  let s := s.fetched 2
  (s.rotHl (sra8 s.atHl)).complete 16

/-- SWAP r (R313). -/
def execSwapR (rs : Reg8) (s : State) : Result :=
  let s := s.fetched 2
  (s.rotReg rs (swap8 (s.reg8 rs))).complete 8

/-- SWAP (HL) (R313). -/
def execSwapHl (s : State) : Result :=
  let s := s.fetched 2
  (s.rotHl (swap8 s.atHl)).complete 16

/-- SRL r (R314). -/
def execSrlR (rs : Reg8) (s : State) : Result :=
  let s := s.fetched 2
  (s.rotReg rs (srl8 (s.reg8 rs))).complete 8

/-- SRL (HL) (R314). -/
def execSrlHl (s : State) : Result :=
  let s := s.fetched 2
  (s.rotHl (srl8 s.atHl)).complete 16

/-- BIT b,r (R315). -/
def execBitBR (b : Nat) (rs : Reg8) (s : State) : Result :=
  let s := s.fetched 2
  (s.bitFlags b (s.reg8 rs)).complete 8

/-- BIT b,(HL) (R316). -/
def execBitBHl (b : Nat) (s : State) : Result :=
  let s := s.fetched 2
  (s.bitFlags b s.atHl).complete 12

/-- RES b,r (R317). -/
def execResBR (b : Nat) (rs : Reg8) (s : State) : Result :=
  let s := s.fetched 2
  (s.setReg8 rs (resBit b (s.reg8 rs))).complete 8

/-- RES b,(HL) (R318). -/
def execResBHl (b : Nat) (s : State) : Result :=
  let s := s.fetched 2
  (s.setAtHl (resBit b s.atHl)).complete 16

/-- SET b,r (R319). -/
def execSetBR (b : Nat) (rs : Reg8) (s : State) : Result :=
  let s := s.fetched 2
  (s.setReg8 rs (setBit b (s.reg8 rs))).complete 8

/-- SET b,(HL) (R320). -/
def execSetBHl (b : Nat) (s : State) : Result :=
  let s := s.fetched 2
  (s.setAtHl (setBit b s.atHl)).complete 16

end Sys2Proof.Machine
end

