-- ==== Sys2Proof/Machine/System.lean ====
section
/-! DEFINITION. System and control instructions (46_system R380 to R385). A meaning runs from the address of the
opcode: it fetches past its bytes, has its effect and charges its ticks. -/

namespace Sys2Proof.Machine

/-- NOP (R380). -/
def execNop (s : State) : Result :=
  let s := s.fetched 1
  s.complete 4

/-- HALT (R381): with `ime` = 0 and a request present the spec
gives the step one effect, the record of `HaltBugUnmodelled` (60_exceptions R403), and the next step is refused. -/
def execHalt (s : State) : Result :=
  if !s.ime && s.irq.isSome then
    .next (s.raise (.haltBugUnmodelled s.pc))
  else
    ({ s.fetched 1 with halt := true }).complete 4

/-- STOP (R382): the ignored byte is fetched when STOP_LENGTH is 2. -/
def execStop (s : State) : Result :=
  let s := s.fetched s.cfg.stopLength.bytes
  ({ s with stop := true }).complete 4

/-- DI (R383). -/
def execDi (s : State) : Result :=
  let s := s.fetched 1
  ({ s with ime := false }).complete 4

/-- EI (R384). -/
def execEi (s : State) : Result :=
  let s := s.fetched 1
  let delayed := decide (s.cfg.eiDelay = .one) && !s.ime
  ({ s with ime := true, eiDelay := delayed || s.eiDelay }).complete 4

/-- The invalid slot 0xD3 (R385). -/
def execInvalidD3 (s : State) : Result :=
  .next (s.raise (.invalidOpcode s.pc 0xD3))

/-- The invalid slot 0xDB (R385). -/
def execInvalidDB (s : State) : Result :=
  .next (s.raise (.invalidOpcode s.pc 0xDB))

/-- The invalid slot 0xDD (R385). -/
def execInvalidDD (s : State) : Result :=
  .next (s.raise (.invalidOpcode s.pc 0xDD))

/-- The invalid slot 0xE3 (R385). -/
def execInvalidE3 (s : State) : Result :=
  .next (s.raise (.invalidOpcode s.pc 0xE3))

/-- The invalid slot 0xE4 (R385). -/
def execInvalidE4 (s : State) : Result :=
  .next (s.raise (.invalidOpcode s.pc 0xE4))

/-- The invalid slot 0xEB (R385). -/
def execInvalidEB (s : State) : Result :=
  .next (s.raise (.invalidOpcode s.pc 0xEB))

/-- The invalid slot 0xEC (R385). -/
def execInvalidEC (s : State) : Result :=
  .next (s.raise (.invalidOpcode s.pc 0xEC))

/-- The invalid slot 0xED (R385). -/
def execInvalidED (s : State) : Result :=
  .next (s.raise (.invalidOpcode s.pc 0xED))

/-- The invalid slot 0xF4 (R385). -/
def execInvalidF4 (s : State) : Result :=
  .next (s.raise (.invalidOpcode s.pc 0xF4))

/-- The invalid slot 0xFC (R385). -/
def execInvalidFC (s : State) : Result :=
  .next (s.raise (.invalidOpcode s.pc 0xFC))

/-- The invalid slot 0xFD (R385). -/
def execInvalidFD (s : State) : Result :=
  .next (s.raise (.invalidOpcode s.pc 0xFD))

end Sys2Proof.Machine
end

