-- ==== Sys2Proof/Machine/Extended.lean ====
section
/-! DEFINITION. The prefix row: `ExecuteExtended()` (40_engine R148). The byte after the prefix is fetched and
its extended row runs in the same step, charging a total that includes the prefix byte. The eight rotate rows
and the three bit rows are called here by field, as the second of the two dispatch tables (R151). -/

namespace Sys2Proof.Machine

/-- The rotate, shift or swap row `rot[y]` on a register (30_encoding R104). -/
def execRotReg (y : Nat) (rs : Reg8) (s : State) : Result :=
  match y with
  | 0 => execRlcR rs s
  | 1 => execRrcR rs s
  | 2 => execRlR rs s
  | 3 => execRrR rs s
  | 4 => execSlaR rs s
  | 5 => execSraR rs s
  | 6 => execSwapR rs s
  | _ => execSrlR rs s

/-- The rotate, shift or swap row `rot[y]` on the byte at HL (30_encoding R104). -/
def execRotHl (y : Nat) (s : State) : Result :=
  match y with
  | 0 => execRlcHl s
  | 1 => execRrcHl s
  | 2 => execRlHl s
  | 3 => execRrHl s
  | 4 => execSlaHl s
  | 5 => execSraHl s
  | 6 => execSwapHl s
  | _ => execSrlHl s

/-- The extended row of the byte `op` (30_encoding R104, R111). -/
def execExtended (op : Byte) (s : State) : Result :=
  match bits op 7 6, r8 (bits op 2 0) with
  | 0, some rs => execRotReg (bits op 5 3) rs s
  | 0, none => execRotHl (bits op 5 3) s
  | 1, some rs => execBitBR (bits op 5 3) rs s
  | 1, none => execBitBHl (bits op 5 3) s
  | 2, some rs => execResBR (bits op 5 3) rs s
  | 2, none => execResBHl (bits op 5 3) s
  | _, some rs => execSetBR (bits op 5 3) rs s
  | _, none => execSetBHl (bits op 5 3) s

/-- PREFIX CB (R148): the byte after the prefix selects the extended row. -/
def execPrefixCb (s : State) : Result := execExtended (s.readByte (s.pc + 1)) s

end Sys2Proof.Machine
end

