-- ==== Sys2Proof/Machine/Dispatch.lean ====
section
/-! DEFINITION. One arm per instruction, each one call of its meaning. -/

namespace Sys2Proof.Machine

/-- Execute one instruction whose opcode byte stands at PC (40_engine R147). -/
def exec (i : Instr) (s : State) : Host.Outcome State Fault Refusal :=
  match i with
  | .nop => Sys2Proof.Machine.execNop s
  | .ldRrNn p nn => Sys2Proof.Machine.execLdRrNn p nn s
  | .ldBcA => Sys2Proof.Machine.execLdBcA s
  | .ldDeA => Sys2Proof.Machine.execLdDeA s
  | .ldHliA => Sys2Proof.Machine.execLdHliA s
  | .ldHldA => Sys2Proof.Machine.execLdHldA s
  | .incRr p => Sys2Proof.Machine.execIncRr p s
  | .incR rd => Sys2Proof.Machine.execIncR rd s
  | .incHl => Sys2Proof.Machine.execIncHl s
  | .decR rd => Sys2Proof.Machine.execDecR rd s
  | .decHl => Sys2Proof.Machine.execDecHl s
  | .ldRN rd n => Sys2Proof.Machine.execLdRN rd n s
  | .ldHlN n => Sys2Proof.Machine.execLdHlN n s
  | .rlca => Sys2Proof.Machine.execRlca s
  | .rrca => Sys2Proof.Machine.execRrca s
  | .rla => Sys2Proof.Machine.execRla s
  | .rra => Sys2Proof.Machine.execRra s
  | .ldNnSp nn => Sys2Proof.Machine.execLdNnSp nn s
  | .addHlRr p => Sys2Proof.Machine.execAddHlRr p s
  | .ldABc => Sys2Proof.Machine.execLdABc s
  | .ldADe => Sys2Proof.Machine.execLdADe s
  | .ldAHli => Sys2Proof.Machine.execLdAHli s
  | .ldAHld => Sys2Proof.Machine.execLdAHld s
  | .decRr p => Sys2Proof.Machine.execDecRr p s
  | .stop => Sys2Proof.Machine.execStop s
  | .jrE e => Sys2Proof.Machine.execJrE e s
  | .jrCcE cc e => Sys2Proof.Machine.execJrCcE cc e s
  | .daa => Sys2Proof.Machine.execDaa s
  | .cpl => Sys2Proof.Machine.execCpl s
  | .scf => Sys2Proof.Machine.execScf s
  | .ccf => Sys2Proof.Machine.execCcf s
  | .ldRR rd rs => Sys2Proof.Machine.execLdRR rd rs s
  | .ldRHl rd => Sys2Proof.Machine.execLdRHl rd s
  | .ldHlR rs => Sys2Proof.Machine.execLdHlR rs s
  | .halt => Sys2Proof.Machine.execHalt s
  | .addAR rs => Sys2Proof.Machine.execAddAR rs s
  | .addAHl => Sys2Proof.Machine.execAddAHl s
  | .addAN n => Sys2Proof.Machine.execAddAN n s
  | .adcAR rs => Sys2Proof.Machine.execAdcAR rs s
  | .adcAHl => Sys2Proof.Machine.execAdcAHl s
  | .adcAN n => Sys2Proof.Machine.execAdcAN n s
  | .subAR rs => Sys2Proof.Machine.execSubAR rs s
  | .subAHl => Sys2Proof.Machine.execSubAHl s
  | .subAN n => Sys2Proof.Machine.execSubAN n s
  | .sbcAR rs => Sys2Proof.Machine.execSbcAR rs s
  | .sbcAHl => Sys2Proof.Machine.execSbcAHl s
  | .sbcAN n => Sys2Proof.Machine.execSbcAN n s
  | .andAR rs => Sys2Proof.Machine.execAndAR rs s
  | .andAHl => Sys2Proof.Machine.execAndAHl s
  | .andAN n => Sys2Proof.Machine.execAndAN n s
  | .xorAR rs => Sys2Proof.Machine.execXorAR rs s
  | .xorAHl => Sys2Proof.Machine.execXorAHl s
  | .xorAN n => Sys2Proof.Machine.execXorAN n s
  | .orAR rs => Sys2Proof.Machine.execOrAR rs s
  | .orAHl => Sys2Proof.Machine.execOrAHl s
  | .orAN n => Sys2Proof.Machine.execOrAN n s
  | .cpAR rs => Sys2Proof.Machine.execCpAR rs s
  | .cpAHl => Sys2Proof.Machine.execCpAHl s
  | .cpAN n => Sys2Proof.Machine.execCpAN n s
  | .retCc cc => Sys2Proof.Machine.execRetCc cc s
  | .popQq q => Sys2Proof.Machine.execPopQq q s
  | .jpCcNn cc nn => Sys2Proof.Machine.execJpCcNn cc nn s
  | .jpNn nn => Sys2Proof.Machine.execJpNn nn s
  | .callCcNn cc nn => Sys2Proof.Machine.execCallCcNn cc nn s
  | .pushQq q => Sys2Proof.Machine.execPushQq q s
  | .rstT t => Sys2Proof.Machine.execRstT t s
  | .ret => Sys2Proof.Machine.execRet s
  | .reti => Sys2Proof.Machine.execReti s
  | .prefixCb => Sys2Proof.Machine.execPrefixCb s
  | .callNn nn => Sys2Proof.Machine.execCallNn nn s
  | .ldhNA n => Sys2Proof.Machine.execLdhNA n s
  | .ldhAN n => Sys2Proof.Machine.execLdhAN n s
  | .ldhCA => Sys2Proof.Machine.execLdhCA s
  | .ldhAC => Sys2Proof.Machine.execLdhAC s
  | .addSpE e => Sys2Proof.Machine.execAddSpE e s
  | .jpHl => Sys2Proof.Machine.execJpHl s
  | .ldNnA nn => Sys2Proof.Machine.execLdNnA nn s
  | .ldANn nn => Sys2Proof.Machine.execLdANn nn s
  | .di => Sys2Proof.Machine.execDi s
  | .ei => Sys2Proof.Machine.execEi s
  | .ldHlSpE e => Sys2Proof.Machine.execLdHlSpE e s
  | .ldSpHl => Sys2Proof.Machine.execLdSpHl s
  | .invalidD3 => Sys2Proof.Machine.execInvalidD3 s
  | .invalidDB => Sys2Proof.Machine.execInvalidDB s
  | .invalidDD => Sys2Proof.Machine.execInvalidDD s
  | .invalidE3 => Sys2Proof.Machine.execInvalidE3 s
  | .invalidE4 => Sys2Proof.Machine.execInvalidE4 s
  | .invalidEB => Sys2Proof.Machine.execInvalidEB s
  | .invalidEC => Sys2Proof.Machine.execInvalidEC s
  | .invalidED => Sys2Proof.Machine.execInvalidED s
  | .invalidF4 => Sys2Proof.Machine.execInvalidF4 s
  | .invalidFC => Sys2Proof.Machine.execInvalidFC s
  | .invalidFD => Sys2Proof.Machine.execInvalidFD s
  | .rlcR rs => Sys2Proof.Machine.execRlcR rs s
  | .rlcHl => Sys2Proof.Machine.execRlcHl s
  | .rrcR rs => Sys2Proof.Machine.execRrcR rs s
  | .rrcHl => Sys2Proof.Machine.execRrcHl s
  | .rlR rs => Sys2Proof.Machine.execRlR rs s
  | .rlHl => Sys2Proof.Machine.execRlHl s
  | .rrR rs => Sys2Proof.Machine.execRrR rs s
  | .rrHl => Sys2Proof.Machine.execRrHl s
  | .slaR rs => Sys2Proof.Machine.execSlaR rs s
  | .slaHl => Sys2Proof.Machine.execSlaHl s
  | .sraR rs => Sys2Proof.Machine.execSraR rs s
  | .sraHl => Sys2Proof.Machine.execSraHl s
  | .swapR rs => Sys2Proof.Machine.execSwapR rs s
  | .swapHl => Sys2Proof.Machine.execSwapHl s
  | .srlR rs => Sys2Proof.Machine.execSrlR rs s
  | .srlHl => Sys2Proof.Machine.execSrlHl s
  | .bitBR b rs => Sys2Proof.Machine.execBitBR b rs s
  | .bitBHl b => Sys2Proof.Machine.execBitBHl b s
  | .resBR b rs => Sys2Proof.Machine.execResBR b rs s
  | .resBHl b => Sys2Proof.Machine.execResBHl b s
  | .setBR b rs => Sys2Proof.Machine.execSetBR b rs s
  | .setBHl b => Sys2Proof.Machine.execSetBHl b s

end Sys2Proof.Machine
end

