-- ==== Sys2Proof/Machine/Engine.lean ====
section
/-! DEFINITION. The step of 40_engine R140 in its parts: sampling `irq`, idling, waking, the interrupt check,
the fetch. -/

namespace Sys2Proof.Machine

/-- The run states of the core (10_state R45). -/
inductive RunState where
  | running | halted | stopped | faulted
  deriving DecidableEq, Repr

/-- The run state, the first matching line taking precedence (10_state R45). -/
def State.runState (s : State) : RunState :=
  if s.fault.isSome then .faulted
  else if s.stop then .stopped
  else if s.halt then .halted
  else .running

/-- A step reads the input `irq` once, at its start (R140): the next answer of the environment
(60_exceptions R405). The output `irq_ack` belongs to one step only (60_exceptions R407). -/
def State.sampleIrq (s : State) : State :=
  { s with irq := s.irqPort.answer, irqPort := s.irqPort.later, irqAck := none }

/-- A Stopped or Halted core with no request idles (R142, R143). -/
def State.idles (s : State) : Bool := (s.stop || s.halt) && s.irq.isNone

/-- One idle tick: STOP_IDLE_CYCLES when Stopped, HALT_IDLE_CYCLES when Halted (R142, R143). -/
def State.idleTick (s : State) : State :=
  s.charge (if s.stop then s.cfg.stopIdleCycles else s.cfg.haltIdleCycles)

/-- A request wakes a Stopped or Halted core, at no charge and whatever `ime` is (R144). -/
def State.wake (s : State) : State :=
  if s.stop then { s with stop := false }
  else if s.halt then { s with halt := false }
  else s

/-- The interrupt check (R145): the request that is dispatched, if one is. -/
def State.toDispatch (s : State) : Option IrqNum := if s.ime && !s.eiDelay then s.irq else none

/-- The instruction at PC, its bytes read at addresses that wrap at the top of memory (R147, 10_state R40). -/
def fetchInstr (s : State) : Instr :=
  decodeBytes (s.readByte s.pc) (s.readByte (s.pc + 1)) (s.readByte (s.pc + 2))

/-- What a core whose `fault` is set answers: it has no step (R141), a fault for the chip's own stuck state and
a refusal for the case the spec refuses (60_exceptions R401, R403). -/
def stuck : FaultRecord → Result
  | .invalidOpcode addr byte => .fault (.invalidOpcode addr byte)
  | .haltBugUnmodelled addr => .refused (.haltBugUnmodelled addr)

/-- `Step(irq)` (R140), `run` executing the instruction fetched. -/
def stepWith (run : Instr → State → Result) (s : State) : Result :=
  match s.fault with
  | some r => stuck r
  | none =>
    let s1 := s.sampleIrq
    if s1.idles then .next s1.idleTick
    else
      let s2 := s1.wake
      match s2.toDispatch with
      | some k => .next (s2.takeInterrupt k)
      | none => run (fetchInstr s2) s2

end Sys2Proof.Machine
end

