-- ==== Sys2Proof/Machine/Step.lean ====
section
/-! DEFINITION. The step of the machine, and placing an instruction where the next step fetches. -/

namespace Sys2Proof.Machine

/-- One step (40_engine R140). -/
def step (s : State) : Host.Outcome State Fault Refusal := stepWith exec s

/-- `s` with an instruction numbered as opcode_table.json numbers it stored at PC, in a core that will execute
it at its next step: Running, with no request at that step (40_engine R140). -/
def State.withFetchWord (s : State) (nbits w : Nat) : State :=
  match tableBytes nbits w with
  | (b0, b1, b2) =>
    let s1 := ((s.writeByte s.pc b0).writeByte (s.pc + 1) b1).writeByte (s.pc + 2) b2
    { s1 with
      halt := false
      stop := false
      fault := none
      irqPort := match s1.irqPort with
        | .never => .never
        | port => .given none port.later }

end Sys2Proof.Machine
end

