-- ==== Sys2Proof/Safety.lean ====
section
/-! DEFINITION. The terms claims are stated in: what every completing instruction does besides its own effect,
the invariants, and for every instruction the registers it writes, the bytes it stores and the ticks its row of
opcode_table.json gives. -/

open Sys2Proof Sys2Proof.Machine

/-- What every completing instruction of `n` bytes and `k` ticks does besides its own effect: PC is past it
(10_state R40), its ticks are charged (40_engine R150) and `ei_delay` is clear (40_engine R146). -/
def Sys2Proof.Machine.State.after (s : State) (n k : Nat) : State :=
  { s with pc := s.pc + BitVec.ofNat 16 n, cycles := s.cycles + k, eiDelay := false }

/-- The row an instruction runs: the prefix runs the extended row of the byte after it (40_engine R148). -/
def Sys2Proof.Instr.row (s : State) : Instr → Instr
  | .prefixCb => decodeExtended (s.readByte (s.pc + 1))
  | i => i

/-- HALT in the case the spec refuses (46_system R381). -/
def Sys2Proof.Machine.State.haltRefused (s : State) : Bool := !s.ime && s.irq.isSome

/-! ## Invariants -/

/-- Bits 3 to 0 of F are 0 (10_state R35). -/
def Sys2Proof.Machine.State.FlagNibbleZero (s : State) : Prop := s.f &&& 0x0F = 0

/-- `halt` and `stop` are never both 1 (10_state R42). -/
def Sys2Proof.Machine.State.PowerExclusive (s : State) : Prop := ¬(s.halt = true ∧ s.stop = true)

/-- `ei_delay` is 1 only while `ime` is (10_state R43, 46_system R384). -/
def Sys2Proof.Machine.State.DelayWithinIme (s : State) : Prop := s.eiDelay = true → s.ime = true

/-- Memory is in its canonical form (log entry 2). -/
def Sys2Proof.Machine.State.MemCanonical (s : State) : Prop := s.mem.wf = true

/-- A core that will run an instruction or take an interrupt at its next step, not idle and not be stuck. -/
def Sys2Proof.Machine.State.Running (s : State) : Prop := s.fault = none ∧ s.halt = false ∧ s.stop = false

/-- No interrupt is dispatched at the next boundary (40_engine R145). -/
def Sys2Proof.Machine.State.NoDispatch (s : State) : Prop :=
  s.ime = false ∨ s.eiDelay = true ∨ s.irqPort.answer = none

/-- The environment's answers after `k` more steps (60_exceptions R405). -/
def Sys2Proof.Machine.IrqPort.afterSteps (p : IrqPort) : Nat → IrqPort
  | 0 => p
  | k + 1 => p.later.afterSteps k

/-! ## What an instruction writes -/

/-- The registers of a pair view (10_state R32). -/
def Sys2Proof.Pair.regs : Pair → List Reg8
  | .bc => [.b, .c]
  | .de => [.d, .e]
  | .hl => [.h, .l]
  | .sp => []

/-- The registers of a stack pair view, F apart (10_state R32). -/
def Sys2Proof.StackPair.regs : StackPair → List Reg8
  | .bc => [.b, .c]
  | .de => [.d, .e]
  | .hl => [.h, .l]
  | .af => [.a]

/-- The 8-bit registers an instruction may write, F apart (10_state R34 and the instruction rules). -/
def Sys2Proof.Instr.dests : Instr → List Reg8
  | .ldRR rd _ | .ldRN rd _ | .ldRHl rd | .incR rd | .decR rd => [rd]
  | .ldABc | .ldADe | .ldANn _ | .ldhAC | .ldhAN _ => [.a]
  | .ldAHli | .ldAHld => [.a, .h, .l]
  | .ldHliA | .ldHldA => [.h, .l]
  | .ldRrNn p _ | .incRr p | .decRr p => p.regs
  | .addAR _ | .addAHl | .addAN _ | .adcAR _ | .adcAHl | .adcAN _ => [.a]
  | .subAR _ | .subAHl | .subAN _ | .sbcAR _ | .sbcAHl | .sbcAN _ => [.a]
  | .andAR _ | .andAHl | .andAN _ | .xorAR _ | .xorAHl | .xorAN _ => [.a]
  | .orAR _ | .orAHl | .orAN _ | .daa | .cpl | .rlca | .rrca | .rla | .rra => [.a]
  | .addHlRr _ | .ldHlSpE _ => [.h, .l]
  | .popQq q => q.regs
  | .rlcR rs | .rrcR rs | .rlR rs | .rrR rs | .slaR rs | .sraR rs | .swapR rs | .srlR rs => [rs]
  | .resBR _ rs | .setBR _ rs => [rs]
  | _ => []

/-- The instructions that leave F as it is (10_state R37, first row). -/
def Sys2Proof.Instr.keepsFlags : Instr → Bool
  | .nop | .halt | .stop | .di | .ei | .ldRR _ _ | .ldRN _ _ | .ldRHl _ | .ldHlR _ | .ldHlN _ => true
  | .ldABc | .ldADe | .ldBcA | .ldDeA | .ldANn _ | .ldNnA _ | .ldhAC | .ldhCA | .ldhAN _ | .ldhNA _ => true
  | .ldAHli | .ldAHld | .ldHliA | .ldHldA | .ldRrNn _ _ | .ldNnSp _ | .ldSpHl | .incRr _ | .decRr _ => true
  | .pushQq _ | .popQq .bc | .popQq .de | .popQq .hl => true
  | .jpNn _ | .jpCcNn _ _ | .jpHl | .jrE _ | .jrCcE _ _ => true
  | .callNn _ | .callCcNn _ _ | .ret | .retCc _ | .reti | .rstT _ => true
  | .resBR _ _ | .resBHl _ | .setBR _ _ | .setBHl _ => true
  | _ => false

/-- The instructions that write SP (10_state R39). -/
def Sys2Proof.Instr.writesSp : Instr → Bool
  | .ldRrNn .sp _ | .ldSpHl | .addSpE _ | .incRr .sp | .decRr .sp | .pushQq _ | .popQq _ => true
  | .callNn _ | .callCcNn _ _ | .ret | .retCc _ | .reti | .rstT _ => true
  | _ => false

/-- The control transfers, which overwrite PC (45_control R345 to R355). -/
def Sys2Proof.Instr.transfers : Instr → Bool
  | .jpNn _ | .jpCcNn _ _ | .jpHl | .jrE _ | .jrCcE _ _ => true
  | .callNn _ | .callCcNn _ _ | .ret | .retCc _ | .reti | .rstT _ => true
  | _ => false

/-- The bytes a push of `v` stores: the high byte at SP - 1, the low byte at SP - 2 (45_control R340). -/
def Sys2Proof.Machine.State.pushed (s : State) (v : Word) : List (Word × Byte) :=
  [(s.sp - 1, hiByte v), (s.sp - 2, loByte v)]

/-- The bytes an instruction stores, with their addresses, from the state it starts in (20_memory R72). -/
def Sys2Proof.Instr.stores (s : State) : Instr → List (Word × Byte)
  | .ldHlR rs => [(s.hl, s.reg8 rs)]
  | .ldHlN n => [(s.hl, n)]
  | .ldBcA => [(s.bc, s.a)]
  | .ldDeA => [(s.de, s.a)]
  | .ldNnA nn => [(nn, s.a)]
  | .ldhCA => [(highRam s.c, s.a)]
  | .ldhNA n => [(highRam n, s.a)]
  | .ldHliA | .ldHldA => [(s.hl, s.a)]
  | .ldNnSp nn => [(nn, loByte s.sp), (nn + 1, hiByte s.sp)]
  | .incHl => [(s.hl, s.readByte s.hl + 1)]
  | .decHl => [(s.hl, s.readByte s.hl - 1)]
  | .rlcHl => [(s.hl, (rlc8 (s.readByte s.hl)).r)]
  | .rrcHl => [(s.hl, (rrc8 (s.readByte s.hl)).r)]
  | .rlHl => [(s.hl, (rl8 (s.readByte s.hl) s.flagC).r)]
  | .rrHl => [(s.hl, (rr8 (s.readByte s.hl) s.flagC).r)]
  | .slaHl => [(s.hl, (sla8 (s.readByte s.hl)).r)]
  | .sraHl => [(s.hl, (sra8 (s.readByte s.hl)).r)]
  | .swapHl => [(s.hl, (swap8 (s.readByte s.hl)).r)]
  | .srlHl => [(s.hl, (srl8 (s.readByte s.hl)).r)]
  | .resBHl b => [(s.hl, resBit b (s.readByte s.hl))]
  | .setBHl b => [(s.hl, setBit b (s.readByte s.hl))]
  | .pushQq q => s.pushed (s.stackPair q)
  | .callNn _ => s.pushed (s.pc + 3)
  | .callCcNn cc _ => if s.cond cc then s.pushed (s.pc + 3) else []
  | .rstT _ => s.pushed (s.pc + 1)
  | _ => []

/-- Whether a conditional row takes its condition; every other row counts as taken. -/
def Sys2Proof.Instr.taken (s : State) : Instr → Bool
  | .jpCcNn cc _ | .jrCcE cc _ | .callCcNn cc _ | .retCc cc => s.cond cc
  | _ => true

/-- The `cycles` column of opcode_table.json, row by row: the taken or the not-taken count of a conditional
row (40_engine R150). An invalid row has none. -/
def Sys2Proof.Instr.tableCycles (taken : Bool) : Instr → Nat
  | .nop => 4
  | .ldRrNn _ _ => 12
  | .ldBcA => 8
  | .ldDeA => 8
  | .ldHliA => 8
  | .ldHldA => 8
  | .incRr _ => 8
  | .incR _ => 4
  | .incHl => 12
  | .decR _ => 4
  | .decHl => 12
  | .ldRN _ _ => 8
  | .ldHlN _ => 12
  | .rlca => 4
  | .rrca => 4
  | .rla => 4
  | .rra => 4
  | .ldNnSp _ => 20
  | .addHlRr _ => 8
  | .ldABc => 8
  | .ldADe => 8
  | .ldAHli => 8
  | .ldAHld => 8
  | .decRr _ => 8
  | .stop => 4
  | .jrE _ => 12
  | .jrCcE _ _ => bif taken then 12 else 8
  | .daa => 4
  | .cpl => 4
  | .scf => 4
  | .ccf => 4
  | .ldRR _ _ => 4
  | .ldRHl _ => 8
  | .ldHlR _ => 8
  | .halt => 4
  | .addAR _ => 4
  | .addAHl => 8
  | .addAN _ => 8
  | .adcAR _ => 4
  | .adcAHl => 8
  | .adcAN _ => 8
  | .subAR _ => 4
  | .subAHl => 8
  | .subAN _ => 8
  | .sbcAR _ => 4
  | .sbcAHl => 8
  | .sbcAN _ => 8
  | .andAR _ => 4
  | .andAHl => 8
  | .andAN _ => 8
  | .xorAR _ => 4
  | .xorAHl => 8
  | .xorAN _ => 8
  | .orAR _ => 4
  | .orAHl => 8
  | .orAN _ => 8
  | .cpAR _ => 4
  | .cpAHl => 8
  | .cpAN _ => 8
  | .retCc _ => bif taken then 20 else 8
  | .popQq _ => 12
  | .jpCcNn _ _ => bif taken then 16 else 12
  | .jpNn _ => 16
  | .callCcNn _ _ => bif taken then 24 else 12
  | .pushQq _ => 16
  | .rstT _ => 16
  | .ret => 16
  | .reti => 16
  | .prefixCb => 0
  | .callNn _ => 24
  | .ldhNA _ => 12
  | .ldhAN _ => 12
  | .ldhCA => 8
  | .ldhAC => 8
  | .addSpE _ => 16
  | .jpHl => 4
  | .ldNnA _ => 16
  | .ldANn _ => 16
  | .di => 4
  | .ei => 4
  | .ldHlSpE _ => 12
  | .ldSpHl => 8
  | .invalidD3 => 0
  | .invalidDB => 0
  | .invalidDD => 0
  | .invalidE3 => 0
  | .invalidE4 => 0
  | .invalidEB => 0
  | .invalidEC => 0
  | .invalidED => 0
  | .invalidF4 => 0
  | .invalidFC => 0
  | .invalidFD => 0
  | .rlcR _ => 8
  | .rlcHl => 16
  | .rrcR _ => 8
  | .rrcHl => 16
  | .rlR _ => 8
  | .rlHl => 16
  | .rrR _ => 8
  | .rrHl => 16
  | .slaR _ => 8
  | .slaHl => 16
  | .sraR _ => 8
  | .sraHl => 16
  | .swapR _ => 8
  | .swapHl => 16
  | .srlR _ => 8
  | .srlHl => 16
  | .bitBR _ _ => 8
  | .bitBHl _ => 12
  | .resBR _ _ => 8
  | .resBHl _ => 16
  | .setBR _ _ => 8
  | .setBHl _ => 16

/-! ## Packed decimal -/

/-- A byte of two decimal digits (00_scope R18, DAA). -/
def Sys2Proof.Machine.isBcd (v : Byte) : Prop := v.toNat % 16 < 10 ∧ v.toNat / 16 < 10

/-- The number a packed-BCD byte denotes. -/
def Sys2Proof.Machine.bcdValue (v : Byte) : Nat := v.toNat / 16 * 10 + v.toNat % 16

/-- The packed-BCD byte of a number below 100. -/
def Sys2Proof.Machine.bcdByte (x : Nat) : Byte := BitVec.ofNat 8 (x / 10 * 16 + x % 10)
end

