-- ==== Sys2Proof/Certificates/Slice0/Obligations.lean ====
section
/-! DEFINITION. The statements, each about every state and every operand unless it says otherwise: a state
carries its memory image, its configuration and its environment's answers on `irq`, endless ones among them, so each
holds for all of them.
`decodeBytes b0 b1 b2` is the instruction a step runs when those bytes stand at PC; in an encoding clause the
bytes an instruction does not have are arbitrary. -/

open Sys2Proof Sys2Proof.Machine

/-! ## Encoding -/

/-- Decoding the encoding of a well-formed instruction gives it back, whatever bytes follow. The prefix row is
apart: it binds the byte after it (30_encoding R114). -/
def Obligations.DecodeOfEncodeIsTheInstruction : Prop :=
  ∀ (c : Config) (i : Instr) (rest : List Byte),
    i.wellFormed = true → i ≠ .prefixCb → decode c (encode c i ++ rest) = .ok (i, rest)

/-- What decodes is well formed, and the bytes consumed are its length and, STOP's ignored byte apart, exactly
its encoding: every encoding has one meaning (30_encoding R113). -/
def Obligations.DecodeConsumesExactlyTheEncoding : Prop :=
  ∀ (c : Config) (bs : List Byte) (i : Instr) (rest : List Byte),
    decode c bs = .ok (i, rest) →
      i.wellFormed = true ∧
        ∃ used : List Byte, bs = used ++ rest ∧ used.length = i.length c ∧ (i ≠ .stop → used = encode c i)

/-- Three bytes always hold an instruction, the one the step runs, and its length by the first byte or the
prefix is what is consumed (30_encoding R100, R103). -/
def Obligations.ThreeBytesAlwaysDecode : Prop :=
  ∀ (c : Config) (b0 b1 b2 : Byte),
    decode c [b0, b1, b2] = .ok (decodeBytes b0 b1 b2, [b0, b1, b2].drop ((decodeBytes b0 b1 b2).length c))

/-- A primary byte is an invalid slot exactly if it is one of the eleven of R112; executing it sets `fault` to
the offending address and byte and nothing else; no extended byte is invalid. -/
def Obligations.InvalidSlotsAreTheEleven : Prop :=
  (∀ op b1 b2 : Byte, (decodePrimary op b1 b2).invalidByte =
      if op ∈ [0xD3#8, 0xDB, 0xDD, 0xE3, 0xE4, 0xEB, 0xEC, 0xED, 0xF4, 0xFC, 0xFD] then some op else none) ∧
    (∀ op b1 b2 : Byte, op ∈ [0xD3#8, 0xDB, 0xDD, 0xE3, 0xE4, 0xEB, 0xEC, 0xED, 0xF4, 0xFC, 0xFD] →
      ∀ s : State, exec (decodeBytes op b1 b2) s = .next { s with fault := some (.invalidOpcode s.pc op) }) ∧
    ∀ op : Byte, (decodeExtended op).invalidByte = none

/-- The prefix and the byte after it are one instruction: the prefix row runs the extended row of the byte
after it, and the two bytes decode to that row (R148; the step boundary is the spec's decision D18). -/
def Obligations.PrefixRunsTheExtendedRow : Prop :=
  (∀ s : State, exec .prefixCb s = exec (decodeExtended (s.readByte (s.pc + 1))) s) ∧
    (∀ op b2 : Byte, decodeBytes 0xCB op b2 = decodeExtended op) ∧
    ∀ op b1 b2 : Byte, decodePrimary op b1 b2 = .prefixCb ↔ op = 0xCB

/-- A few words written out from the encoding tables decode to the instructions they stand for. -/
def Obligations.SampleWordsDecode : Prop :=
  decode Config.default [0x01, 0x34, 0x12] = .ok (.ldRrNn .bc 0x1234, []) ∧
    decode Config.default [0x76, 0x3C] = .ok (.halt, [0x3C]) ∧
    decode Config.default [0x9C] = .ok (.sbcAR .h, []) ∧
    decode Config.default [0x38, 0x02] = .ok (.jrCcE .c 0x02, []) ∧
    decode Config.default [0xF8, 0xFF] = .ok (.ldHlSpE 0xFF, []) ∧
    decode Config.default [0xCB, 0x7E] = .ok (.bitBHl 7, []) ∧
    decode Config.default [0xCB, 0x28] = .ok (.sraR .b, []) ∧
    decode Config.default [0x10, 0xD3, 0x00] = .ok (.stop, [0x00]) ∧
    decode Config.default [0xEF] = .ok (.rstT 5, []) ∧
    decode Config.default [0xF1] = .ok (.popQq .af, [])

/-! ## The step -/

/-- A Running core with no interrupt to dispatch executes the instruction its bytes at PC decode to. What the
step adds around `exec` is the sampling of `irq` and the clearing of the `irq_ack` output (40_engine R140, R147;
the ports are the model's fields, log entry 3). -/
def Obligations.StepExecutesTheDecodedInstruction : Prop :=
  ∀ (s : State) (i : Instr) (rest : List Byte), s.Running → s.NoDispatch →
    decode s.cfg [s.readByte s.pc, s.readByte (s.pc + 1), s.readByte (s.pc + 2)] = .ok (i, rest) →
      step s = exec i { s with irq := s.irqPort.answer, irqPort := s.irqPort.later, irqAck := none }

/-- A step takes exactly one answer of the environment; the default never asserts a request, the arbitrary
environment gives its free sequence and a pattern repeats for ever, so each of the three answers without end (60_exceptions
R405: the spec's decision D5; the ports are the model's fields, log entry 3). Nothing is assumed of the free value. -/
def Obligations.EveryStepTakesOneAnswer : Prop :=
  (∀ s t : State, step s = .next t → t.irq = s.irqPort.answer ∧ t.irqPort = s.irqPort.later) ∧
    ∀ (n k : Nat) (pattern : List (Option IrqNum)) (a : Option IrqNum) (p : IrqPort),
      (IrqPort.never.afterSteps k).answer = none ∧
      ((IrqPort.oracle n).afterSteps k).answer = Config.irqOracle (n + k) ∧
      ((IrqPort.cycle pattern).afterSteps k).answer = pattern.getD (k % pattern.length) none ∧
      (IrqPort.given a p).answer = a ∧ (IrqPort.given a p).afterSteps (k + 1) = p.afterSteps k

/-- A Stopped or Halted core with no request adds its idle charge and changes nothing else (40_engine R142,
R143: the spec's decision D8; the ports are the model's fields, log entry 3). -/
def Obligations.IdleStepOnlyCharges : Prop :=
  (∀ s : State, s.fault = none → s.irqPort.answer = none →
    (s.stop = true →
      step s = .next { s with cycles := s.cycles + s.cfg.stopIdleCycles, irq := none,
                              irqPort := s.irqPort.later, irqAck := none }) ∧
    (s.stop = false → s.halt = true →
      step s = .next { s with cycles := s.cycles + s.cfg.haltIdleCycles, irq := none,
                              irqPort := s.irqPort.later, irqAck := none })) ∧
    Config.default.stopIdleCycles = 0 ∧ Config.default.haltIdleCycles = 4

/-- A request wakes a Halted or Stopped core at no charge, whatever `ime` is: with `ime` = 0 or `ei_delay` = 1
the same step executes the instruction at PC, otherwise it dispatches (40_engine R144: the spec's decisions D11
and D29). The premise PowerExclusive is StepKeepsHaltAndStopExclusive's invariant. -/
def Obligations.RequestWakesHaltedAndStopped : Prop :=
  ∀ (s : State) (k : IrqNum), s.fault = none → s.PowerExclusive → (s.halt = true ∨ s.stop = true) →
    s.irqPort.answer = some k →
      let awake := { s with irq := some k, irqPort := s.irqPort.later, irqAck := none, halt := false, stop := false }
      ((s.ime = false ∨ s.eiDelay = true) → step s = exec (fetchInstr awake) awake) ∧
      (s.ime = true → s.eiDelay = false → step s = .next (awake.takeInterrupt k))

/-- A dispatch clears `ime`, pushes PC high byte first, goes to 0x0040 + 8 k, acknowledges the request and
charges 20 ticks, whatever instruction stands at PC, an invalid one included; nothing else changes, but that a
Halted or Stopped core is awake (60_exceptions R407, R409, R410: the spec's decisions D5, D22 and D27). -/
def Obligations.DispatchEntersTheVector : Prop :=
  ∀ (s : State) (k : IrqNum), s.fault = none → s.PowerExclusive → s.ime = true → s.eiDelay = false →
    s.irqPort.answer = some k →
      step s = .next
        { (s.writeByte (s.sp - 1) (hiByte s.pc)).writeByte (s.sp - 2) (loByte s.pc) with
          ime := false, halt := false, stop := false, sp := s.sp - 2
          pc := BitVec.ofNat 16 (0x0040 + 8 * k.val), cycles := s.cycles + 20
          irq := some k, irqPort := s.irqPort.later, irqAck := some k }

/-- A core whose `fault` is set has no next state: it is stuck as a fault or, for the case the spec refuses, as
a refusal, until reset clears `fault` (40_engine R141, 60_exceptions R401, R403: the spec's decisions D4, D9 and
D28; log entry 4). -/
def Obligations.FaultedCoreIsStuckUntilReset : Prop :=
  ∀ s : State,
    (∀ (addr : Word) (byte : Byte), s.fault = some (.invalidOpcode addr byte) →
      step s = .fault (.invalidOpcode addr byte)) ∧
    (∀ addr : Word, s.fault = some (.haltBugUnmodelled addr) → step s = .refused (.haltBugUnmodelled addr)) ∧
    s.applyReset.fault = none

/-- With EI_DELAY = 1, after an EI that found `ime` = 0 the next step executes an instruction even if a request
is present, and the step after that dispatches one if the instruction left `ime` set and no fault (40_engine
R146, 46_system R384: the spec's decision D6). -/
def Obligations.EiHoldsDispatchBackOneInstruction : Prop :=
  ∀ s : State, s.Running → s.ime = false → s.cfg.eiDelay = .one → fetchInstr s = .ei →
    ∃ t, step s = .next t ∧ t.ime = true ∧ step t = exec (fetchInstr t) t.sampleIrq ∧
      ∀ (u : State) (k : IrqNum), step t = .next u → u.fault = none → u.ime = true →
        u.irqPort.answer = some k →
          ∃ v, step u = .next v ∧ v.irqAck = some k ∧ v.ime = false ∧ v.pc = BitVec.ofNat 16 (0x0040 + 8 * k.val)

/-- RETI right after a dispatch returns to the instruction that would have run, with SP, F and the registers as
they were and `ime` set (60_exceptions R410, R411: the spec's decisions D7 and D27). -/
def Obligations.RetiUndoesADispatch : Prop :=
  ∀ (s : State) (k : IrqNum), s.fault = none → s.PowerExclusive → s.ime = true → s.eiDelay = false →
    s.irqPort.answer = some k →
      ∃ t u, step s = .next t ∧ exec .reti t = .next u ∧
        u.pc = s.pc ∧ u.sp = s.sp ∧ u.ime = true ∧ u.f = s.f ∧ ∀ r : Reg8, u.reg8 r = s.reg8 r

/-- Power-on and the reset operation give every piece of state its value of the table of 10_state R50; the
reset operation keeps memory and `cycles` (70_reset R440, R441: the spec's decisions D1 and D12). -/
def Obligations.PowerOnAndResetValues : Prop :=
  (∀ (c : Config) (image : Memory) (port : IrqPort),
    State.powerOn c image port =
      { a := 0, f := 0, b := 0, c := 0, d := 0, e := 0, h := 0, l := 0, sp := 0xFFFE
        pc := if c.resetPc = .zero then 0x0000 else 0x0100
        ime := false, halt := false, stop := false, eiDelay := false, fault := none, cycles := 0
        mem := image, cfg := c, irqPort := port, irq := none, irqAck := none }) ∧
    ∀ s : State,
      s.applyReset =
        { s with
          a := 0, f := 0, b := 0, c := 0, d := 0, e := 0, h := 0, l := 0, sp := 0xFFFE
          pc := if s.cfg.resetPc = .zero then 0x0000 else 0x0100
          ime := false, halt := false, stop := false, eiDelay := false, fault := none
          irq := none, irqAck := none }

/-! ## Registers -/

/-- A pair reads its high register and then its low; writing it writes v[15:8] and v[7:0] to the two and
nothing else, and reads back; AF is A and F, its low byte through F's own read and write (10_state R32). -/
def Obligations.PairViewsAreTheirRegisters : Prop :=
  ∀ (s : State) (v : Word),
    s.bc.toNat = 256 * s.b.toNat + s.c.toNat ∧ s.de.toNat = 256 * s.d.toNat + s.e.toNat ∧
    s.hl.toNat = 256 * s.h.toNat + s.l.toNat ∧ s.af.toNat = 256 * s.a.toNat + s.readF.toNat ∧
    s.setBc v = { s with b := BitVec.ofNat 8 (v.toNat / 256), c := BitVec.ofNat 8 v.toNat } ∧
    s.setDe v = { s with d := BitVec.ofNat 8 (v.toNat / 256), e := BitVec.ofNat 8 v.toNat } ∧
    s.setHl v = { s with h := BitVec.ofNat 8 (v.toNat / 256), l := BitVec.ofNat 8 v.toNat } ∧
    s.setAf v = { s with a := BitVec.ofNat 8 (v.toNat / 256) }.writeF (BitVec.ofNat 8 v.toNat) ∧
    (s.setBc v).bc = v ∧ (s.setDe v).de = v ∧ (s.setHl v).hl = v

/-- Every write of a whole value to F keeps bits 7 to 4 alone, and every read of F gives bits 3 to 0 as 0, by
the register, by the pair AF and by the host (10_state R35, R49: derived by the spec from its invariant, decision
D31). -/
def Obligations.WholeWritesOfFlagsAreMasked : Prop :=
  ∀ (s : State) (v : Byte) (w : Word),
    s.writeF v = { s with f := v &&& 0xF0 } ∧ s.hostWrite .f v = { s with f := v &&& 0xF0 } ∧
    (s.hostWritePair .af w).f = loByte w &&& 0xF0 ∧ (s.setStackPair .af w).f = loByte w &&& 0xF0 ∧
    s.readF = s.f &&& 0xF0 ∧ s.hostRead .f = s.f &&& 0xF0 ∧ loByte (s.hostReadPair .af) = s.f &&& 0xF0 ∧
    (s.setAf w).af = w &&& 0xFFF0

/-! ## Invariants of every step -/

/-- The low nibble of F is zero after every step, from every state where it is (10_state R35). -/
def Obligations.StepKeepsFlagNibbleZero : Prop :=
  ∀ s t : State, s.FlagNibbleZero → step s = .next t → t.FlagNibbleZero

/-- Memory keeps its canonical form, whatever a step does (the model's own form, log entry 2). -/
def Obligations.StepKeepsMemoryCanonical : Prop :=
  ∀ s t : State, s.MemCanonical → step s = .next t → t.MemCanonical

/-- `halt` and `stop` are never both set (10_state R42: the spec's decision D30). -/
def Obligations.StepKeepsHaltAndStopExclusive : Prop :=
  ∀ s t : State, s.PowerExclusive → step s = .next t → t.PowerExclusive

/-- `ei_delay` is set only while `ime` is (read from 46_system R383, R384 and 40_engine R146 by inference). -/
def Obligations.StepKeepsDelayWithinIme : Prop :=
  ∀ s t : State, s.DelayWithinIme → step s = .next t → t.DelayWithinIme

/-- The four invariants hold at reset, and at power-on for every configuration, canonical image
and environment. -/
def Obligations.InvariantsHoldAtPowerOn : Prop :=
  (State.reset.FlagNibbleZero ∧ State.reset.MemCanonical ∧ State.reset.PowerExclusive ∧
      State.reset.DelayWithinIme) ∧
    ∀ (c : Config) (image : Memory) (port : IrqPort), image.wf = true →
      (State.powerOn c image port).FlagNibbleZero ∧ (State.powerOn c image port).MemCanonical ∧
      (State.powerOn c image port).PowerExclusive ∧ (State.powerOn c image port).DelayWithinIme

/-- `cycles` influences nothing: a core whose counter starts higher takes the same steps with the counter
higher by as much (70_reset R451, 40_engine R150). -/
def Obligations.CyclesInfluenceNothing : Prop :=
  ∀ (s : State) (n : Nat),
    step { s with cycles := s.cycles + n } =
      match step s with
      | .next t => .next { t with cycles := t.cycles + n }
      | .fault r => .fault r
      | .refused r => .refused r

/-! ## Rules over all instructions -/

/-- Every instruction answers a next state from every state: none faults or is refused for its operands, its
addresses, the stack or the mode (60_exceptions R402); an invalid slot records its fault in the state. -/
def Obligations.EveryInstructionAnswersANextState : Prop :=
  (∀ (i : Instr) (s : State), ∃ t, exec i s = .next t) ∧
    ∀ s : State, s.fault = none → ∃ t, step s = .next t

/-- Every instruction charges the count of its row of opcode_table.json, taken or not taken by its condition;
the prefix row charges its extended row's. The invalid rows have no count, and the HALT the spec refuses is
apart (40_engine R150). -/
def Obligations.EveryInstructionChargesItsTableCount : Prop :=
  ∀ (i : Instr) (s : State), (i.row s).invalidByte = none → ¬(i = .halt ∧ s.haltRefused = true) →
    ∃ t, exec i s = .next t ∧ t.cycles = s.cycles + (i.row s).tableCycles (i.taken s)

/-- Only DI, EI and RETI write `ime` among the instructions: DI clears it, the other two set it (10_state R41). -/
def Obligations.OnlyDiEiRetiWriteIme : Prop :=
  (∀ (i : Instr) (s t : State), i ≠ .di → i ≠ .ei → i ≠ .reti → exec i s = .next t → t.ime = s.ime) ∧
    ∀ s : State, (∃ t, exec .di s = .next t ∧ t.ime = false) ∧ (∃ t, exec .ei s = .next t ∧ t.ime = true) ∧
      ∃ t, exec .reti s = .next t ∧ t.ime = true

/-- SP is written by the instructions 10_state R39 lists and by no other instruction: each of those completes with
SP loaded, moved by its operand, or moved by 2 by its push or pop (none where a condition fails), modulo 2^16. -/
def Obligations.OnlyStackInstructionsWriteSp : Prop :=
  (∀ (i : Instr) (s t : State), i.writesSp = false → exec i s = .next t → t.sp = s.sp) ∧
    ∀ (s : State) (nn : Word) (e : Byte) (q : StackPair) (cc : Cond) (n : Nat),
      let leaves := fun (i : Instr) (sp : Word) => ∃ t, exec i s = .next t ∧ t.sp = sp
      leaves (.ldRrNn .sp nn) nn ∧ leaves .ldSpHl s.hl ∧
      leaves (.addSpE e) (BitVec.ofInt 16 ((s.sp.toNat : Int) + e.toInt)) ∧
      leaves (.incRr .sp) (s.sp + 1) ∧ leaves (.decRr .sp) (s.sp - 1) ∧
      leaves (.pushQq q) (s.sp - 2) ∧ leaves (.popQq q) (s.sp + 2) ∧
      leaves (.callNn nn) (s.sp - 2) ∧ leaves (.callCcNn cc nn) (if s.cond cc then s.sp - 2 else s.sp) ∧
      leaves (.rstT n) (s.sp - 2) ∧ leaves .ret (s.sp + 2) ∧
      leaves (.retCc cc) (if s.cond cc then s.sp + 2 else s.sp) ∧ leaves .reti (s.sp + 2)

/-- The instructions of the first row of 10_state R37's table leave F exactly as it was. -/
def Obligations.FlaglessInstructionsKeepF : Prop :=
  ∀ (i : Instr) (s t : State), i.keepsFlags = true → exec i s = .next t → t.f = s.f

/-- An instruction writes no 8-bit register but its destinations, and no port, no configuration (the frame of
every instruction; the prefix row has its extended row's destinations). -/
def Obligations.InstructionsWriteOnlyTheirDestinations : Prop :=
  ∀ (i : Instr) (s t : State), exec i s = .next t →
    (∀ r : Reg8, r ∉ (i.row s).dests → t.reg8 r = s.reg8 r) ∧
    t.cfg = s.cfg ∧ t.irqPort = s.irqPort ∧ t.irq = s.irq ∧ t.irqAck = s.irqAck

/-- After an instruction each byte it stores holds the value stored and every other byte reads as before; an
instruction with no stores changes no byte (20_memory R72, R73; the prefix row has its extended row's stores). -/
def Obligations.InstructionsStoreOnlyTheirBytes : Prop :=
  ∀ (i : Instr) (s t : State), exec i s = .next t →
    (∀ p ∈ (i.row s).stores s, t.readByte p.1 = p.2) ∧
    ∀ addr : Word, addr ∉ ((i.row s).stores s).map Prod.fst → t.readByte addr = s.readByte addr

/-- Every valid instruction that is no control transfer moves PC past its own bytes, modulo 2^16 (10_state R40;
the prefix row past its two). A HALT the spec refuses is apart. -/
def Obligations.SequentialInstructionsAdvancePc : Prop :=
  ∀ (i : Instr) (s : State), i.transfers = false → i.invalidByte = none → ¬(i = .halt ∧ s.haltRefused = true) →
    ∃ t, exec i s = .next t ∧ t.pc = s.pc + BitVec.ofNat 16 ((i.row s).length s.cfg)

/-! ## Loads and stores (41_loads) -/

/-- LD r,r', LD r,n, LD r,(HL), LD (HL),r and LD (HL),n: encodings, effect and ticks, and nothing else changed. -/
def Obligations.RegisterLoads : Prop :=
  (∀ (rd rs : Reg8) (n b1 b2 : Byte),
    decodeBytes (0x40#8 ||| rd.code <<< 3 ||| rs.code) b1 b2 = .ldRR rd rs ∧
    decodeBytes (0x06#8 ||| rd.code <<< 3) n b2 = .ldRN rd n ∧
    decodeBytes (0x46#8 ||| rd.code <<< 3) b1 b2 = .ldRHl rd ∧
    decodeBytes (0x70#8 ||| rs.code) b1 b2 = .ldHlR rs ∧
    decodeBytes 0x36 n b2 = .ldHlN n) ∧
  ∀ (s : State) (rd rs : Reg8) (n : Byte),
    exec (.ldRR rd rs) s = .next ((s.after 1 4).setReg8 rd (s.reg8 rs)) ∧
    exec (.ldRN rd n) s = .next ((s.after 2 8).setReg8 rd n) ∧
    exec (.ldRHl rd) s = .next ((s.after 1 8).setReg8 rd (s.readByte s.hl)) ∧
    exec (.ldHlR rs) s = .next ((s.after 1 8).writeByte s.hl (s.reg8 rs)) ∧
    exec (.ldHlN n) s = .next ((s.after 2 12).writeByte s.hl n)

/-- LD A and LD to memory through BC, DE and an absolute address. -/
def Obligations.AccumulatorLoads : Prop :=
  (∀ (nn : Word) (b1 b2 : Byte),
    decodeBytes 0x0A b1 b2 = .ldABc ∧ decodeBytes 0x1A b1 b2 = .ldADe ∧
    decodeBytes 0x02 b1 b2 = .ldBcA ∧ decodeBytes 0x12 b1 b2 = .ldDeA ∧
    decodeBytes 0xFA (loByte nn) (hiByte nn) = .ldANn nn ∧ decodeBytes 0xEA (loByte nn) (hiByte nn) = .ldNnA nn) ∧
  ∀ (s : State) (nn : Word),
    exec .ldABc s = .next { s.after 1 8 with a := s.readByte s.bc } ∧
    exec .ldADe s = .next { s.after 1 8 with a := s.readByte s.de } ∧
    exec .ldBcA s = .next ((s.after 1 8).writeByte s.bc s.a) ∧
    exec .ldDeA s = .next ((s.after 1 8).writeByte s.de s.a) ∧
    exec (.ldANn nn) s = .next { s.after 3 16 with a := s.readByte nn } ∧
    exec (.ldNnA nn) s = .next ((s.after 3 16).writeByte nn s.a)

/-- The four high-RAM loads: the address is 0xFF00 plus an 8-bit offset, so it is always in 0xFF00 to 0xFFFF. -/
def Obligations.HighRamLoads : Prop :=
  (∀ n b1 b2 : Byte,
    decodeBytes 0xF2 b1 b2 = .ldhAC ∧ decodeBytes 0xE2 b1 b2 = .ldhCA ∧
    decodeBytes 0xF0 n b2 = .ldhAN n ∧ decodeBytes 0xE0 n b2 = .ldhNA n) ∧
  ∀ (s : State) (n : Byte),
    exec .ldhAC s = .next { s.after 1 8 with a := s.readByte (BitVec.ofNat 16 (0xFF00 + s.c.toNat)) } ∧
    exec .ldhCA s = .next ((s.after 1 8).writeByte (BitVec.ofNat 16 (0xFF00 + s.c.toNat)) s.a) ∧
    exec (.ldhAN n) s = .next { s.after 2 12 with a := s.readByte (BitVec.ofNat 16 (0xFF00 + n.toNat)) } ∧
    exec (.ldhNA n) s = .next ((s.after 2 12).writeByte (BitVec.ofNat 16 (0xFF00 + n.toNat)) s.a)

/-- The loads that step HL afterwards: HL moves by one modulo 2^16, and the access is at the old HL. -/
def Obligations.SteppingLoads : Prop :=
  (∀ b1 b2 : Byte,
    decodeBytes 0x2A b1 b2 = .ldAHli ∧ decodeBytes 0x3A b1 b2 = .ldAHld ∧
    decodeBytes 0x22 b1 b2 = .ldHliA ∧ decodeBytes 0x32 b1 b2 = .ldHldA) ∧
  ∀ s : State,
    exec .ldAHli s = .next (({ s.after 1 8 with a := s.readByte s.hl }).setHl (BitVec.ofNat 16 (s.hl.toNat + 1))) ∧
    exec .ldAHld s = .next (({ s.after 1 8 with a := s.readByte s.hl }).setHl (BitVec.ofNat 16 (s.hl.toNat + 65535))) ∧
    exec .ldHliA s = .next (((s.after 1 8).writeByte s.hl s.a).setHl (BitVec.ofNat 16 (s.hl.toNat + 1))) ∧
    exec .ldHldA s = .next (((s.after 1 8).writeByte s.hl s.a).setHl (BitVec.ofNat 16 (s.hl.toNat + 65535)))

/-- LD rr,nn, LD (nn),SP (low byte at nn, high byte at nn + 1 modulo 2^16) and LD SP,HL. -/
def Obligations.WideLoads : Prop :=
  (∀ (p : Pair) (nn : Word) (b1 b2 : Byte),
    decodeBytes (0x01#8 ||| p.code <<< 4) (loByte nn) (hiByte nn) = .ldRrNn p nn ∧
    decodeBytes 0x08 (loByte nn) (hiByte nn) = .ldNnSp nn ∧ decodeBytes 0xF9 b1 b2 = .ldSpHl) ∧
  ∀ (s : State) (nn : Word),
    exec (.ldRrNn .bc nn) s = .next { s.after 3 12 with b := hiByte nn, c := loByte nn } ∧
    exec (.ldRrNn .de nn) s = .next { s.after 3 12 with d := hiByte nn, e := loByte nn } ∧
    exec (.ldRrNn .hl nn) s = .next { s.after 3 12 with h := hiByte nn, l := loByte nn } ∧
    exec (.ldRrNn .sp nn) s = .next { s.after 3 12 with sp := nn } ∧
    exec (.ldNnSp nn) s =
      .next (((s.after 3 20).writeByte nn (loByte s.sp)).writeByte (BitVec.ofNat 16 (nn.toNat + 1)) (hiByte s.sp)) ∧
    exec .ldSpHl s = .next { s.after 1 8 with sp := s.hl }

/-! ## 8-bit arithmetic and logic (42_alu8) -/

/-- ADD and SUB in their three forms: the exact sum or difference modulo 2^8, with H and C the carry or borrow
out of the low nibble and of the byte. -/
def Obligations.AddAndSub : Prop :=
  (∀ (rs : Reg8) (n b1 b2 : Byte),
    decodeBytes (0x80#8 ||| rs.code) b1 b2 = .addAR rs ∧ decodeBytes 0x86 b1 b2 = .addAHl ∧
    decodeBytes 0xC6 n b2 = .addAN n ∧ decodeBytes (0x90#8 ||| rs.code) b1 b2 = .subAR rs ∧
    decodeBytes 0x96 b1 b2 = .subAHl ∧ decodeBytes 0xD6 n b2 = .subAN n) ∧
  ∀ (s : State) (rs : Reg8) (n : Byte),
    let adds := fun (i : Instr) (len ticks : Nat) (v : Byte) =>
      exec i s = .next { s.after len ticks with
        a := BitVec.ofNat 8 (s.a.toNat + v.toNat)
        f := flagByte ((s.a.toNat + v.toNat) % 256 = 0) false (s.a.toNat % 16 + v.toNat % 16 > 0x0F)
          (s.a.toNat + v.toNat > 0xFF) }
    let subs := fun (i : Instr) (len ticks : Nat) (v : Byte) =>
      exec i s = .next { s.after len ticks with
        a := BitVec.ofInt 8 ((s.a.toNat : Int) - v.toNat)
        f := flagByte (s.a = v) true (s.a.toNat % 16 < v.toNat % 16) (s.a.toNat < v.toNat) }
    adds (.addAR rs) 1 4 (s.reg8 rs) ∧ adds .addAHl 1 8 (s.readByte s.hl) ∧ adds (.addAN n) 2 8 n ∧
    subs (.subAR rs) 1 4 (s.reg8 rs) ∧ subs .subAHl 1 8 (s.readByte s.hl) ∧ subs (.subAN n) 2 8 n

/-- ADC and SBC in their three forms: the carry-in joins the unbounded sums that give H and C (42_alu8 R220,
R221: the spec's decision D3). -/
def Obligations.AddAndSubWithCarry : Prop :=
  (∀ (rs : Reg8) (n b1 b2 : Byte),
    decodeBytes (0x88#8 ||| rs.code) b1 b2 = .adcAR rs ∧ decodeBytes 0x8E b1 b2 = .adcAHl ∧
    decodeBytes 0xCE n b2 = .adcAN n ∧ decodeBytes (0x98#8 ||| rs.code) b1 b2 = .sbcAR rs ∧
    decodeBytes 0x9E b1 b2 = .sbcAHl ∧ decodeBytes 0xDE n b2 = .sbcAN n) ∧
  ∀ (s : State) (rs : Reg8) (n : Byte),
    let cin : Nat := if s.f.getLsbD 4 then 1 else 0
    let adds := fun (i : Instr) (len ticks : Nat) (v : Byte) =>
      exec i s = .next { s.after len ticks with
        a := BitVec.ofNat 8 (s.a.toNat + v.toNat + cin)
        f := flagByte ((s.a.toNat + v.toNat + cin) % 256 = 0) false
          (s.a.toNat % 16 + v.toNat % 16 + cin > 0x0F) (s.a.toNat + v.toNat + cin > 0xFF) }
    let subs := fun (i : Instr) (len ticks : Nat) (v : Byte) =>
      exec i s = .next { s.after len ticks with
        a := BitVec.ofInt 8 ((s.a.toNat : Int) - v.toNat - cin)
        f := flagByte (((s.a.toNat : Int) - v.toNat - cin) % 256 = 0) true
          (s.a.toNat % 16 < v.toNat % 16 + cin) (s.a.toNat < v.toNat + cin) }
    adds (.adcAR rs) 1 4 (s.reg8 rs) ∧ adds .adcAHl 1 8 (s.readByte s.hl) ∧ adds (.adcAN n) 2 8 n ∧
    subs (.sbcAR rs) 1 4 (s.reg8 rs) ∧ subs .sbcAHl 1 8 (s.readByte s.hl) ∧ subs (.sbcAN n) 2 8 n

/-- AND, XOR and OR in their three forms: Z by the result, N reset, H set by AND alone, C reset. -/
def Obligations.LogicalInstructions : Prop :=
  (∀ (rs : Reg8) (n b1 b2 : Byte),
    decodeBytes (0xA0#8 ||| rs.code) b1 b2 = .andAR rs ∧ decodeBytes 0xA6 b1 b2 = .andAHl ∧
    decodeBytes 0xE6 n b2 = .andAN n ∧ decodeBytes (0xA8#8 ||| rs.code) b1 b2 = .xorAR rs ∧
    decodeBytes 0xAE b1 b2 = .xorAHl ∧ decodeBytes 0xEE n b2 = .xorAN n ∧
    decodeBytes (0xB0#8 ||| rs.code) b1 b2 = .orAR rs ∧ decodeBytes 0xB6 b1 b2 = .orAHl ∧
    decodeBytes 0xF6 n b2 = .orAN n) ∧
  ∀ (s : State) (rs : Reg8) (n : Byte),
    let sets := fun (i : Instr) (len ticks : Nat) (v : Byte) (h : Bool) =>
      exec i s = .next { s.after len ticks with a := v, f := flagByte (v = 0) false h false }
    sets (.andAR rs) 1 4 (s.a &&& s.reg8 rs) true ∧ sets .andAHl 1 8 (s.a &&& s.readByte s.hl) true ∧
    sets (.andAN n) 2 8 (s.a &&& n) true ∧
    sets (.xorAR rs) 1 4 (s.a ^^^ s.reg8 rs) false ∧ sets .xorAHl 1 8 (s.a ^^^ s.readByte s.hl) false ∧
    sets (.xorAN n) 2 8 (s.a ^^^ n) false ∧
    sets (.orAR rs) 1 4 (s.a ||| s.reg8 rs) false ∧ sets .orAHl 1 8 (s.a ||| s.readByte s.hl) false ∧
    sets (.orAN n) 2 8 (s.a ||| n) false

/-- CP in its three forms: Z if the operands are equal, H and C by the low nibbles and the bytes; A keeps its
value. -/
def Obligations.CompareSetsFlagsOnly : Prop :=
  (∀ (rs : Reg8) (n b1 b2 : Byte),
    decodeBytes (0xB8#8 ||| rs.code) b1 b2 = .cpAR rs ∧ decodeBytes 0xBE b1 b2 = .cpAHl ∧
    decodeBytes 0xFE n b2 = .cpAN n) ∧
  ∀ (s : State) (rs : Reg8) (n : Byte),
    let cmp := fun (i : Instr) (len ticks : Nat) (v : Byte) =>
      exec i s = .next { s.after len ticks with
        f := flagByte (s.a = v) true (s.a.toNat % 16 < v.toNat % 16) (s.a.toNat < v.toNat) }
    cmp (.cpAR rs) 1 4 (s.reg8 rs) ∧ cmp .cpAHl 1 8 (s.readByte s.hl) ∧ cmp (.cpAN n) 2 8 n

/-- INC and DEC of a register and of the byte at HL: one up or down modulo 2^8, Z and H by the value, C kept. -/
def Obligations.ByteIncrementAndDecrement : Prop :=
  (∀ (rd : Reg8) (b1 b2 : Byte),
    decodeBytes (0x04#8 ||| rd.code <<< 3) b1 b2 = .incR rd ∧ decodeBytes 0x34 b1 b2 = .incHl ∧
    decodeBytes (0x05#8 ||| rd.code <<< 3) b1 b2 = .decR rd ∧ decodeBytes 0x35 b1 b2 = .decHl) ∧
  ∀ (s : State) (rd : Reg8),
    let up := fun v : Byte => BitVec.ofNat 8 (v.toNat + 1)
    let down := fun v : Byte => BitVec.ofNat 8 (v.toNat + 255)
    let upF := fun v : Byte => flagByte (v = 0xFF) false (v.toNat % 16 = 15) (s.f.getLsbD 4)
    let downF := fun v : Byte => flagByte (v = 0x01) true (v.toNat % 16 = 0) (s.f.getLsbD 4)
    let m := s.readByte s.hl
    exec (.incR rd) s = .next { (s.after 1 4).setReg8 rd (up (s.reg8 rd)) with f := upF (s.reg8 rd) } ∧
    exec .incHl s = .next { (s.after 1 12).writeByte s.hl (up m) with f := upF m } ∧
    exec (.decR rd) s = .next { (s.after 1 4).setReg8 rd (down (s.reg8 rd)) with f := downF (s.reg8 rd) } ∧
    exec .decHl s = .next { (s.after 1 12).writeByte s.hl (down m) with f := downF m }

/-- DAA by the canonical table, for every A and every N, H and C, both thresholds tested on the old A. -/
def Obligations.DecimalAdjust : Prop :=
  (∀ b1 b2 : Byte, decodeBytes 0x27 b1 b2 = .daa) ∧
  ∀ s : State,
    let n := s.f.getLsbD 6
    let high := s.f.getLsbD 4 = true ∨ (n = false ∧ s.a.toNat > 0x99)
    let low := s.f.getLsbD 5 = true ∨ (n = false ∧ s.a.toNat % 16 > 0x09)
    let corr : Nat := (if high then 0x60 else 0) + (if low then 0x06 else 0)
    let r : Byte := if n then BitVec.ofInt 8 ((s.a.toNat : Int) - corr) else BitVec.ofNat 8 (s.a.toNat + corr)
    exec .daa s = .next { s.after 1 4 with a := r, f := flagByte (r = 0) n false high }

/-- CPL, SCF and CCF: the flags they write, and the flags they keep. -/
def Obligations.ComplementAndCarryFlag : Prop :=
  (∀ b1 b2 : Byte,
    decodeBytes 0x2F b1 b2 = .cpl ∧ decodeBytes 0x37 b1 b2 = .scf ∧ decodeBytes 0x3F b1 b2 = .ccf) ∧
  ∀ s : State,
    exec .cpl s = .next { s.after 1 4 with
      a := BitVec.ofNat 8 (255 - s.a.toNat), f := flagByte (s.f.getLsbD 7) true true (s.f.getLsbD 4) } ∧
    exec .scf s = .next { s.after 1 4 with f := flagByte (s.f.getLsbD 7) false false true } ∧
    exec .ccf s = .next { s.after 1 4 with f := flagByte (s.f.getLsbD 7) false false (!s.f.getLsbD 4) }

/-- `ADD8` yields a 9-bit exact sum, H is the carry into bit 4 and Z is the zero test (42_alu8 R220: the carry
joins the sums by the spec's decision D3). -/
def Obligations.AddFunctionIsExact : Prop :=
  ∀ (a b : Byte) (cin : Bool),
    let r := add8 a b cin
    r.res.toNat + 256 * r.c.toNat = a.toNat + b.toNat + cin.toNat ∧
    r.h = (a ^^^ b ^^^ r.res).getLsbD 4 ∧ (r.z = true ↔ r.res = 0) ∧ r.n = false

/-- `SUB8` yields the exact difference with its borrow, H is the borrow into bit 4 and Z is the zero test
(42_alu8 R221: the borrow joins the differences by the spec's decision D3). -/
def Obligations.SubFunctionIsExact : Prop :=
  ∀ (a b : Byte) (cin : Bool),
    let r := sub8 a b cin
    r.res.toNat + b.toNat + cin.toNat = a.toNat + 256 * r.c.toNat ∧
    r.h = (a ^^^ b ^^^ r.res).getLsbD 4 ∧ (r.z = true ↔ r.res = 0) ∧ r.n = true

/-- DAA corrects a binary add or subtract of packed-BCD bytes to the packed-BCD sum or difference modulo 100,
with C the decimal carry or borrow (00_scope R18's glossary of DAA; the thresholds are those of 42_alu8 R251). -/
def Obligations.DecimalAdjustCorrectsBcd : Prop :=
  ∀ (s : State) (rs : Reg8), isBcd s.a → isBcd (s.reg8 rs) →
    (∃ t u, exec (.addAR rs) s = .next t ∧ exec .daa t = .next u ∧
      u.a = bcdByte ((bcdValue s.a + bcdValue (s.reg8 rs)) % 100) ∧
      (u.flagC = true ↔ 100 ≤ bcdValue s.a + bcdValue (s.reg8 rs))) ∧
    ∃ t u, exec (.subAR rs) s = .next t ∧ exec .daa t = .next u ∧
      u.a = bcdByte ((bcdValue s.a + 100 - bcdValue (s.reg8 rs)) % 100) ∧
      (u.flagC = true ↔ bcdValue s.a < bcdValue (s.reg8 rs))

/-- INC r then DEC r restores the register, with the flags of the DEC by the table: Z if the value is 0, N set,
H if its low nibble is 15, C kept (95_test_vectors S3, 90_conflicts C4). -/
def Obligations.IncThenDecRestoresTheRegister : Prop :=
  ∀ (s : State) (r : Reg8),
    ∃ t u, exec (.incR r) s = .next t ∧ exec (.decR r) t = .next u ∧ (∀ q : Reg8, u.reg8 q = s.reg8 q) ∧
      u.f = flagByte (s.reg8 r = 0) true ((s.reg8 r).toNat % 16 = 15) s.flagC

/-! ## 16-bit arithmetic (43_alu16) -/

/-- ADD HL,rr (H out of bit 11, C out of bit 15, Z kept), INC rr and DEC rr (no flag), ADD SP,e and LD HL,SP+e
(Z and N reset, H and C of the unsigned low-byte sum). -/
def Obligations.WideArithmetic : Prop :=
  (∀ (p : Pair) (e b1 b2 : Byte),
    decodeBytes (0x09#8 ||| p.code <<< 4) b1 b2 = .addHlRr p ∧ decodeBytes (0x03#8 ||| p.code <<< 4) b1 b2 = .incRr p ∧
    decodeBytes (0x0B#8 ||| p.code <<< 4) b1 b2 = .decRr p ∧ decodeBytes 0xE8 e b2 = .addSpE e ∧
    decodeBytes 0xF8 e b2 = .ldHlSpE e) ∧
  ∀ (s : State) (p : Pair) (e : Byte),
    let sum := s.hl.toNat + (s.pair p).toNat
    let moved := BitVec.ofInt 16 ((s.sp.toNat : Int) + e.toInt)
    let spF := flagByte false false (s.sp.toNat % 16 + e.toNat % 16 > 0x0F) (s.sp.toNat % 256 + e.toNat > 0xFF)
    exec (.addHlRr p) s = .next { (s.after 1 8).setHl (BitVec.ofNat 16 sum) with
      f := flagByte (s.f.getLsbD 7) false (s.hl.toNat % 4096 + (s.pair p).toNat % 4096 > 0x0FFF) (sum > 0xFFFF) } ∧
    exec (.incRr p) s = .next ((s.after 1 8).setPair p (BitVec.ofNat 16 ((s.pair p).toNat + 1))) ∧
    exec (.decRr p) s = .next ((s.after 1 8).setPair p (BitVec.ofNat 16 ((s.pair p).toNat + 65535))) ∧
    exec (.addSpE e) s = .next { s.after 2 16 with sp := moved, f := spF } ∧
    exec (.ldHlSpE e) s = .next { (s.after 2 12).setHl moved with f := spF }

/-! ## Rotates, shifts, swap and bit operations (44_rotate_shift_bit) -/

/-- RLCA, RRCA, RLA and RRA: the rotated A, N and H reset, C the bit rotated out, and Z reset or computed by the
parameter ACC_ROTATE_Z (R301 to R305: the spec's decision D2; the default resets it). -/
def Obligations.AccumulatorRotates : Prop :=
  (∀ b1 b2 : Byte,
    decodeBytes 0x07 b1 b2 = .rlca ∧ decodeBytes 0x0F b1 b2 = .rrca ∧ decodeBytes 0x17 b1 b2 = .rla ∧
    decodeBytes 0x1F b1 b2 = .rra) ∧
  Config.default.accRotateZ = .reset ∧
  ∀ s : State,
    let v := s.a.toNat
    let cin : Nat := if s.f.getLsbD 4 then 1 else 0
    let rot := fun (i : Instr) (r : Nat) (c : Bool) =>
      exec i s = .next { s.after 1 4 with
        a := BitVec.ofNat 8 r
        f := flagByte (s.cfg.accRotateZ = .result ∧ r % 256 = 0) false false c }
    rot .rlca (2 * v + v / 128) (v ≥ 128) ∧ rot .rrca (v / 2 + 128 * (v % 2)) (v % 2 = 1) ∧
    rot .rla (2 * v + cin) (v ≥ 128) ∧ rot .rra (v / 2 + 128 * cin) (v % 2 = 1)

/-- The extended rotates, shifts and swap on a register and on the byte at HL: the result written back, Z by
the result, N and H reset, C the bit moved out and 0 for SWAP. -/
def Obligations.ExtendedRotatesAndShifts : Prop :=
  (∀ (rs : Reg8) (b2 : Byte),
    decodeBytes 0xCB rs.code b2 = .rlcR rs ∧ decodeBytes 0xCB 0x06 b2 = .rlcHl ∧
    decodeBytes 0xCB (0x08#8 ||| rs.code) b2 = .rrcR rs ∧ decodeBytes 0xCB 0x0E b2 = .rrcHl ∧
    decodeBytes 0xCB (0x10#8 ||| rs.code) b2 = .rlR rs ∧ decodeBytes 0xCB 0x16 b2 = .rlHl ∧
    decodeBytes 0xCB (0x18#8 ||| rs.code) b2 = .rrR rs ∧ decodeBytes 0xCB 0x1E b2 = .rrHl ∧
    decodeBytes 0xCB (0x20#8 ||| rs.code) b2 = .slaR rs ∧ decodeBytes 0xCB 0x26 b2 = .slaHl ∧
    decodeBytes 0xCB (0x28#8 ||| rs.code) b2 = .sraR rs ∧ decodeBytes 0xCB 0x2E b2 = .sraHl ∧
    decodeBytes 0xCB (0x30#8 ||| rs.code) b2 = .swapR rs ∧ decodeBytes 0xCB 0x36 b2 = .swapHl ∧
    decodeBytes 0xCB (0x38#8 ||| rs.code) b2 = .srlR rs ∧ decodeBytes 0xCB 0x3E b2 = .srlHl) ∧
  ∀ (s : State) (rs : Reg8),
    let cin : Nat := if s.f.getLsbD 4 then 1 else 0
    let op := fun (reg mem : Instr) (r : Nat → Nat) (c : Nat → Bool) =>
      (let v := (s.reg8 rs).toNat
       exec reg s = .next { (s.after 2 8).setReg8 rs (BitVec.ofNat 8 (r v)) with
         f := flagByte (r v % 256 = 0) false false (c v) }) ∧
      (let v := (s.readByte s.hl).toNat
       exec mem s = .next { (s.after 2 16).writeByte s.hl (BitVec.ofNat 8 (r v)) with
         f := flagByte (r v % 256 = 0) false false (c v) })
    op (.rlcR rs) .rlcHl (fun v => 2 * v + v / 128) (fun v => v ≥ 128) ∧
    op (.rrcR rs) .rrcHl (fun v => v / 2 + 128 * (v % 2)) (fun v => v % 2 = 1) ∧
    op (.rlR rs) .rlHl (fun v => 2 * v + cin) (fun v => v ≥ 128) ∧
    op (.rrR rs) .rrHl (fun v => v / 2 + 128 * cin) (fun v => v % 2 = 1) ∧
    op (.slaR rs) .slaHl (fun v => 2 * v) (fun v => v ≥ 128) ∧
    op (.sraR rs) .sraHl (fun v => v / 2 + v / 128 * 128) (fun v => v % 2 = 1) ∧
    op (.swapR rs) .swapHl (fun v => v % 16 * 16 + v / 16) (fun _ => false) ∧
    op (.srlR rs) .srlHl (fun v => v / 2) (fun v => v % 2 = 1)

/-- BIT, RES and SET on a register and on the byte at HL, for every bit number: BIT writes Z, N and H and keeps
C and its operand; RES and SET change one bit of the operand and no flag. -/
def Obligations.BitInstructions : Prop :=
  (∀ (b : Nat) (rs : Reg8) (b2 : Byte), b < 8 →
    decodeBytes 0xCB (0x40#8 ||| BitVec.ofNat 8 (8 * b) ||| rs.code) b2 = .bitBR b rs ∧
    decodeBytes 0xCB (0x46#8 ||| BitVec.ofNat 8 (8 * b)) b2 = .bitBHl b ∧
    decodeBytes 0xCB (0x80#8 ||| BitVec.ofNat 8 (8 * b) ||| rs.code) b2 = .resBR b rs ∧
    decodeBytes 0xCB (0x86#8 ||| BitVec.ofNat 8 (8 * b)) b2 = .resBHl b ∧
    decodeBytes 0xCB (0xC0#8 ||| BitVec.ofNat 8 (8 * b) ||| rs.code) b2 = .setBR b rs ∧
    decodeBytes 0xCB (0xC6#8 ||| BitVec.ofNat 8 (8 * b)) b2 = .setBHl b) ∧
  ∀ (s : State) (b : Nat) (rs : Reg8), b < 8 →
    let m := s.readByte s.hl
    let tested := fun v : Byte => flagByte (v.toNat / 2 ^ b % 2 = 0) false true (s.f.getLsbD 4)
    let cleared := fun v : Byte => BitVec.ofNat 8 (v.toNat - v.toNat / 2 ^ b % 2 * 2 ^ b)
    let raised := fun v : Byte => BitVec.ofNat 8 (v.toNat + (1 - v.toNat / 2 ^ b % 2) * 2 ^ b)
    exec (.bitBR b rs) s = .next { s.after 2 8 with f := tested (s.reg8 rs) } ∧
    exec (.bitBHl b) s = .next { s.after 2 12 with f := tested m } ∧
    exec (.resBR b rs) s = .next ((s.after 2 8).setReg8 rs (cleared (s.reg8 rs))) ∧
    exec (.resBHl b) s = .next ((s.after 2 16).writeByte s.hl (cleared m)) ∧
    exec (.setBR b rs) s = .next ((s.after 2 8).setReg8 rs (raised (s.reg8 rs))) ∧
    exec (.setBHl b) s = .next ((s.after 2 16).writeByte s.hl (raised m))

/-! ## Stack and control transfer (45_control) -/

/-- PUSH stores the high register at SP - 1 and the low one at SP - 2; POP reads them back the other way; F is
pushed and popped with a zero low nibble. -/
def Obligations.PushAndPop : Prop :=
  (∀ (q : StackPair) (b1 b2 : Byte),
    decodeBytes (0xC5#8 ||| q.code <<< 4) b1 b2 = .pushQq q ∧ decodeBytes (0xC1#8 ||| q.code <<< 4) b1 b2 = .popQq q) ∧
  ∀ s : State,
    let pushes := fun (q : StackPair) (hi lo : Byte) =>
      exec (.pushQq q) s = .next
        { ((s.after 1 16).writeByte (s.sp - 1) hi).writeByte (s.sp - 2) lo with sp := s.sp - 2 }
    let hi := s.readByte (s.sp + 1)
    let lo := s.readByte s.sp
    let popped := { s.after 1 12 with sp := s.sp + 2 }
    pushes .bc s.b s.c ∧ pushes .de s.d s.e ∧ pushes .hl s.h s.l ∧ pushes .af s.a (s.f &&& 0xF0) ∧
    exec (.popQq .bc) s = .next { popped with b := hi, c := lo } ∧
    exec (.popQq .de) s = .next { popped with d := hi, e := lo } ∧
    exec (.popQq .hl) s = .next { popped with h := hi, l := lo } ∧
    exec (.popQq .af) s = .next { popped with a := hi, f := lo &&& 0xF0 }

/-- JP, JP cc, JP HL, JR and JR cc, taken and not taken, with the four conditions. -/
def Obligations.Jumps : Prop :=
  (∀ (cc : Cond) (nn : Word) (e b1 b2 : Byte),
    decodeBytes 0xC3 (loByte nn) (hiByte nn) = .jpNn nn ∧
    decodeBytes (0xC2#8 ||| cc.code <<< 3) (loByte nn) (hiByte nn) = .jpCcNn cc nn ∧
    decodeBytes 0xE9 b1 b2 = .jpHl ∧ decodeBytes 0x18 e b2 = .jrE e ∧
    decodeBytes (0x20#8 ||| cc.code <<< 3) e b2 = .jrCcE cc e) ∧
  ∀ (s : State) (cc : Cond) (nn : Word) (e : Byte),
    let target := BitVec.ofInt 16 ((s.pc.toNat : Int) + 2 + e.toInt)
    (s.cond .nz = !s.f.getLsbD 7 ∧ s.cond .z = s.f.getLsbD 7 ∧ s.cond .nc = !s.f.getLsbD 4 ∧
      s.cond .c = s.f.getLsbD 4) ∧
    exec (.jpNn nn) s = .next { s.after 3 16 with pc := nn } ∧
    exec (.jpCcNn cc nn) s = .next (if s.cond cc then { s.after 3 16 with pc := nn } else s.after 3 12) ∧
    exec .jpHl s = .next { s.after 1 4 with pc := s.hl } ∧
    exec (.jrE e) s = .next { s.after 2 12 with pc := target } ∧
    exec (.jrCcE cc e) s = .next (if s.cond cc then { s.after 2 12 with pc := target } else s.after 2 8)

/-- CALL, CALL cc, RET, RET cc and RST: the return address pushed is that of the next instruction, and a
condition that fails pushes and pops nothing. -/
def Obligations.CallsReturnsAndRestarts : Prop :=
  (∀ (cc : Cond) (nn : Word) (t : Nat) (b1 b2 : Byte),
    decodeBytes 0xCD (loByte nn) (hiByte nn) = .callNn nn ∧
    decodeBytes (0xC4#8 ||| cc.code <<< 3) (loByte nn) (hiByte nn) = .callCcNn cc nn ∧
    decodeBytes 0xC9 b1 b2 = .ret ∧ decodeBytes (0xC0#8 ||| cc.code <<< 3) b1 b2 = .retCc cc ∧
    (t < 8 → decodeBytes (0xC7#8 ||| BitVec.ofNat 8 (8 * t)) b1 b2 = .rstT t)) ∧
  ∀ (s : State) (cc : Cond) (nn : Word) (t : Nat),
    let called := fun (len ticks : Nat) (target : Word) =>
      let ra := BitVec.ofNat 16 (s.pc.toNat + len)
      { ((s.after len ticks).writeByte (s.sp - 1) (hiByte ra)).writeByte (s.sp - 2) (loByte ra) with
        sp := s.sp - 2, pc := target }
    let returned := fun ticks : Nat =>
      { s.after 1 ticks with
        pc := BitVec.ofNat 16 (256 * (s.readByte (s.sp + 1)).toNat + (s.readByte s.sp).toNat), sp := s.sp + 2 }
    exec (.callNn nn) s = .next (called 3 24 nn) ∧
    exec (.callCcNn cc nn) s = .next (if s.cond cc then called 3 24 nn else s.after 3 12) ∧
    exec .ret s = .next (returned 16) ∧
    exec (.retCc cc) s = .next (if s.cond cc then returned 20 else s.after 1 8) ∧
    exec (.rstT t) s = .next (called 1 16 (BitVec.ofNat 16 (8 * t)))

/-- A pop of a pair right after its push restores the pair, SP and every register (45_control R341). F's bits 3
to 0 read as 0 in both (10_state R35). -/
def Obligations.PopUndoesPush : Prop :=
  ∀ (s : State) (q : StackPair),
    ∃ t u, exec (.pushQq q) s = .next t ∧ exec (.popQq q) t = .next u ∧ u.stackPair q = s.stackPair q ∧
      u.sp = s.sp ∧ (∀ r : Reg8, u.reg8 r = s.reg8 r) ∧ u.readF = s.readF

/-- A RET right after a CALL, or after an RST, comes back to the instruction after it with SP as it was
(45_control R350, R355). -/
def Obligations.RetUndoesCallAndRst : Prop :=
  ∀ (s : State) (nn : Word) (n : Nat),
    (∃ t u, exec (.callNn nn) s = .next t ∧ t.pc = nn ∧ exec .ret t = .next u ∧ u.pc = s.pc + 3 ∧ u.sp = s.sp) ∧
    ∃ t u, exec (.rstT n) s = .next t ∧ t.pc = BitVec.ofNat 16 (8 * n) ∧ exec .ret t = .next u ∧
      u.pc = s.pc + 1 ∧ u.sp = s.sp

/-! ## System instructions (46_system) -/

/-- NOP only advances PC and charges 4 ticks; DI clears `ime` at once. -/
def Obligations.NopAndDi : Prop :=
  (∀ b1 b2 : Byte, decodeBytes 0x00 b1 b2 = .nop ∧ decodeBytes 0xF3 b1 b2 = .di) ∧
  ∀ s : State, exec .nop s = .next (s.after 1 4) ∧ exec .di s = .next { s.after 1 4 with ime := false }

/-- HALT halts, with `ime` = 1 or no request; with `ime` = 0 and a request present the spec records
HaltBugUnmodelled at the address of the HALT and changes nothing else (46_system R381, 60_exceptions R403: the
spec's decision D9; log entry 4). -/
def Obligations.HaltHaltsOrIsRecorded : Prop :=
  (∀ b1 b2 : Byte, decodeBytes 0x76 b1 b2 = .halt) ∧
  ∀ s : State,
    ((s.ime = true ∨ s.irq = none) → exec .halt s = .next { s.after 1 4 with halt := true }) ∧
    (s.ime = false → s.irq ≠ none → exec .halt s = .next { s with fault := some (.haltBugUnmodelled s.pc) })

/-- STOP stops, its ignored byte passed when STOP_LENGTH is 2 (46_system R382: the spec's decision D10); EI sets
`ime`, and `ei_delay` when EI_DELAY is 1 and `ime` was 0 (R384: decision D6); RETI pops PC and sets `ime` with no
delay (45_control R354: decision D7). -/
def Obligations.StopEiAndReti : Prop :=
  (∀ b1 b2 : Byte, decodeBytes 0x10 b1 b2 = .stop ∧ decodeBytes 0xFB b1 b2 = .ei ∧ decodeBytes 0xD9 b1 b2 = .reti) ∧
  ∀ s : State,
    exec .stop s = .next { s.after (if s.cfg.stopLength = .two then 2 else 1) 4 with stop := true } ∧
    exec .ei s = .next { s.after 1 4 with ime := true, eiDelay := s.cfg.eiDelay = .one ∧ s.ime = false } ∧
    exec .reti s = .next { s.after 1 16 with
      pc := BitVec.ofNat 16 (256 * (s.readByte (s.sp + 1)).toNat + (s.readByte s.sp).toNat)
      sp := s.sp + 2, ime := true }

/-- Each invalid row commits nothing but `fault`, with PC left at the opcode, no tick charged and `ei_delay`
kept (40_engine R149, 46_system R385, 60_exceptions R400: the spec's decision D4). -/
def Obligations.InvalidOpcodeCommitsOnlyTheFault : Prop :=
  ∀ (i : Instr) (byte : Byte) (s : State), i.invalidByte = some byte →
    exec i s = .next { s with fault := some (.invalidOpcode s.pc byte) }
end

