-- ==== Sys2Proof/Laws/State.lean ====
section
/-! SUPPORT. One lemma per field per update of the state: what each named operation writes and what it leaves,
so that no proof unfolds a record update. -/

namespace Sys2Proof.Machine

/-! ### writeByte -/

@[simp] theorem State.writeByte_a (s : State) (addr : Word) (v : Byte) : (s.writeByte addr v).a = s.a := rfl
@[simp] theorem State.writeByte_f (s : State) (addr : Word) (v : Byte) : (s.writeByte addr v).f = s.f := rfl
@[simp] theorem State.writeByte_b (s : State) (addr : Word) (v : Byte) : (s.writeByte addr v).b = s.b := rfl
@[simp] theorem State.writeByte_c (s : State) (addr : Word) (v : Byte) : (s.writeByte addr v).c = s.c := rfl
@[simp] theorem State.writeByte_d (s : State) (addr : Word) (v : Byte) : (s.writeByte addr v).d = s.d := rfl
@[simp] theorem State.writeByte_e (s : State) (addr : Word) (v : Byte) : (s.writeByte addr v).e = s.e := rfl
@[simp] theorem State.writeByte_h (s : State) (addr : Word) (v : Byte) : (s.writeByte addr v).h = s.h := rfl
@[simp] theorem State.writeByte_l (s : State) (addr : Word) (v : Byte) : (s.writeByte addr v).l = s.l := rfl
@[simp] theorem State.writeByte_sp (s : State) (addr : Word) (v : Byte) : (s.writeByte addr v).sp = s.sp := rfl
@[simp] theorem State.writeByte_pc (s : State) (addr : Word) (v : Byte) : (s.writeByte addr v).pc = s.pc := rfl
@[simp] theorem State.writeByte_ime (s : State) (addr : Word) (v : Byte) : (s.writeByte addr v).ime = s.ime := rfl
@[simp] theorem State.writeByte_halt (s : State) (addr : Word) (v : Byte) : (s.writeByte addr v).halt = s.halt := rfl
@[simp] theorem State.writeByte_stop (s : State) (addr : Word) (v : Byte) : (s.writeByte addr v).stop = s.stop := rfl
@[simp] theorem State.writeByte_eiDelay (s : State) (addr : Word) (v : Byte) : (s.writeByte addr v).eiDelay = s.eiDelay := rfl
@[simp] theorem State.writeByte_fault (s : State) (addr : Word) (v : Byte) : (s.writeByte addr v).fault = s.fault := rfl
@[simp] theorem State.writeByte_cycles (s : State) (addr : Word) (v : Byte) : (s.writeByte addr v).cycles = s.cycles := rfl
@[simp] theorem State.writeByte_mem (s : State) (addr : Word) (v : Byte) : (s.writeByte addr v).mem = s.mem.write addr.toNat v := rfl
@[simp] theorem State.writeByte_cfg (s : State) (addr : Word) (v : Byte) : (s.writeByte addr v).cfg = s.cfg := rfl
@[simp] theorem State.writeByte_irqPort (s : State) (addr : Word) (v : Byte) : (s.writeByte addr v).irqPort = s.irqPort := rfl
@[simp] theorem State.writeByte_irq (s : State) (addr : Word) (v : Byte) : (s.writeByte addr v).irq = s.irq := rfl
@[simp] theorem State.writeByte_irqAck (s : State) (addr : Word) (v : Byte) : (s.writeByte addr v).irqAck = s.irqAck := rfl

/-! ### writeF -/

@[simp] theorem State.writeF_a (s : State) (v : Byte) : (s.writeF v).a = s.a := rfl
@[simp] theorem State.writeF_f (s : State) (v : Byte) : (s.writeF v).f = v &&& 0xF0 := rfl
@[simp] theorem State.writeF_b (s : State) (v : Byte) : (s.writeF v).b = s.b := rfl
@[simp] theorem State.writeF_c (s : State) (v : Byte) : (s.writeF v).c = s.c := rfl
@[simp] theorem State.writeF_d (s : State) (v : Byte) : (s.writeF v).d = s.d := rfl
@[simp] theorem State.writeF_e (s : State) (v : Byte) : (s.writeF v).e = s.e := rfl
@[simp] theorem State.writeF_h (s : State) (v : Byte) : (s.writeF v).h = s.h := rfl
@[simp] theorem State.writeF_l (s : State) (v : Byte) : (s.writeF v).l = s.l := rfl
@[simp] theorem State.writeF_sp (s : State) (v : Byte) : (s.writeF v).sp = s.sp := rfl
@[simp] theorem State.writeF_pc (s : State) (v : Byte) : (s.writeF v).pc = s.pc := rfl
@[simp] theorem State.writeF_ime (s : State) (v : Byte) : (s.writeF v).ime = s.ime := rfl
@[simp] theorem State.writeF_halt (s : State) (v : Byte) : (s.writeF v).halt = s.halt := rfl
@[simp] theorem State.writeF_stop (s : State) (v : Byte) : (s.writeF v).stop = s.stop := rfl
@[simp] theorem State.writeF_eiDelay (s : State) (v : Byte) : (s.writeF v).eiDelay = s.eiDelay := rfl
@[simp] theorem State.writeF_fault (s : State) (v : Byte) : (s.writeF v).fault = s.fault := rfl
@[simp] theorem State.writeF_cycles (s : State) (v : Byte) : (s.writeF v).cycles = s.cycles := rfl
@[simp] theorem State.writeF_mem (s : State) (v : Byte) : (s.writeF v).mem = s.mem := rfl
@[simp] theorem State.writeF_cfg (s : State) (v : Byte) : (s.writeF v).cfg = s.cfg := rfl
@[simp] theorem State.writeF_irqPort (s : State) (v : Byte) : (s.writeF v).irqPort = s.irqPort := rfl
@[simp] theorem State.writeF_irq (s : State) (v : Byte) : (s.writeF v).irq = s.irq := rfl
@[simp] theorem State.writeF_irqAck (s : State) (v : Byte) : (s.writeF v).irqAck = s.irqAck := rfl

/-! ### setReg8 -/

@[simp] theorem State.setReg8_f (s : State) (r : Reg8) (v : Byte) : (s.setReg8 r v).f = s.f := by cases r <;> rfl
@[simp] theorem State.setReg8_sp (s : State) (r : Reg8) (v : Byte) : (s.setReg8 r v).sp = s.sp := by cases r <;> rfl
@[simp] theorem State.setReg8_pc (s : State) (r : Reg8) (v : Byte) : (s.setReg8 r v).pc = s.pc := by cases r <;> rfl
@[simp] theorem State.setReg8_ime (s : State) (r : Reg8) (v : Byte) : (s.setReg8 r v).ime = s.ime := by cases r <;> rfl
@[simp] theorem State.setReg8_halt (s : State) (r : Reg8) (v : Byte) : (s.setReg8 r v).halt = s.halt := by cases r <;> rfl
@[simp] theorem State.setReg8_stop (s : State) (r : Reg8) (v : Byte) : (s.setReg8 r v).stop = s.stop := by cases r <;> rfl
@[simp] theorem State.setReg8_eiDelay (s : State) (r : Reg8) (v : Byte) : (s.setReg8 r v).eiDelay = s.eiDelay := by cases r <;> rfl
@[simp] theorem State.setReg8_fault (s : State) (r : Reg8) (v : Byte) : (s.setReg8 r v).fault = s.fault := by cases r <;> rfl
@[simp] theorem State.setReg8_cycles (s : State) (r : Reg8) (v : Byte) : (s.setReg8 r v).cycles = s.cycles := by cases r <;> rfl
@[simp] theorem State.setReg8_mem (s : State) (r : Reg8) (v : Byte) : (s.setReg8 r v).mem = s.mem := by cases r <;> rfl
@[simp] theorem State.setReg8_cfg (s : State) (r : Reg8) (v : Byte) : (s.setReg8 r v).cfg = s.cfg := by cases r <;> rfl
@[simp] theorem State.setReg8_irqPort (s : State) (r : Reg8) (v : Byte) : (s.setReg8 r v).irqPort = s.irqPort := by cases r <;> rfl
@[simp] theorem State.setReg8_irq (s : State) (r : Reg8) (v : Byte) : (s.setReg8 r v).irq = s.irq := by cases r <;> rfl
@[simp] theorem State.setReg8_irqAck (s : State) (r : Reg8) (v : Byte) : (s.setReg8 r v).irqAck = s.irqAck := by cases r <;> rfl

/-! ### setBc -/

@[simp] theorem State.setBc_a (s : State) (v : Word) : (s.setBc v).a = s.a := rfl
@[simp] theorem State.setBc_f (s : State) (v : Word) : (s.setBc v).f = s.f := rfl
@[simp] theorem State.setBc_b (s : State) (v : Word) : (s.setBc v).b = hiByte v := rfl
@[simp] theorem State.setBc_c (s : State) (v : Word) : (s.setBc v).c = loByte v := rfl
@[simp] theorem State.setBc_d (s : State) (v : Word) : (s.setBc v).d = s.d := rfl
@[simp] theorem State.setBc_e (s : State) (v : Word) : (s.setBc v).e = s.e := rfl
@[simp] theorem State.setBc_h (s : State) (v : Word) : (s.setBc v).h = s.h := rfl
@[simp] theorem State.setBc_l (s : State) (v : Word) : (s.setBc v).l = s.l := rfl
@[simp] theorem State.setBc_sp (s : State) (v : Word) : (s.setBc v).sp = s.sp := rfl
@[simp] theorem State.setBc_pc (s : State) (v : Word) : (s.setBc v).pc = s.pc := rfl
@[simp] theorem State.setBc_ime (s : State) (v : Word) : (s.setBc v).ime = s.ime := rfl
@[simp] theorem State.setBc_halt (s : State) (v : Word) : (s.setBc v).halt = s.halt := rfl
@[simp] theorem State.setBc_stop (s : State) (v : Word) : (s.setBc v).stop = s.stop := rfl
@[simp] theorem State.setBc_eiDelay (s : State) (v : Word) : (s.setBc v).eiDelay = s.eiDelay := rfl
@[simp] theorem State.setBc_fault (s : State) (v : Word) : (s.setBc v).fault = s.fault := rfl
@[simp] theorem State.setBc_cycles (s : State) (v : Word) : (s.setBc v).cycles = s.cycles := rfl
@[simp] theorem State.setBc_mem (s : State) (v : Word) : (s.setBc v).mem = s.mem := rfl
@[simp] theorem State.setBc_cfg (s : State) (v : Word) : (s.setBc v).cfg = s.cfg := rfl
@[simp] theorem State.setBc_irqPort (s : State) (v : Word) : (s.setBc v).irqPort = s.irqPort := rfl
@[simp] theorem State.setBc_irq (s : State) (v : Word) : (s.setBc v).irq = s.irq := rfl
@[simp] theorem State.setBc_irqAck (s : State) (v : Word) : (s.setBc v).irqAck = s.irqAck := rfl

/-! ### setDe -/

@[simp] theorem State.setDe_a (s : State) (v : Word) : (s.setDe v).a = s.a := rfl
@[simp] theorem State.setDe_f (s : State) (v : Word) : (s.setDe v).f = s.f := rfl
@[simp] theorem State.setDe_b (s : State) (v : Word) : (s.setDe v).b = s.b := rfl
@[simp] theorem State.setDe_c (s : State) (v : Word) : (s.setDe v).c = s.c := rfl
@[simp] theorem State.setDe_d (s : State) (v : Word) : (s.setDe v).d = hiByte v := rfl
@[simp] theorem State.setDe_e (s : State) (v : Word) : (s.setDe v).e = loByte v := rfl
@[simp] theorem State.setDe_h (s : State) (v : Word) : (s.setDe v).h = s.h := rfl
@[simp] theorem State.setDe_l (s : State) (v : Word) : (s.setDe v).l = s.l := rfl
@[simp] theorem State.setDe_sp (s : State) (v : Word) : (s.setDe v).sp = s.sp := rfl
@[simp] theorem State.setDe_pc (s : State) (v : Word) : (s.setDe v).pc = s.pc := rfl
@[simp] theorem State.setDe_ime (s : State) (v : Word) : (s.setDe v).ime = s.ime := rfl
@[simp] theorem State.setDe_halt (s : State) (v : Word) : (s.setDe v).halt = s.halt := rfl
@[simp] theorem State.setDe_stop (s : State) (v : Word) : (s.setDe v).stop = s.stop := rfl
@[simp] theorem State.setDe_eiDelay (s : State) (v : Word) : (s.setDe v).eiDelay = s.eiDelay := rfl
@[simp] theorem State.setDe_fault (s : State) (v : Word) : (s.setDe v).fault = s.fault := rfl
@[simp] theorem State.setDe_cycles (s : State) (v : Word) : (s.setDe v).cycles = s.cycles := rfl
@[simp] theorem State.setDe_mem (s : State) (v : Word) : (s.setDe v).mem = s.mem := rfl
@[simp] theorem State.setDe_cfg (s : State) (v : Word) : (s.setDe v).cfg = s.cfg := rfl
@[simp] theorem State.setDe_irqPort (s : State) (v : Word) : (s.setDe v).irqPort = s.irqPort := rfl
@[simp] theorem State.setDe_irq (s : State) (v : Word) : (s.setDe v).irq = s.irq := rfl
@[simp] theorem State.setDe_irqAck (s : State) (v : Word) : (s.setDe v).irqAck = s.irqAck := rfl

/-! ### setHl -/

@[simp] theorem State.setHl_a (s : State) (v : Word) : (s.setHl v).a = s.a := rfl
@[simp] theorem State.setHl_f (s : State) (v : Word) : (s.setHl v).f = s.f := rfl
@[simp] theorem State.setHl_b (s : State) (v : Word) : (s.setHl v).b = s.b := rfl
@[simp] theorem State.setHl_c (s : State) (v : Word) : (s.setHl v).c = s.c := rfl
@[simp] theorem State.setHl_d (s : State) (v : Word) : (s.setHl v).d = s.d := rfl
@[simp] theorem State.setHl_e (s : State) (v : Word) : (s.setHl v).e = s.e := rfl
@[simp] theorem State.setHl_h (s : State) (v : Word) : (s.setHl v).h = hiByte v := rfl
@[simp] theorem State.setHl_l (s : State) (v : Word) : (s.setHl v).l = loByte v := rfl
@[simp] theorem State.setHl_sp (s : State) (v : Word) : (s.setHl v).sp = s.sp := rfl
@[simp] theorem State.setHl_pc (s : State) (v : Word) : (s.setHl v).pc = s.pc := rfl
@[simp] theorem State.setHl_ime (s : State) (v : Word) : (s.setHl v).ime = s.ime := rfl
@[simp] theorem State.setHl_halt (s : State) (v : Word) : (s.setHl v).halt = s.halt := rfl
@[simp] theorem State.setHl_stop (s : State) (v : Word) : (s.setHl v).stop = s.stop := rfl
@[simp] theorem State.setHl_eiDelay (s : State) (v : Word) : (s.setHl v).eiDelay = s.eiDelay := rfl
@[simp] theorem State.setHl_fault (s : State) (v : Word) : (s.setHl v).fault = s.fault := rfl
@[simp] theorem State.setHl_cycles (s : State) (v : Word) : (s.setHl v).cycles = s.cycles := rfl
@[simp] theorem State.setHl_mem (s : State) (v : Word) : (s.setHl v).mem = s.mem := rfl
@[simp] theorem State.setHl_cfg (s : State) (v : Word) : (s.setHl v).cfg = s.cfg := rfl
@[simp] theorem State.setHl_irqPort (s : State) (v : Word) : (s.setHl v).irqPort = s.irqPort := rfl
@[simp] theorem State.setHl_irq (s : State) (v : Word) : (s.setHl v).irq = s.irq := rfl
@[simp] theorem State.setHl_irqAck (s : State) (v : Word) : (s.setHl v).irqAck = s.irqAck := rfl

/-! ### setAf -/

@[simp] theorem State.setAf_a (s : State) (v : Word) : (s.setAf v).a = hiByte v := rfl
@[simp] theorem State.setAf_f (s : State) (v : Word) : (s.setAf v).f = loByte v &&& 0xF0 := rfl
@[simp] theorem State.setAf_b (s : State) (v : Word) : (s.setAf v).b = s.b := rfl
@[simp] theorem State.setAf_c (s : State) (v : Word) : (s.setAf v).c = s.c := rfl
@[simp] theorem State.setAf_d (s : State) (v : Word) : (s.setAf v).d = s.d := rfl
@[simp] theorem State.setAf_e (s : State) (v : Word) : (s.setAf v).e = s.e := rfl
@[simp] theorem State.setAf_h (s : State) (v : Word) : (s.setAf v).h = s.h := rfl
@[simp] theorem State.setAf_l (s : State) (v : Word) : (s.setAf v).l = s.l := rfl
@[simp] theorem State.setAf_sp (s : State) (v : Word) : (s.setAf v).sp = s.sp := rfl
@[simp] theorem State.setAf_pc (s : State) (v : Word) : (s.setAf v).pc = s.pc := rfl
@[simp] theorem State.setAf_ime (s : State) (v : Word) : (s.setAf v).ime = s.ime := rfl
@[simp] theorem State.setAf_halt (s : State) (v : Word) : (s.setAf v).halt = s.halt := rfl
@[simp] theorem State.setAf_stop (s : State) (v : Word) : (s.setAf v).stop = s.stop := rfl
@[simp] theorem State.setAf_eiDelay (s : State) (v : Word) : (s.setAf v).eiDelay = s.eiDelay := rfl
@[simp] theorem State.setAf_fault (s : State) (v : Word) : (s.setAf v).fault = s.fault := rfl
@[simp] theorem State.setAf_cycles (s : State) (v : Word) : (s.setAf v).cycles = s.cycles := rfl
@[simp] theorem State.setAf_mem (s : State) (v : Word) : (s.setAf v).mem = s.mem := rfl
@[simp] theorem State.setAf_cfg (s : State) (v : Word) : (s.setAf v).cfg = s.cfg := rfl
@[simp] theorem State.setAf_irqPort (s : State) (v : Word) : (s.setAf v).irqPort = s.irqPort := rfl
@[simp] theorem State.setAf_irq (s : State) (v : Word) : (s.setAf v).irq = s.irq := rfl
@[simp] theorem State.setAf_irqAck (s : State) (v : Word) : (s.setAf v).irqAck = s.irqAck := rfl

/-! ### setPair -/

@[simp] theorem State.setPair_a (s : State) (p : Pair) (v : Word) : (s.setPair p v).a = s.a := by cases p <;> rfl
@[simp] theorem State.setPair_f (s : State) (p : Pair) (v : Word) : (s.setPair p v).f = s.f := by cases p <;> rfl
@[simp] theorem State.setPair_pc (s : State) (p : Pair) (v : Word) : (s.setPair p v).pc = s.pc := by cases p <;> rfl
@[simp] theorem State.setPair_ime (s : State) (p : Pair) (v : Word) : (s.setPair p v).ime = s.ime := by cases p <;> rfl
@[simp] theorem State.setPair_halt (s : State) (p : Pair) (v : Word) : (s.setPair p v).halt = s.halt := by cases p <;> rfl
@[simp] theorem State.setPair_stop (s : State) (p : Pair) (v : Word) : (s.setPair p v).stop = s.stop := by cases p <;> rfl
@[simp] theorem State.setPair_eiDelay (s : State) (p : Pair) (v : Word) : (s.setPair p v).eiDelay = s.eiDelay := by cases p <;> rfl
@[simp] theorem State.setPair_fault (s : State) (p : Pair) (v : Word) : (s.setPair p v).fault = s.fault := by cases p <;> rfl
@[simp] theorem State.setPair_cycles (s : State) (p : Pair) (v : Word) : (s.setPair p v).cycles = s.cycles := by cases p <;> rfl
@[simp] theorem State.setPair_mem (s : State) (p : Pair) (v : Word) : (s.setPair p v).mem = s.mem := by cases p <;> rfl
@[simp] theorem State.setPair_cfg (s : State) (p : Pair) (v : Word) : (s.setPair p v).cfg = s.cfg := by cases p <;> rfl
@[simp] theorem State.setPair_irqPort (s : State) (p : Pair) (v : Word) : (s.setPair p v).irqPort = s.irqPort := by cases p <;> rfl
@[simp] theorem State.setPair_irq (s : State) (p : Pair) (v : Word) : (s.setPair p v).irq = s.irq := by cases p <;> rfl
@[simp] theorem State.setPair_irqAck (s : State) (p : Pair) (v : Word) : (s.setPair p v).irqAck = s.irqAck := by cases p <;> rfl

/-! ### setStackPair -/

@[simp] theorem State.setStackPair_sp (s : State) (q : StackPair) (v : Word) : (s.setStackPair q v).sp = s.sp := by cases q <;> rfl
@[simp] theorem State.setStackPair_pc (s : State) (q : StackPair) (v : Word) : (s.setStackPair q v).pc = s.pc := by cases q <;> rfl
@[simp] theorem State.setStackPair_ime (s : State) (q : StackPair) (v : Word) : (s.setStackPair q v).ime = s.ime := by cases q <;> rfl
@[simp] theorem State.setStackPair_halt (s : State) (q : StackPair) (v : Word) : (s.setStackPair q v).halt = s.halt := by cases q <;> rfl
@[simp] theorem State.setStackPair_stop (s : State) (q : StackPair) (v : Word) : (s.setStackPair q v).stop = s.stop := by cases q <;> rfl
@[simp] theorem State.setStackPair_eiDelay (s : State) (q : StackPair) (v : Word) : (s.setStackPair q v).eiDelay = s.eiDelay := by cases q <;> rfl
@[simp] theorem State.setStackPair_fault (s : State) (q : StackPair) (v : Word) : (s.setStackPair q v).fault = s.fault := by cases q <;> rfl
@[simp] theorem State.setStackPair_cycles (s : State) (q : StackPair) (v : Word) : (s.setStackPair q v).cycles = s.cycles := by cases q <;> rfl
@[simp] theorem State.setStackPair_mem (s : State) (q : StackPair) (v : Word) : (s.setStackPair q v).mem = s.mem := by cases q <;> rfl
@[simp] theorem State.setStackPair_cfg (s : State) (q : StackPair) (v : Word) : (s.setStackPair q v).cfg = s.cfg := by cases q <;> rfl
@[simp] theorem State.setStackPair_irqPort (s : State) (q : StackPair) (v : Word) : (s.setStackPair q v).irqPort = s.irqPort := by cases q <;> rfl
@[simp] theorem State.setStackPair_irq (s : State) (q : StackPair) (v : Word) : (s.setStackPair q v).irq = s.irq := by cases q <;> rfl
@[simp] theorem State.setStackPair_irqAck (s : State) (q : StackPair) (v : Word) : (s.setStackPair q v).irqAck = s.irqAck := by cases q <;> rfl

/-! ### fetched -/

@[simp] theorem State.fetched_a (s : State) (n : Nat) : (s.fetched n).a = s.a := rfl
@[simp] theorem State.fetched_f (s : State) (n : Nat) : (s.fetched n).f = s.f := rfl
@[simp] theorem State.fetched_b (s : State) (n : Nat) : (s.fetched n).b = s.b := rfl
@[simp] theorem State.fetched_c (s : State) (n : Nat) : (s.fetched n).c = s.c := rfl
@[simp] theorem State.fetched_d (s : State) (n : Nat) : (s.fetched n).d = s.d := rfl
@[simp] theorem State.fetched_e (s : State) (n : Nat) : (s.fetched n).e = s.e := rfl
@[simp] theorem State.fetched_h (s : State) (n : Nat) : (s.fetched n).h = s.h := rfl
@[simp] theorem State.fetched_l (s : State) (n : Nat) : (s.fetched n).l = s.l := rfl
@[simp] theorem State.fetched_sp (s : State) (n : Nat) : (s.fetched n).sp = s.sp := rfl
@[simp] theorem State.fetched_pc (s : State) (n : Nat) : (s.fetched n).pc = s.pc + BitVec.ofNat 16 n := rfl
@[simp] theorem State.fetched_ime (s : State) (n : Nat) : (s.fetched n).ime = s.ime := rfl
@[simp] theorem State.fetched_halt (s : State) (n : Nat) : (s.fetched n).halt = s.halt := rfl
@[simp] theorem State.fetched_stop (s : State) (n : Nat) : (s.fetched n).stop = s.stop := rfl
@[simp] theorem State.fetched_eiDelay (s : State) (n : Nat) : (s.fetched n).eiDelay = false := rfl
@[simp] theorem State.fetched_fault (s : State) (n : Nat) : (s.fetched n).fault = s.fault := rfl
@[simp] theorem State.fetched_cycles (s : State) (n : Nat) : (s.fetched n).cycles = s.cycles := rfl
@[simp] theorem State.fetched_mem (s : State) (n : Nat) : (s.fetched n).mem = s.mem := rfl
@[simp] theorem State.fetched_cfg (s : State) (n : Nat) : (s.fetched n).cfg = s.cfg := rfl
@[simp] theorem State.fetched_irqPort (s : State) (n : Nat) : (s.fetched n).irqPort = s.irqPort := rfl
@[simp] theorem State.fetched_irq (s : State) (n : Nat) : (s.fetched n).irq = s.irq := rfl
@[simp] theorem State.fetched_irqAck (s : State) (n : Nat) : (s.fetched n).irqAck = s.irqAck := rfl

/-! ### charge -/

@[simp] theorem State.charge_a (s : State) (k : Nat) : (s.charge k).a = s.a := rfl
@[simp] theorem State.charge_f (s : State) (k : Nat) : (s.charge k).f = s.f := rfl
@[simp] theorem State.charge_b (s : State) (k : Nat) : (s.charge k).b = s.b := rfl
@[simp] theorem State.charge_c (s : State) (k : Nat) : (s.charge k).c = s.c := rfl
@[simp] theorem State.charge_d (s : State) (k : Nat) : (s.charge k).d = s.d := rfl
@[simp] theorem State.charge_e (s : State) (k : Nat) : (s.charge k).e = s.e := rfl
@[simp] theorem State.charge_h (s : State) (k : Nat) : (s.charge k).h = s.h := rfl
@[simp] theorem State.charge_l (s : State) (k : Nat) : (s.charge k).l = s.l := rfl
@[simp] theorem State.charge_sp (s : State) (k : Nat) : (s.charge k).sp = s.sp := rfl
@[simp] theorem State.charge_pc (s : State) (k : Nat) : (s.charge k).pc = s.pc := rfl
@[simp] theorem State.charge_ime (s : State) (k : Nat) : (s.charge k).ime = s.ime := rfl
@[simp] theorem State.charge_halt (s : State) (k : Nat) : (s.charge k).halt = s.halt := rfl
@[simp] theorem State.charge_stop (s : State) (k : Nat) : (s.charge k).stop = s.stop := rfl
@[simp] theorem State.charge_eiDelay (s : State) (k : Nat) : (s.charge k).eiDelay = s.eiDelay := rfl
@[simp] theorem State.charge_fault (s : State) (k : Nat) : (s.charge k).fault = s.fault := rfl
@[simp] theorem State.charge_cycles (s : State) (k : Nat) : (s.charge k).cycles = s.cycles + k := rfl
@[simp] theorem State.charge_mem (s : State) (k : Nat) : (s.charge k).mem = s.mem := rfl
@[simp] theorem State.charge_cfg (s : State) (k : Nat) : (s.charge k).cfg = s.cfg := rfl
@[simp] theorem State.charge_irqPort (s : State) (k : Nat) : (s.charge k).irqPort = s.irqPort := rfl
@[simp] theorem State.charge_irq (s : State) (k : Nat) : (s.charge k).irq = s.irq := rfl
@[simp] theorem State.charge_irqAck (s : State) (k : Nat) : (s.charge k).irqAck = s.irqAck := rfl

/-! ### jump -/

@[simp] theorem State.jump_a (s : State) (target : Word) : (s.jump target).a = s.a := rfl
@[simp] theorem State.jump_f (s : State) (target : Word) : (s.jump target).f = s.f := rfl
@[simp] theorem State.jump_b (s : State) (target : Word) : (s.jump target).b = s.b := rfl
@[simp] theorem State.jump_c (s : State) (target : Word) : (s.jump target).c = s.c := rfl
@[simp] theorem State.jump_d (s : State) (target : Word) : (s.jump target).d = s.d := rfl
@[simp] theorem State.jump_e (s : State) (target : Word) : (s.jump target).e = s.e := rfl
@[simp] theorem State.jump_h (s : State) (target : Word) : (s.jump target).h = s.h := rfl
@[simp] theorem State.jump_l (s : State) (target : Word) : (s.jump target).l = s.l := rfl
@[simp] theorem State.jump_sp (s : State) (target : Word) : (s.jump target).sp = s.sp := rfl
@[simp] theorem State.jump_pc (s : State) (target : Word) : (s.jump target).pc = target := rfl
@[simp] theorem State.jump_ime (s : State) (target : Word) : (s.jump target).ime = s.ime := rfl
@[simp] theorem State.jump_halt (s : State) (target : Word) : (s.jump target).halt = s.halt := rfl
@[simp] theorem State.jump_stop (s : State) (target : Word) : (s.jump target).stop = s.stop := rfl
@[simp] theorem State.jump_eiDelay (s : State) (target : Word) : (s.jump target).eiDelay = s.eiDelay := rfl
@[simp] theorem State.jump_fault (s : State) (target : Word) : (s.jump target).fault = s.fault := rfl
@[simp] theorem State.jump_cycles (s : State) (target : Word) : (s.jump target).cycles = s.cycles := rfl
@[simp] theorem State.jump_mem (s : State) (target : Word) : (s.jump target).mem = s.mem := rfl
@[simp] theorem State.jump_cfg (s : State) (target : Word) : (s.jump target).cfg = s.cfg := rfl
@[simp] theorem State.jump_irqPort (s : State) (target : Word) : (s.jump target).irqPort = s.irqPort := rfl
@[simp] theorem State.jump_irq (s : State) (target : Word) : (s.jump target).irq = s.irq := rfl
@[simp] theorem State.jump_irqAck (s : State) (target : Word) : (s.jump target).irqAck = s.irqAck := rfl

/-! ### push16 -/

@[simp] theorem State.push16_a (s : State) (v : Word) : (s.push16 v).a = s.a := rfl
@[simp] theorem State.push16_f (s : State) (v : Word) : (s.push16 v).f = s.f := rfl
@[simp] theorem State.push16_b (s : State) (v : Word) : (s.push16 v).b = s.b := rfl
@[simp] theorem State.push16_c (s : State) (v : Word) : (s.push16 v).c = s.c := rfl
@[simp] theorem State.push16_d (s : State) (v : Word) : (s.push16 v).d = s.d := rfl
@[simp] theorem State.push16_e (s : State) (v : Word) : (s.push16 v).e = s.e := rfl
@[simp] theorem State.push16_h (s : State) (v : Word) : (s.push16 v).h = s.h := rfl
@[simp] theorem State.push16_l (s : State) (v : Word) : (s.push16 v).l = s.l := rfl
@[simp] theorem State.push16_pc (s : State) (v : Word) : (s.push16 v).pc = s.pc := rfl
@[simp] theorem State.push16_ime (s : State) (v : Word) : (s.push16 v).ime = s.ime := rfl
@[simp] theorem State.push16_halt (s : State) (v : Word) : (s.push16 v).halt = s.halt := rfl
@[simp] theorem State.push16_stop (s : State) (v : Word) : (s.push16 v).stop = s.stop := rfl
@[simp] theorem State.push16_eiDelay (s : State) (v : Word) : (s.push16 v).eiDelay = s.eiDelay := rfl
@[simp] theorem State.push16_fault (s : State) (v : Word) : (s.push16 v).fault = s.fault := rfl
@[simp] theorem State.push16_cycles (s : State) (v : Word) : (s.push16 v).cycles = s.cycles := rfl
@[simp] theorem State.push16_cfg (s : State) (v : Word) : (s.push16 v).cfg = s.cfg := rfl
@[simp] theorem State.push16_irqPort (s : State) (v : Word) : (s.push16 v).irqPort = s.irqPort := rfl
@[simp] theorem State.push16_irq (s : State) (v : Word) : (s.push16 v).irq = s.irq := rfl
@[simp] theorem State.push16_irqAck (s : State) (v : Word) : (s.push16 v).irqAck = s.irqAck := rfl

/-! ### popped -/

@[simp] theorem State.popped_a (s : State) : (s.popped).a = s.a := rfl
@[simp] theorem State.popped_f (s : State) : (s.popped).f = s.f := rfl
@[simp] theorem State.popped_b (s : State) : (s.popped).b = s.b := rfl
@[simp] theorem State.popped_c (s : State) : (s.popped).c = s.c := rfl
@[simp] theorem State.popped_d (s : State) : (s.popped).d = s.d := rfl
@[simp] theorem State.popped_e (s : State) : (s.popped).e = s.e := rfl
@[simp] theorem State.popped_h (s : State) : (s.popped).h = s.h := rfl
@[simp] theorem State.popped_l (s : State) : (s.popped).l = s.l := rfl
@[simp] theorem State.popped_sp (s : State) : (s.popped).sp = s.sp + 2 := rfl
@[simp] theorem State.popped_pc (s : State) : (s.popped).pc = s.pc := rfl
@[simp] theorem State.popped_ime (s : State) : (s.popped).ime = s.ime := rfl
@[simp] theorem State.popped_halt (s : State) : (s.popped).halt = s.halt := rfl
@[simp] theorem State.popped_stop (s : State) : (s.popped).stop = s.stop := rfl
@[simp] theorem State.popped_eiDelay (s : State) : (s.popped).eiDelay = s.eiDelay := rfl
@[simp] theorem State.popped_fault (s : State) : (s.popped).fault = s.fault := rfl
@[simp] theorem State.popped_cycles (s : State) : (s.popped).cycles = s.cycles := rfl
@[simp] theorem State.popped_mem (s : State) : (s.popped).mem = s.mem := rfl
@[simp] theorem State.popped_cfg (s : State) : (s.popped).cfg = s.cfg := rfl
@[simp] theorem State.popped_irqPort (s : State) : (s.popped).irqPort = s.irqPort := rfl
@[simp] theorem State.popped_irq (s : State) : (s.popped).irq = s.irq := rfl
@[simp] theorem State.popped_irqAck (s : State) : (s.popped).irqAck = s.irqAck := rfl

/-! ### popPc -/

@[simp] theorem State.popPc_a (s : State) : (s.popPc).a = s.a := rfl
@[simp] theorem State.popPc_f (s : State) : (s.popPc).f = s.f := rfl
@[simp] theorem State.popPc_b (s : State) : (s.popPc).b = s.b := rfl
@[simp] theorem State.popPc_c (s : State) : (s.popPc).c = s.c := rfl
@[simp] theorem State.popPc_d (s : State) : (s.popPc).d = s.d := rfl
@[simp] theorem State.popPc_e (s : State) : (s.popPc).e = s.e := rfl
@[simp] theorem State.popPc_h (s : State) : (s.popPc).h = s.h := rfl
@[simp] theorem State.popPc_l (s : State) : (s.popPc).l = s.l := rfl
@[simp] theorem State.popPc_sp (s : State) : (s.popPc).sp = s.sp + 2 := rfl
@[simp] theorem State.popPc_pc (s : State) : (s.popPc).pc = s.popValue := rfl
@[simp] theorem State.popPc_ime (s : State) : (s.popPc).ime = s.ime := rfl
@[simp] theorem State.popPc_halt (s : State) : (s.popPc).halt = s.halt := rfl
@[simp] theorem State.popPc_stop (s : State) : (s.popPc).stop = s.stop := rfl
@[simp] theorem State.popPc_eiDelay (s : State) : (s.popPc).eiDelay = s.eiDelay := rfl
@[simp] theorem State.popPc_fault (s : State) : (s.popPc).fault = s.fault := rfl
@[simp] theorem State.popPc_cycles (s : State) : (s.popPc).cycles = s.cycles := rfl
@[simp] theorem State.popPc_mem (s : State) : (s.popPc).mem = s.mem := rfl
@[simp] theorem State.popPc_cfg (s : State) : (s.popPc).cfg = s.cfg := rfl
@[simp] theorem State.popPc_irqPort (s : State) : (s.popPc).irqPort = s.irqPort := rfl
@[simp] theorem State.popPc_irq (s : State) : (s.popPc).irq = s.irq := rfl
@[simp] theorem State.popPc_irqAck (s : State) : (s.popPc).irqAck = s.irqAck := rfl

/-! ### raise -/

@[simp] theorem State.raise_a (s : State) (r : FaultRecord) : (s.raise r).a = s.a := rfl
@[simp] theorem State.raise_f (s : State) (r : FaultRecord) : (s.raise r).f = s.f := rfl
@[simp] theorem State.raise_b (s : State) (r : FaultRecord) : (s.raise r).b = s.b := rfl
@[simp] theorem State.raise_c (s : State) (r : FaultRecord) : (s.raise r).c = s.c := rfl
@[simp] theorem State.raise_d (s : State) (r : FaultRecord) : (s.raise r).d = s.d := rfl
@[simp] theorem State.raise_e (s : State) (r : FaultRecord) : (s.raise r).e = s.e := rfl
@[simp] theorem State.raise_h (s : State) (r : FaultRecord) : (s.raise r).h = s.h := rfl
@[simp] theorem State.raise_l (s : State) (r : FaultRecord) : (s.raise r).l = s.l := rfl
@[simp] theorem State.raise_sp (s : State) (r : FaultRecord) : (s.raise r).sp = s.sp := rfl
@[simp] theorem State.raise_pc (s : State) (r : FaultRecord) : (s.raise r).pc = s.pc := rfl
@[simp] theorem State.raise_ime (s : State) (r : FaultRecord) : (s.raise r).ime = s.ime := rfl
@[simp] theorem State.raise_halt (s : State) (r : FaultRecord) : (s.raise r).halt = s.halt := rfl
@[simp] theorem State.raise_stop (s : State) (r : FaultRecord) : (s.raise r).stop = s.stop := rfl
@[simp] theorem State.raise_eiDelay (s : State) (r : FaultRecord) : (s.raise r).eiDelay = s.eiDelay := rfl
@[simp] theorem State.raise_fault (s : State) (r : FaultRecord) : (s.raise r).fault = some r := rfl
@[simp] theorem State.raise_cycles (s : State) (r : FaultRecord) : (s.raise r).cycles = s.cycles := rfl
@[simp] theorem State.raise_mem (s : State) (r : FaultRecord) : (s.raise r).mem = s.mem := rfl
@[simp] theorem State.raise_cfg (s : State) (r : FaultRecord) : (s.raise r).cfg = s.cfg := rfl
@[simp] theorem State.raise_irqPort (s : State) (r : FaultRecord) : (s.raise r).irqPort = s.irqPort := rfl
@[simp] theorem State.raise_irq (s : State) (r : FaultRecord) : (s.raise r).irq = s.irq := rfl
@[simp] theorem State.raise_irqAck (s : State) (r : FaultRecord) : (s.raise r).irqAck = s.irqAck := rfl

/-! ### takeInterrupt -/

@[simp] theorem State.takeInterrupt_a (s : State) (k : IrqNum) : (s.takeInterrupt k).a = s.a := rfl
@[simp] theorem State.takeInterrupt_f (s : State) (k : IrqNum) : (s.takeInterrupt k).f = s.f := rfl
@[simp] theorem State.takeInterrupt_b (s : State) (k : IrqNum) : (s.takeInterrupt k).b = s.b := rfl
@[simp] theorem State.takeInterrupt_c (s : State) (k : IrqNum) : (s.takeInterrupt k).c = s.c := rfl
@[simp] theorem State.takeInterrupt_d (s : State) (k : IrqNum) : (s.takeInterrupt k).d = s.d := rfl
@[simp] theorem State.takeInterrupt_e (s : State) (k : IrqNum) : (s.takeInterrupt k).e = s.e := rfl
@[simp] theorem State.takeInterrupt_h (s : State) (k : IrqNum) : (s.takeInterrupt k).h = s.h := rfl
@[simp] theorem State.takeInterrupt_l (s : State) (k : IrqNum) : (s.takeInterrupt k).l = s.l := rfl
@[simp] theorem State.takeInterrupt_pc (s : State) (k : IrqNum) : (s.takeInterrupt k).pc = irqVector k := rfl
@[simp] theorem State.takeInterrupt_ime (s : State) (k : IrqNum) : (s.takeInterrupt k).ime = false := rfl
@[simp] theorem State.takeInterrupt_halt (s : State) (k : IrqNum) : (s.takeInterrupt k).halt = s.halt := rfl
@[simp] theorem State.takeInterrupt_stop (s : State) (k : IrqNum) : (s.takeInterrupt k).stop = s.stop := rfl
@[simp] theorem State.takeInterrupt_eiDelay (s : State) (k : IrqNum) : (s.takeInterrupt k).eiDelay = s.eiDelay := rfl
@[simp] theorem State.takeInterrupt_fault (s : State) (k : IrqNum) : (s.takeInterrupt k).fault = s.fault := rfl
@[simp] theorem State.takeInterrupt_cycles (s : State) (k : IrqNum) : (s.takeInterrupt k).cycles = s.cycles + 20 := rfl
@[simp] theorem State.takeInterrupt_cfg (s : State) (k : IrqNum) : (s.takeInterrupt k).cfg = s.cfg := rfl
@[simp] theorem State.takeInterrupt_irqPort (s : State) (k : IrqNum) : (s.takeInterrupt k).irqPort = s.irqPort := rfl
@[simp] theorem State.takeInterrupt_irq (s : State) (k : IrqNum) : (s.takeInterrupt k).irq = s.irq := rfl
@[simp] theorem State.takeInterrupt_irqAck (s : State) (k : IrqNum) : (s.takeInterrupt k).irqAck = some k := rfl

/-! ### returnFromInterrupt -/

@[simp] theorem State.returnFromInterrupt_a (s : State) : (s.returnFromInterrupt).a = s.a := rfl
@[simp] theorem State.returnFromInterrupt_f (s : State) : (s.returnFromInterrupt).f = s.f := rfl
@[simp] theorem State.returnFromInterrupt_b (s : State) : (s.returnFromInterrupt).b = s.b := rfl
@[simp] theorem State.returnFromInterrupt_c (s : State) : (s.returnFromInterrupt).c = s.c := rfl
@[simp] theorem State.returnFromInterrupt_d (s : State) : (s.returnFromInterrupt).d = s.d := rfl
@[simp] theorem State.returnFromInterrupt_e (s : State) : (s.returnFromInterrupt).e = s.e := rfl
@[simp] theorem State.returnFromInterrupt_h (s : State) : (s.returnFromInterrupt).h = s.h := rfl
@[simp] theorem State.returnFromInterrupt_l (s : State) : (s.returnFromInterrupt).l = s.l := rfl
@[simp] theorem State.returnFromInterrupt_sp (s : State) : (s.returnFromInterrupt).sp = s.sp + 2 := rfl
@[simp] theorem State.returnFromInterrupt_pc (s : State) : (s.returnFromInterrupt).pc = s.popValue := rfl
@[simp] theorem State.returnFromInterrupt_ime (s : State) : (s.returnFromInterrupt).ime = true := rfl
@[simp] theorem State.returnFromInterrupt_halt (s : State) : (s.returnFromInterrupt).halt = s.halt := rfl
@[simp] theorem State.returnFromInterrupt_stop (s : State) : (s.returnFromInterrupt).stop = s.stop := rfl
@[simp] theorem State.returnFromInterrupt_eiDelay (s : State) : (s.returnFromInterrupt).eiDelay = s.eiDelay := rfl
@[simp] theorem State.returnFromInterrupt_fault (s : State) : (s.returnFromInterrupt).fault = s.fault := rfl
@[simp] theorem State.returnFromInterrupt_cycles (s : State) : (s.returnFromInterrupt).cycles = s.cycles := rfl
@[simp] theorem State.returnFromInterrupt_mem (s : State) : (s.returnFromInterrupt).mem = s.mem := rfl
@[simp] theorem State.returnFromInterrupt_cfg (s : State) : (s.returnFromInterrupt).cfg = s.cfg := rfl
@[simp] theorem State.returnFromInterrupt_irqPort (s : State) : (s.returnFromInterrupt).irqPort = s.irqPort := rfl
@[simp] theorem State.returnFromInterrupt_irq (s : State) : (s.returnFromInterrupt).irq = s.irq := rfl
@[simp] theorem State.returnFromInterrupt_irqAck (s : State) : (s.returnFromInterrupt).irqAck = s.irqAck := rfl

/-! ### setFlags -/

@[simp] theorem State.setFlags_a (s : State) (z n h c : Bool) : (s.setFlags z n h c).a = s.a := rfl
@[simp] theorem State.setFlags_b (s : State) (z n h c : Bool) : (s.setFlags z n h c).b = s.b := rfl
@[simp] theorem State.setFlags_c (s : State) (z n h c : Bool) : (s.setFlags z n h c).c = s.c := rfl
@[simp] theorem State.setFlags_d (s : State) (z n h c : Bool) : (s.setFlags z n h c).d = s.d := rfl
@[simp] theorem State.setFlags_e (s : State) (z n h c : Bool) : (s.setFlags z n h c).e = s.e := rfl
@[simp] theorem State.setFlags_h (s : State) (z n h c : Bool) : (s.setFlags z n h c).h = s.h := rfl
@[simp] theorem State.setFlags_l (s : State) (z n h c : Bool) : (s.setFlags z n h c).l = s.l := rfl
@[simp] theorem State.setFlags_sp (s : State) (z n h c : Bool) : (s.setFlags z n h c).sp = s.sp := rfl
@[simp] theorem State.setFlags_pc (s : State) (z n h c : Bool) : (s.setFlags z n h c).pc = s.pc := rfl
@[simp] theorem State.setFlags_ime (s : State) (z n h c : Bool) : (s.setFlags z n h c).ime = s.ime := rfl
@[simp] theorem State.setFlags_halt (s : State) (z n h c : Bool) : (s.setFlags z n h c).halt = s.halt := rfl
@[simp] theorem State.setFlags_stop (s : State) (z n h c : Bool) : (s.setFlags z n h c).stop = s.stop := rfl
@[simp] theorem State.setFlags_eiDelay (s : State) (z n h c : Bool) : (s.setFlags z n h c).eiDelay = s.eiDelay := rfl
@[simp] theorem State.setFlags_fault (s : State) (z n h c : Bool) : (s.setFlags z n h c).fault = s.fault := rfl
@[simp] theorem State.setFlags_cycles (s : State) (z n h c : Bool) : (s.setFlags z n h c).cycles = s.cycles := rfl
@[simp] theorem State.setFlags_mem (s : State) (z n h c : Bool) : (s.setFlags z n h c).mem = s.mem := rfl
@[simp] theorem State.setFlags_cfg (s : State) (z n h c : Bool) : (s.setFlags z n h c).cfg = s.cfg := rfl
@[simp] theorem State.setFlags_irqPort (s : State) (z n h c : Bool) : (s.setFlags z n h c).irqPort = s.irqPort := rfl
@[simp] theorem State.setFlags_irq (s : State) (z n h c : Bool) : (s.setFlags z n h c).irq = s.irq := rfl
@[simp] theorem State.setFlags_irqAck (s : State) (z n h c : Bool) : (s.setFlags z n h c).irqAck = s.irqAck := rfl

/-! ### applyFlags -/

@[simp] theorem State.applyFlags_a (s : State) (r : AluResult) : (s.applyFlags r).a = s.a := rfl
@[simp] theorem State.applyFlags_b (s : State) (r : AluResult) : (s.applyFlags r).b = s.b := rfl
@[simp] theorem State.applyFlags_c (s : State) (r : AluResult) : (s.applyFlags r).c = s.c := rfl
@[simp] theorem State.applyFlags_d (s : State) (r : AluResult) : (s.applyFlags r).d = s.d := rfl
@[simp] theorem State.applyFlags_e (s : State) (r : AluResult) : (s.applyFlags r).e = s.e := rfl
@[simp] theorem State.applyFlags_h (s : State) (r : AluResult) : (s.applyFlags r).h = s.h := rfl
@[simp] theorem State.applyFlags_l (s : State) (r : AluResult) : (s.applyFlags r).l = s.l := rfl
@[simp] theorem State.applyFlags_sp (s : State) (r : AluResult) : (s.applyFlags r).sp = s.sp := rfl
@[simp] theorem State.applyFlags_pc (s : State) (r : AluResult) : (s.applyFlags r).pc = s.pc := rfl
@[simp] theorem State.applyFlags_ime (s : State) (r : AluResult) : (s.applyFlags r).ime = s.ime := rfl
@[simp] theorem State.applyFlags_halt (s : State) (r : AluResult) : (s.applyFlags r).halt = s.halt := rfl
@[simp] theorem State.applyFlags_stop (s : State) (r : AluResult) : (s.applyFlags r).stop = s.stop := rfl
@[simp] theorem State.applyFlags_eiDelay (s : State) (r : AluResult) : (s.applyFlags r).eiDelay = s.eiDelay := rfl
@[simp] theorem State.applyFlags_fault (s : State) (r : AluResult) : (s.applyFlags r).fault = s.fault := rfl
@[simp] theorem State.applyFlags_cycles (s : State) (r : AluResult) : (s.applyFlags r).cycles = s.cycles := rfl
@[simp] theorem State.applyFlags_mem (s : State) (r : AluResult) : (s.applyFlags r).mem = s.mem := rfl
@[simp] theorem State.applyFlags_cfg (s : State) (r : AluResult) : (s.applyFlags r).cfg = s.cfg := rfl
@[simp] theorem State.applyFlags_irqPort (s : State) (r : AluResult) : (s.applyFlags r).irqPort = s.irqPort := rfl
@[simp] theorem State.applyFlags_irq (s : State) (r : AluResult) : (s.applyFlags r).irq = s.irq := rfl
@[simp] theorem State.applyFlags_irqAck (s : State) (r : AluResult) : (s.applyFlags r).irqAck = s.irqAck := rfl

/-! ### applyAlu -/

@[simp] theorem State.applyAlu_a (s : State) (r : AluResult) : (s.applyAlu r).a = r.res := rfl
@[simp] theorem State.applyAlu_b (s : State) (r : AluResult) : (s.applyAlu r).b = s.b := rfl
@[simp] theorem State.applyAlu_c (s : State) (r : AluResult) : (s.applyAlu r).c = s.c := rfl
@[simp] theorem State.applyAlu_d (s : State) (r : AluResult) : (s.applyAlu r).d = s.d := rfl
@[simp] theorem State.applyAlu_e (s : State) (r : AluResult) : (s.applyAlu r).e = s.e := rfl
@[simp] theorem State.applyAlu_h (s : State) (r : AluResult) : (s.applyAlu r).h = s.h := rfl
@[simp] theorem State.applyAlu_l (s : State) (r : AluResult) : (s.applyAlu r).l = s.l := rfl
@[simp] theorem State.applyAlu_sp (s : State) (r : AluResult) : (s.applyAlu r).sp = s.sp := rfl
@[simp] theorem State.applyAlu_pc (s : State) (r : AluResult) : (s.applyAlu r).pc = s.pc := rfl
@[simp] theorem State.applyAlu_ime (s : State) (r : AluResult) : (s.applyAlu r).ime = s.ime := rfl
@[simp] theorem State.applyAlu_halt (s : State) (r : AluResult) : (s.applyAlu r).halt = s.halt := rfl
@[simp] theorem State.applyAlu_stop (s : State) (r : AluResult) : (s.applyAlu r).stop = s.stop := rfl
@[simp] theorem State.applyAlu_eiDelay (s : State) (r : AluResult) : (s.applyAlu r).eiDelay = s.eiDelay := rfl
@[simp] theorem State.applyAlu_fault (s : State) (r : AluResult) : (s.applyAlu r).fault = s.fault := rfl
@[simp] theorem State.applyAlu_cycles (s : State) (r : AluResult) : (s.applyAlu r).cycles = s.cycles := rfl
@[simp] theorem State.applyAlu_mem (s : State) (r : AluResult) : (s.applyAlu r).mem = s.mem := rfl
@[simp] theorem State.applyAlu_cfg (s : State) (r : AluResult) : (s.applyAlu r).cfg = s.cfg := rfl
@[simp] theorem State.applyAlu_irqPort (s : State) (r : AluResult) : (s.applyAlu r).irqPort = s.irqPort := rfl
@[simp] theorem State.applyAlu_irq (s : State) (r : AluResult) : (s.applyAlu r).irq = s.irq := rfl
@[simp] theorem State.applyAlu_irqAck (s : State) (r : AluResult) : (s.applyAlu r).irqAck = s.irqAck := rfl

/-! ### applyWideFlags -/

@[simp] theorem State.applyWideFlags_a (s : State) (r : WideResult) : (s.applyWideFlags r).a = s.a := rfl
@[simp] theorem State.applyWideFlags_b (s : State) (r : WideResult) : (s.applyWideFlags r).b = s.b := rfl
@[simp] theorem State.applyWideFlags_c (s : State) (r : WideResult) : (s.applyWideFlags r).c = s.c := rfl
@[simp] theorem State.applyWideFlags_d (s : State) (r : WideResult) : (s.applyWideFlags r).d = s.d := rfl
@[simp] theorem State.applyWideFlags_e (s : State) (r : WideResult) : (s.applyWideFlags r).e = s.e := rfl
@[simp] theorem State.applyWideFlags_h (s : State) (r : WideResult) : (s.applyWideFlags r).h = s.h := rfl
@[simp] theorem State.applyWideFlags_l (s : State) (r : WideResult) : (s.applyWideFlags r).l = s.l := rfl
@[simp] theorem State.applyWideFlags_sp (s : State) (r : WideResult) : (s.applyWideFlags r).sp = s.sp := rfl
@[simp] theorem State.applyWideFlags_pc (s : State) (r : WideResult) : (s.applyWideFlags r).pc = s.pc := rfl
@[simp] theorem State.applyWideFlags_ime (s : State) (r : WideResult) : (s.applyWideFlags r).ime = s.ime := rfl
@[simp] theorem State.applyWideFlags_halt (s : State) (r : WideResult) : (s.applyWideFlags r).halt = s.halt := rfl
@[simp] theorem State.applyWideFlags_stop (s : State) (r : WideResult) : (s.applyWideFlags r).stop = s.stop := rfl
@[simp] theorem State.applyWideFlags_eiDelay (s : State) (r : WideResult) : (s.applyWideFlags r).eiDelay = s.eiDelay := rfl
@[simp] theorem State.applyWideFlags_fault (s : State) (r : WideResult) : (s.applyWideFlags r).fault = s.fault := rfl
@[simp] theorem State.applyWideFlags_cycles (s : State) (r : WideResult) : (s.applyWideFlags r).cycles = s.cycles := rfl
@[simp] theorem State.applyWideFlags_mem (s : State) (r : WideResult) : (s.applyWideFlags r).mem = s.mem := rfl
@[simp] theorem State.applyWideFlags_cfg (s : State) (r : WideResult) : (s.applyWideFlags r).cfg = s.cfg := rfl
@[simp] theorem State.applyWideFlags_irqPort (s : State) (r : WideResult) : (s.applyWideFlags r).irqPort = s.irqPort := rfl
@[simp] theorem State.applyWideFlags_irq (s : State) (r : WideResult) : (s.applyWideFlags r).irq = s.irq := rfl
@[simp] theorem State.applyWideFlags_irqAck (s : State) (r : WideResult) : (s.applyWideFlags r).irqAck = s.irqAck := rfl

/-! ### rotFlags -/

@[simp] theorem State.rotFlags_a (s : State) (z : Bool) (x : RotResult) : (s.rotFlags z x).a = s.a := rfl
@[simp] theorem State.rotFlags_b (s : State) (z : Bool) (x : RotResult) : (s.rotFlags z x).b = s.b := rfl
@[simp] theorem State.rotFlags_c (s : State) (z : Bool) (x : RotResult) : (s.rotFlags z x).c = s.c := rfl
@[simp] theorem State.rotFlags_d (s : State) (z : Bool) (x : RotResult) : (s.rotFlags z x).d = s.d := rfl
@[simp] theorem State.rotFlags_e (s : State) (z : Bool) (x : RotResult) : (s.rotFlags z x).e = s.e := rfl
@[simp] theorem State.rotFlags_h (s : State) (z : Bool) (x : RotResult) : (s.rotFlags z x).h = s.h := rfl
@[simp] theorem State.rotFlags_l (s : State) (z : Bool) (x : RotResult) : (s.rotFlags z x).l = s.l := rfl
@[simp] theorem State.rotFlags_sp (s : State) (z : Bool) (x : RotResult) : (s.rotFlags z x).sp = s.sp := rfl
@[simp] theorem State.rotFlags_pc (s : State) (z : Bool) (x : RotResult) : (s.rotFlags z x).pc = s.pc := rfl
@[simp] theorem State.rotFlags_ime (s : State) (z : Bool) (x : RotResult) : (s.rotFlags z x).ime = s.ime := rfl
@[simp] theorem State.rotFlags_halt (s : State) (z : Bool) (x : RotResult) : (s.rotFlags z x).halt = s.halt := rfl
@[simp] theorem State.rotFlags_stop (s : State) (z : Bool) (x : RotResult) : (s.rotFlags z x).stop = s.stop := rfl
@[simp] theorem State.rotFlags_eiDelay (s : State) (z : Bool) (x : RotResult) : (s.rotFlags z x).eiDelay = s.eiDelay := rfl
@[simp] theorem State.rotFlags_fault (s : State) (z : Bool) (x : RotResult) : (s.rotFlags z x).fault = s.fault := rfl
@[simp] theorem State.rotFlags_cycles (s : State) (z : Bool) (x : RotResult) : (s.rotFlags z x).cycles = s.cycles := rfl
@[simp] theorem State.rotFlags_mem (s : State) (z : Bool) (x : RotResult) : (s.rotFlags z x).mem = s.mem := rfl
@[simp] theorem State.rotFlags_cfg (s : State) (z : Bool) (x : RotResult) : (s.rotFlags z x).cfg = s.cfg := rfl
@[simp] theorem State.rotFlags_irqPort (s : State) (z : Bool) (x : RotResult) : (s.rotFlags z x).irqPort = s.irqPort := rfl
@[simp] theorem State.rotFlags_irq (s : State) (z : Bool) (x : RotResult) : (s.rotFlags z x).irq = s.irq := rfl
@[simp] theorem State.rotFlags_irqAck (s : State) (z : Bool) (x : RotResult) : (s.rotFlags z x).irqAck = s.irqAck := rfl

/-! ### accRotate -/

@[simp] theorem State.accRotate_a (s : State) (x : RotResult) : (s.accRotate x).a = x.r := rfl
@[simp] theorem State.accRotate_b (s : State) (x : RotResult) : (s.accRotate x).b = s.b := rfl
@[simp] theorem State.accRotate_c (s : State) (x : RotResult) : (s.accRotate x).c = s.c := rfl
@[simp] theorem State.accRotate_d (s : State) (x : RotResult) : (s.accRotate x).d = s.d := rfl
@[simp] theorem State.accRotate_e (s : State) (x : RotResult) : (s.accRotate x).e = s.e := rfl
@[simp] theorem State.accRotate_h (s : State) (x : RotResult) : (s.accRotate x).h = s.h := rfl
@[simp] theorem State.accRotate_l (s : State) (x : RotResult) : (s.accRotate x).l = s.l := rfl
@[simp] theorem State.accRotate_sp (s : State) (x : RotResult) : (s.accRotate x).sp = s.sp := rfl
@[simp] theorem State.accRotate_pc (s : State) (x : RotResult) : (s.accRotate x).pc = s.pc := rfl
@[simp] theorem State.accRotate_ime (s : State) (x : RotResult) : (s.accRotate x).ime = s.ime := rfl
@[simp] theorem State.accRotate_halt (s : State) (x : RotResult) : (s.accRotate x).halt = s.halt := rfl
@[simp] theorem State.accRotate_stop (s : State) (x : RotResult) : (s.accRotate x).stop = s.stop := rfl
@[simp] theorem State.accRotate_eiDelay (s : State) (x : RotResult) : (s.accRotate x).eiDelay = s.eiDelay := rfl
@[simp] theorem State.accRotate_fault (s : State) (x : RotResult) : (s.accRotate x).fault = s.fault := rfl
@[simp] theorem State.accRotate_cycles (s : State) (x : RotResult) : (s.accRotate x).cycles = s.cycles := rfl
@[simp] theorem State.accRotate_mem (s : State) (x : RotResult) : (s.accRotate x).mem = s.mem := rfl
@[simp] theorem State.accRotate_cfg (s : State) (x : RotResult) : (s.accRotate x).cfg = s.cfg := rfl
@[simp] theorem State.accRotate_irqPort (s : State) (x : RotResult) : (s.accRotate x).irqPort = s.irqPort := rfl
@[simp] theorem State.accRotate_irq (s : State) (x : RotResult) : (s.accRotate x).irq = s.irq := rfl
@[simp] theorem State.accRotate_irqAck (s : State) (x : RotResult) : (s.accRotate x).irqAck = s.irqAck := rfl

/-! ### bitFlags -/

@[simp] theorem State.bitFlags_a (s : State) (b : Nat) (v : Byte) : (s.bitFlags b v).a = s.a := rfl
@[simp] theorem State.bitFlags_b (s : State) (b : Nat) (v : Byte) : (s.bitFlags b v).b = s.b := rfl
@[simp] theorem State.bitFlags_c (s : State) (b : Nat) (v : Byte) : (s.bitFlags b v).c = s.c := rfl
@[simp] theorem State.bitFlags_d (s : State) (b : Nat) (v : Byte) : (s.bitFlags b v).d = s.d := rfl
@[simp] theorem State.bitFlags_e (s : State) (b : Nat) (v : Byte) : (s.bitFlags b v).e = s.e := rfl
@[simp] theorem State.bitFlags_h (s : State) (b : Nat) (v : Byte) : (s.bitFlags b v).h = s.h := rfl
@[simp] theorem State.bitFlags_l (s : State) (b : Nat) (v : Byte) : (s.bitFlags b v).l = s.l := rfl
@[simp] theorem State.bitFlags_sp (s : State) (b : Nat) (v : Byte) : (s.bitFlags b v).sp = s.sp := rfl
@[simp] theorem State.bitFlags_pc (s : State) (b : Nat) (v : Byte) : (s.bitFlags b v).pc = s.pc := rfl
@[simp] theorem State.bitFlags_ime (s : State) (b : Nat) (v : Byte) : (s.bitFlags b v).ime = s.ime := rfl
@[simp] theorem State.bitFlags_halt (s : State) (b : Nat) (v : Byte) : (s.bitFlags b v).halt = s.halt := rfl
@[simp] theorem State.bitFlags_stop (s : State) (b : Nat) (v : Byte) : (s.bitFlags b v).stop = s.stop := rfl
@[simp] theorem State.bitFlags_eiDelay (s : State) (b : Nat) (v : Byte) : (s.bitFlags b v).eiDelay = s.eiDelay := rfl
@[simp] theorem State.bitFlags_fault (s : State) (b : Nat) (v : Byte) : (s.bitFlags b v).fault = s.fault := rfl
@[simp] theorem State.bitFlags_cycles (s : State) (b : Nat) (v : Byte) : (s.bitFlags b v).cycles = s.cycles := rfl
@[simp] theorem State.bitFlags_mem (s : State) (b : Nat) (v : Byte) : (s.bitFlags b v).mem = s.mem := rfl
@[simp] theorem State.bitFlags_cfg (s : State) (b : Nat) (v : Byte) : (s.bitFlags b v).cfg = s.cfg := rfl
@[simp] theorem State.bitFlags_irqPort (s : State) (b : Nat) (v : Byte) : (s.bitFlags b v).irqPort = s.irqPort := rfl
@[simp] theorem State.bitFlags_irq (s : State) (b : Nat) (v : Byte) : (s.bitFlags b v).irq = s.irq := rfl
@[simp] theorem State.bitFlags_irqAck (s : State) (b : Nat) (v : Byte) : (s.bitFlags b v).irqAck = s.irqAck := rfl

/-! ### setAtHl -/

@[simp] theorem State.setAtHl_a (s : State) (v : Byte) : (s.setAtHl v).a = s.a := rfl
@[simp] theorem State.setAtHl_f (s : State) (v : Byte) : (s.setAtHl v).f = s.f := rfl
@[simp] theorem State.setAtHl_b (s : State) (v : Byte) : (s.setAtHl v).b = s.b := rfl
@[simp] theorem State.setAtHl_c (s : State) (v : Byte) : (s.setAtHl v).c = s.c := rfl
@[simp] theorem State.setAtHl_d (s : State) (v : Byte) : (s.setAtHl v).d = s.d := rfl
@[simp] theorem State.setAtHl_e (s : State) (v : Byte) : (s.setAtHl v).e = s.e := rfl
@[simp] theorem State.setAtHl_h (s : State) (v : Byte) : (s.setAtHl v).h = s.h := rfl
@[simp] theorem State.setAtHl_l (s : State) (v : Byte) : (s.setAtHl v).l = s.l := rfl
@[simp] theorem State.setAtHl_sp (s : State) (v : Byte) : (s.setAtHl v).sp = s.sp := rfl
@[simp] theorem State.setAtHl_pc (s : State) (v : Byte) : (s.setAtHl v).pc = s.pc := rfl
@[simp] theorem State.setAtHl_ime (s : State) (v : Byte) : (s.setAtHl v).ime = s.ime := rfl
@[simp] theorem State.setAtHl_halt (s : State) (v : Byte) : (s.setAtHl v).halt = s.halt := rfl
@[simp] theorem State.setAtHl_stop (s : State) (v : Byte) : (s.setAtHl v).stop = s.stop := rfl
@[simp] theorem State.setAtHl_eiDelay (s : State) (v : Byte) : (s.setAtHl v).eiDelay = s.eiDelay := rfl
@[simp] theorem State.setAtHl_fault (s : State) (v : Byte) : (s.setAtHl v).fault = s.fault := rfl
@[simp] theorem State.setAtHl_cycles (s : State) (v : Byte) : (s.setAtHl v).cycles = s.cycles := rfl
@[simp] theorem State.setAtHl_mem (s : State) (v : Byte) : (s.setAtHl v).mem = s.mem.write s.hl.toNat v := rfl
@[simp] theorem State.setAtHl_cfg (s : State) (v : Byte) : (s.setAtHl v).cfg = s.cfg := rfl
@[simp] theorem State.setAtHl_irqPort (s : State) (v : Byte) : (s.setAtHl v).irqPort = s.irqPort := rfl
@[simp] theorem State.setAtHl_irq (s : State) (v : Byte) : (s.setAtHl v).irq = s.irq := rfl
@[simp] theorem State.setAtHl_irqAck (s : State) (v : Byte) : (s.setAtHl v).irqAck = s.irqAck := rfl

/-! ### rotHl -/

@[simp] theorem State.rotHl_a (s : State) (x : RotResult) : (s.rotHl x).a = s.a := rfl
@[simp] theorem State.rotHl_b (s : State) (x : RotResult) : (s.rotHl x).b = s.b := rfl
@[simp] theorem State.rotHl_c (s : State) (x : RotResult) : (s.rotHl x).c = s.c := rfl
@[simp] theorem State.rotHl_d (s : State) (x : RotResult) : (s.rotHl x).d = s.d := rfl
@[simp] theorem State.rotHl_e (s : State) (x : RotResult) : (s.rotHl x).e = s.e := rfl
@[simp] theorem State.rotHl_h (s : State) (x : RotResult) : (s.rotHl x).h = s.h := rfl
@[simp] theorem State.rotHl_l (s : State) (x : RotResult) : (s.rotHl x).l = s.l := rfl
@[simp] theorem State.rotHl_sp (s : State) (x : RotResult) : (s.rotHl x).sp = s.sp := rfl
@[simp] theorem State.rotHl_pc (s : State) (x : RotResult) : (s.rotHl x).pc = s.pc := rfl
@[simp] theorem State.rotHl_ime (s : State) (x : RotResult) : (s.rotHl x).ime = s.ime := rfl
@[simp] theorem State.rotHl_halt (s : State) (x : RotResult) : (s.rotHl x).halt = s.halt := rfl
@[simp] theorem State.rotHl_stop (s : State) (x : RotResult) : (s.rotHl x).stop = s.stop := rfl
@[simp] theorem State.rotHl_eiDelay (s : State) (x : RotResult) : (s.rotHl x).eiDelay = s.eiDelay := rfl
@[simp] theorem State.rotHl_fault (s : State) (x : RotResult) : (s.rotHl x).fault = s.fault := rfl
@[simp] theorem State.rotHl_cycles (s : State) (x : RotResult) : (s.rotHl x).cycles = s.cycles := rfl
@[simp] theorem State.rotHl_mem (s : State) (x : RotResult) : (s.rotHl x).mem = s.mem.write s.hl.toNat x.r := rfl
@[simp] theorem State.rotHl_cfg (s : State) (x : RotResult) : (s.rotHl x).cfg = s.cfg := rfl
@[simp] theorem State.rotHl_irqPort (s : State) (x : RotResult) : (s.rotHl x).irqPort = s.irqPort := rfl
@[simp] theorem State.rotHl_irq (s : State) (x : RotResult) : (s.rotHl x).irq = s.irq := rfl
@[simp] theorem State.rotHl_irqAck (s : State) (x : RotResult) : (s.rotHl x).irqAck = s.irqAck := rfl

/-! ### rotReg -/

@[simp] theorem State.rotReg_sp (s : State) (r : Reg8) (x : RotResult) : (s.rotReg r x).sp = s.sp := by cases r <;> rfl
@[simp] theorem State.rotReg_pc (s : State) (r : Reg8) (x : RotResult) : (s.rotReg r x).pc = s.pc := by cases r <;> rfl
@[simp] theorem State.rotReg_ime (s : State) (r : Reg8) (x : RotResult) : (s.rotReg r x).ime = s.ime := by cases r <;> rfl
@[simp] theorem State.rotReg_halt (s : State) (r : Reg8) (x : RotResult) : (s.rotReg r x).halt = s.halt := by cases r <;> rfl
@[simp] theorem State.rotReg_stop (s : State) (r : Reg8) (x : RotResult) : (s.rotReg r x).stop = s.stop := by cases r <;> rfl
@[simp] theorem State.rotReg_eiDelay (s : State) (r : Reg8) (x : RotResult) : (s.rotReg r x).eiDelay = s.eiDelay := by cases r <;> rfl
@[simp] theorem State.rotReg_fault (s : State) (r : Reg8) (x : RotResult) : (s.rotReg r x).fault = s.fault := by cases r <;> rfl
@[simp] theorem State.rotReg_cycles (s : State) (r : Reg8) (x : RotResult) : (s.rotReg r x).cycles = s.cycles := by cases r <;> rfl
@[simp] theorem State.rotReg_mem (s : State) (r : Reg8) (x : RotResult) : (s.rotReg r x).mem = s.mem := by cases r <;> rfl
@[simp] theorem State.rotReg_cfg (s : State) (r : Reg8) (x : RotResult) : (s.rotReg r x).cfg = s.cfg := by cases r <;> rfl
@[simp] theorem State.rotReg_irqPort (s : State) (r : Reg8) (x : RotResult) : (s.rotReg r x).irqPort = s.irqPort := by cases r <;> rfl
@[simp] theorem State.rotReg_irq (s : State) (r : Reg8) (x : RotResult) : (s.rotReg r x).irq = s.irq := by cases r <;> rfl
@[simp] theorem State.rotReg_irqAck (s : State) (r : Reg8) (x : RotResult) : (s.rotReg r x).irqAck = s.irqAck := by cases r <;> rfl

/-! ### sampleIrq -/

@[simp] theorem State.sampleIrq_a (s : State) : (s.sampleIrq).a = s.a := rfl
@[simp] theorem State.sampleIrq_f (s : State) : (s.sampleIrq).f = s.f := rfl
@[simp] theorem State.sampleIrq_b (s : State) : (s.sampleIrq).b = s.b := rfl
@[simp] theorem State.sampleIrq_c (s : State) : (s.sampleIrq).c = s.c := rfl
@[simp] theorem State.sampleIrq_d (s : State) : (s.sampleIrq).d = s.d := rfl
@[simp] theorem State.sampleIrq_e (s : State) : (s.sampleIrq).e = s.e := rfl
@[simp] theorem State.sampleIrq_h (s : State) : (s.sampleIrq).h = s.h := rfl
@[simp] theorem State.sampleIrq_l (s : State) : (s.sampleIrq).l = s.l := rfl
@[simp] theorem State.sampleIrq_sp (s : State) : (s.sampleIrq).sp = s.sp := rfl
@[simp] theorem State.sampleIrq_pc (s : State) : (s.sampleIrq).pc = s.pc := rfl
@[simp] theorem State.sampleIrq_ime (s : State) : (s.sampleIrq).ime = s.ime := rfl
@[simp] theorem State.sampleIrq_halt (s : State) : (s.sampleIrq).halt = s.halt := rfl
@[simp] theorem State.sampleIrq_stop (s : State) : (s.sampleIrq).stop = s.stop := rfl
@[simp] theorem State.sampleIrq_eiDelay (s : State) : (s.sampleIrq).eiDelay = s.eiDelay := rfl
@[simp] theorem State.sampleIrq_fault (s : State) : (s.sampleIrq).fault = s.fault := rfl
@[simp] theorem State.sampleIrq_cycles (s : State) : (s.sampleIrq).cycles = s.cycles := rfl
@[simp] theorem State.sampleIrq_mem (s : State) : (s.sampleIrq).mem = s.mem := rfl
@[simp] theorem State.sampleIrq_cfg (s : State) : (s.sampleIrq).cfg = s.cfg := rfl
@[simp] theorem State.sampleIrq_irqPort (s : State) : (s.sampleIrq).irqPort = s.irqPort.later := rfl
@[simp] theorem State.sampleIrq_irq (s : State) : (s.sampleIrq).irq = s.irqPort.answer := rfl
@[simp] theorem State.sampleIrq_irqAck (s : State) : (s.sampleIrq).irqAck = none := rfl

/-! ### idleTick -/

@[simp] theorem State.idleTick_a (s : State) : (s.idleTick).a = s.a := rfl
@[simp] theorem State.idleTick_f (s : State) : (s.idleTick).f = s.f := rfl
@[simp] theorem State.idleTick_b (s : State) : (s.idleTick).b = s.b := rfl
@[simp] theorem State.idleTick_c (s : State) : (s.idleTick).c = s.c := rfl
@[simp] theorem State.idleTick_d (s : State) : (s.idleTick).d = s.d := rfl
@[simp] theorem State.idleTick_e (s : State) : (s.idleTick).e = s.e := rfl
@[simp] theorem State.idleTick_h (s : State) : (s.idleTick).h = s.h := rfl
@[simp] theorem State.idleTick_l (s : State) : (s.idleTick).l = s.l := rfl
@[simp] theorem State.idleTick_sp (s : State) : (s.idleTick).sp = s.sp := rfl
@[simp] theorem State.idleTick_pc (s : State) : (s.idleTick).pc = s.pc := rfl
@[simp] theorem State.idleTick_ime (s : State) : (s.idleTick).ime = s.ime := rfl
@[simp] theorem State.idleTick_halt (s : State) : (s.idleTick).halt = s.halt := rfl
@[simp] theorem State.idleTick_stop (s : State) : (s.idleTick).stop = s.stop := rfl
@[simp] theorem State.idleTick_eiDelay (s : State) : (s.idleTick).eiDelay = s.eiDelay := rfl
@[simp] theorem State.idleTick_fault (s : State) : (s.idleTick).fault = s.fault := rfl
@[simp] theorem State.idleTick_mem (s : State) : (s.idleTick).mem = s.mem := rfl
@[simp] theorem State.idleTick_cfg (s : State) : (s.idleTick).cfg = s.cfg := rfl
@[simp] theorem State.idleTick_irqPort (s : State) : (s.idleTick).irqPort = s.irqPort := rfl
@[simp] theorem State.idleTick_irq (s : State) : (s.idleTick).irq = s.irq := rfl
@[simp] theorem State.idleTick_irqAck (s : State) : (s.idleTick).irqAck = s.irqAck := rfl

/-! ### applyReset -/

@[simp] theorem State.applyReset_cycles (s : State) : (s.applyReset).cycles = s.cycles := rfl
@[simp] theorem State.applyReset_mem (s : State) : (s.applyReset).mem = s.mem := rfl
@[simp] theorem State.applyReset_cfg (s : State) : (s.applyReset).cfg = s.cfg := rfl
@[simp] theorem State.applyReset_irqPort (s : State) : (s.applyReset).irqPort = s.irqPort := rfl

/-! ### after -/

@[simp] theorem State.after_a (s : State) (n k : Nat) : (s.after n k).a = s.a := rfl
@[simp] theorem State.after_f (s : State) (n k : Nat) : (s.after n k).f = s.f := rfl
@[simp] theorem State.after_b (s : State) (n k : Nat) : (s.after n k).b = s.b := rfl
@[simp] theorem State.after_c (s : State) (n k : Nat) : (s.after n k).c = s.c := rfl
@[simp] theorem State.after_d (s : State) (n k : Nat) : (s.after n k).d = s.d := rfl
@[simp] theorem State.after_e (s : State) (n k : Nat) : (s.after n k).e = s.e := rfl
@[simp] theorem State.after_h (s : State) (n k : Nat) : (s.after n k).h = s.h := rfl
@[simp] theorem State.after_l (s : State) (n k : Nat) : (s.after n k).l = s.l := rfl
@[simp] theorem State.after_sp (s : State) (n k : Nat) : (s.after n k).sp = s.sp := rfl
@[simp] theorem State.after_pc (s : State) (n k : Nat) : (s.after n k).pc = s.pc + BitVec.ofNat 16 n := rfl
@[simp] theorem State.after_ime (s : State) (n k : Nat) : (s.after n k).ime = s.ime := rfl
@[simp] theorem State.after_halt (s : State) (n k : Nat) : (s.after n k).halt = s.halt := rfl
@[simp] theorem State.after_stop (s : State) (n k : Nat) : (s.after n k).stop = s.stop := rfl
@[simp] theorem State.after_eiDelay (s : State) (n k : Nat) : (s.after n k).eiDelay = false := rfl
@[simp] theorem State.after_fault (s : State) (n k : Nat) : (s.after n k).fault = s.fault := rfl
@[simp] theorem State.after_cycles (s : State) (n k : Nat) : (s.after n k).cycles = s.cycles + k := rfl
@[simp] theorem State.after_mem (s : State) (n k : Nat) : (s.after n k).mem = s.mem := rfl
@[simp] theorem State.after_cfg (s : State) (n k : Nat) : (s.after n k).cfg = s.cfg := rfl
@[simp] theorem State.after_irqPort (s : State) (n k : Nat) : (s.after n k).irqPort = s.irqPort := rfl
@[simp] theorem State.after_irq (s : State) (n k : Nat) : (s.after n k).irq = s.irq := rfl
@[simp] theorem State.after_irqAck (s : State) (n k : Nat) : (s.after n k).irqAck = s.irqAck := rfl

/-! ### wake -/

@[simp] theorem State.wake_a (s : State) : s.wake.a = s.a := by
  unfold State.wake; split <;> [rfl; (split <;> rfl)]
@[simp] theorem State.wake_f (s : State) : s.wake.f = s.f := by
  unfold State.wake; split <;> [rfl; (split <;> rfl)]
@[simp] theorem State.wake_b (s : State) : s.wake.b = s.b := by
  unfold State.wake; split <;> [rfl; (split <;> rfl)]
@[simp] theorem State.wake_c (s : State) : s.wake.c = s.c := by
  unfold State.wake; split <;> [rfl; (split <;> rfl)]
@[simp] theorem State.wake_d (s : State) : s.wake.d = s.d := by
  unfold State.wake; split <;> [rfl; (split <;> rfl)]
@[simp] theorem State.wake_e (s : State) : s.wake.e = s.e := by
  unfold State.wake; split <;> [rfl; (split <;> rfl)]
@[simp] theorem State.wake_h (s : State) : s.wake.h = s.h := by
  unfold State.wake; split <;> [rfl; (split <;> rfl)]
@[simp] theorem State.wake_l (s : State) : s.wake.l = s.l := by
  unfold State.wake; split <;> [rfl; (split <;> rfl)]
@[simp] theorem State.wake_sp (s : State) : s.wake.sp = s.sp := by
  unfold State.wake; split <;> [rfl; (split <;> rfl)]
@[simp] theorem State.wake_pc (s : State) : s.wake.pc = s.pc := by
  unfold State.wake; split <;> [rfl; (split <;> rfl)]
@[simp] theorem State.wake_ime (s : State) : s.wake.ime = s.ime := by
  unfold State.wake; split <;> [rfl; (split <;> rfl)]
@[simp] theorem State.wake_eiDelay (s : State) : s.wake.eiDelay = s.eiDelay := by
  unfold State.wake; split <;> [rfl; (split <;> rfl)]
@[simp] theorem State.wake_fault (s : State) : s.wake.fault = s.fault := by
  unfold State.wake; split <;> [rfl; (split <;> rfl)]
@[simp] theorem State.wake_cycles (s : State) : s.wake.cycles = s.cycles := by
  unfold State.wake; split <;> [rfl; (split <;> rfl)]
@[simp] theorem State.wake_mem (s : State) : s.wake.mem = s.mem := by
  unfold State.wake; split <;> [rfl; (split <;> rfl)]
@[simp] theorem State.wake_cfg (s : State) : s.wake.cfg = s.cfg := by
  unfold State.wake; split <;> [rfl; (split <;> rfl)]
@[simp] theorem State.wake_irqPort (s : State) : s.wake.irqPort = s.irqPort := by
  unfold State.wake; split <;> [rfl; (split <;> rfl)]
@[simp] theorem State.wake_irq (s : State) : s.wake.irq = s.irq := by
  unfold State.wake; split <;> [rfl; (split <;> rfl)]
@[simp] theorem State.wake_irqAck (s : State) : s.wake.irqAck = s.irqAck := by
  unfold State.wake; split <;> [rfl; (split <;> rfl)]

end Sys2Proof.Machine
end

