-- ==== Sys2Proof/Laws/Memory.lean ====
section
/-! SUPPORT. Memory: a read after a write, the canonical form kept by every memory operation, and the stack
primitives over it. -/

namespace Sys2Proof.Machine

theorem Memory.read_erase (m : Memory) (a b : Nat) :
    (m.erase a).read b = if b = a then Memory.unlisted else m.read b := by
  induction m with
  | nil => simp [Memory.erase, Memory.read]
  | cons kv rest ih =>
    obtain ⟨k, v⟩ := kv
    simp only [Memory.erase, Memory.read]
    split <;> rename_i hk
    · rw [ih]
      split <;> rename_i hb
      · rfl
      · rw [if_neg (by omega)]
    · simp only [Memory.read, ih]
      split <;> rename_i hb
      · rw [if_neg (by omega)]
      · rfl

theorem Memory.read_place (m : Memory) (a b : Nat) (v : Byte) (hm : ∀ p ∈ m, p.1 ≠ a) :
    (m.place a v).read b = if b = a then v else m.read b := by
  induction m with
  | nil => simp only [Memory.place, Memory.read, eq_comm]
  | cons kv rest ih =>
    obtain ⟨k, w⟩ := kv
    have hk : k ≠ a := hm (k, w) (by simp)
    have ih := ih (fun p hp => hm p (by simp [hp]))
    simp only [Memory.place]
    split
    · simp only [Memory.read, eq_comm]
    · simp only [Memory.read, ih]
      split <;> rename_i hb
      · rw [if_neg (by omega)]
      · rfl

theorem Memory.erase_no_entry (m : Memory) (a : Nat) : ∀ p ∈ m.erase a, p.1 ≠ a := by
  induction m with
  | nil => simp [Memory.erase]
  | cons kv rest ih =>
    obtain ⟨k, v⟩ := kv
    simp only [Memory.erase]
    split
    · exact ih
    · intro p hp
      rcases List.mem_cons.mp hp with rfl | hp
      · assumption
      · exact ih p hp

/-- A write changes one byte alone, in any list of cells (20_memory R71). -/
theorem Memory.read_write (m : Memory) (a b : Nat) (v : Byte) :
    (m.write a v).read b = if b = a then v else m.read b := by
  unfold Memory.write
  split <;> rename_i hv
  · rw [Memory.read_erase]; subst hv; rfl
  · rw [Memory.read_place _ _ _ _ (Memory.erase_no_entry m a), Memory.read_erase]
    split <;> simp_all

/-- The canonical form from a lower bound holds from any lower one. -/
theorem Memory.wfFrom_mono {lo lo' : Nat} (h : lo' ≤ lo) {m : Memory} (hm : Memory.wfFrom lo m = true) :
    Memory.wfFrom lo' m = true := by
  cases m with
  | nil => rfl
  | cons kv rest =>
    obtain ⟨k, v⟩ := kv
    simp only [Memory.wfFrom, Bool.and_eq_true, decide_eq_true_eq] at hm ⊢
    exact ⟨⟨⟨by omega, hm.1.1.2⟩, hm.1.2⟩, hm.2⟩

theorem Memory.wfFrom_erase (a : Nat) : ∀ (m : Memory) (lo : Nat), Memory.wfFrom lo m = true →
    Memory.wfFrom lo (m.erase a) = true := by
  intro m
  induction m with
  | nil => intro lo _; rfl
  | cons kv rest ih =>
    obtain ⟨k, v⟩ := kv
    intro lo h
    simp only [Memory.wfFrom, Bool.and_eq_true, decide_eq_true_eq] at h
    simp only [Memory.erase]
    split
    · exact Memory.wfFrom_mono (by omega) (ih _ h.2)
    · simp only [Memory.wfFrom, Bool.and_eq_true, decide_eq_true_eq]
      exact ⟨h.1, ih _ h.2⟩

theorem Memory.wfFrom_place (a : Nat) (v : Byte) (ha : a < 65536) (hv : v ≠ Memory.unlisted) :
    ∀ (m : Memory) (lo : Nat), lo ≤ a → Memory.wfFrom lo m = true → (∀ p ∈ m, p.1 ≠ a) →
      Memory.wfFrom lo (m.place a v) = true := by
  intro m
  induction m with
  | nil => intro lo hlo _ _; simp [Memory.place, Memory.wfFrom, hlo, ha, hv]
  | cons kv rest ih =>
    obtain ⟨k, w⟩ := kv
    intro lo hlo h hne
    simp only [Memory.wfFrom, Bool.and_eq_true, decide_eq_true_eq] at h
    have hk : k ≠ a := hne (k, w) (by simp)
    simp only [Memory.place]
    split
    · simp only [Memory.wfFrom, Bool.and_eq_true, decide_eq_true_eq]
      exact ⟨⟨⟨hlo, ha⟩, hv⟩, ⟨⟨by omega, h.1.1.2⟩, h.1.2⟩, h.2⟩
    · simp only [Memory.wfFrom, Bool.and_eq_true, decide_eq_true_eq]
      exact ⟨h.1, ih _ (by omega) h.2 (fun p hp => hne p (by simp [hp]))⟩

/-- A write inside the address space keeps the canonical form. -/
theorem Memory.wf_write (m : Memory) (a : Nat) (v : Byte) (ha : a < 65536) (h : m.wf = true) :
    (m.write a v).wf = true := by
  unfold Memory.write Memory.wf at *
  split
  · exact Memory.wfFrom_erase a m 0 h
  · exact Memory.wfFrom_place a v ha ‹_› _ 0 (by omega) (Memory.wfFrom_erase a m 0 h) (Memory.erase_no_entry m a)

/-- Below the first address a canonical memory may list, every byte reads as unlisted. -/
theorem Memory.read_below {m : Memory} {lo a : Nat} (h : Memory.wfFrom lo m = true) (ha : a < lo) :
    m.read a = Memory.unlisted := by
  induction m generalizing lo with
  | nil => rfl
  | cons p rest ih =>
    obtain ⟨k, v⟩ := p
    simp only [Memory.wfFrom, Bool.and_eq_true, decide_eq_true_eq] at h
    rw [Memory.read, if_neg (by omega)]
    exact ih h.2 (by omega)

/-- A canonical memory is determined by its bytes, from any first address. -/
theorem Memory.ext_from {m n : Memory} {lo : Nat} (hm : Memory.wfFrom lo m = true)
    (hn : Memory.wfFrom lo n = true) (h : ∀ a, a < 65536 → m.read a = n.read a) : m = n := by
  induction m generalizing lo n with
  | nil =>
    cases n with
    | nil => rfl
    | cons q rest =>
      obtain ⟨k, v⟩ := q
      simp only [Memory.wfFrom, Bool.and_eq_true, decide_eq_true_eq] at hn
      have hk := h k hn.1.1.2
      rw [Memory.read, Memory.read, if_pos rfl] at hk
      exact absurd hk.symm hn.1.2
  | cons p rest ih =>
    obtain ⟨k, v⟩ := p
    simp only [Memory.wfFrom, Bool.and_eq_true, decide_eq_true_eq] at hm
    obtain ⟨⟨⟨hlo, hk⟩, hv⟩, hr⟩ := hm
    have h1 := h k hk
    rw [Memory.read, if_pos rfl] at h1
    cases n with
    | nil => exact absurd h1 hv
    | cons q rest' =>
      obtain ⟨k', v'⟩ := q
      simp only [Memory.wfFrom, Bool.and_eq_true, decide_eq_true_eq] at hn
      obtain ⟨⟨⟨hlo', hk'⟩, hv'⟩, hr'⟩ := hn
      have h2 := h k' hk'
      rw [Memory.read, Memory.read, if_pos rfl] at h2
      rw [Memory.read] at h1
      have hkk : k = k' := by
        rcases Nat.lt_trichotomy k k' with hlt | heq | hgt
        · rw [if_neg (by omega), Memory.read_below hr' (by omega)] at h1
          exact absurd h1 hv
        · exact heq
        · rw [if_neg (by omega), Memory.read_below hr (by omega)] at h2
          exact absurd h2.symm hv'
      subst hkk
      rw [if_pos rfl] at h1
      subst h1
      congr 1
      refine ih hr hr' fun a ha => ?_
      by_cases hak : a ≤ k
      · rw [Memory.read_below hr (by omega), Memory.read_below hr' (by omega)]
      · have h3 := h a ha
        rwa [Memory.read, Memory.read, if_neg (by omega), if_neg (by omega)] at h3

/-- Two canonical memories with the same bytes are the same data. -/
theorem Memory.ext_of_wf {m n : Memory} (hm : m.wf = true) (hn : n.wf = true)
    (h : ∀ a, a < 65536 → m.read a = n.read a) : m = n := Memory.ext_from hm hn h

/-- `MemRead` after `MemWrite` (20_memory R71). -/
@[simp] theorem State.readByte_writeByte (s : State) (x y : Word) (v : Byte) :
    (s.writeByte x v).readByte y = if y = x then v else s.readByte y := by
  simp only [State.readByte, State.writeByte_mem, Memory.read_write]
  by_cases h : y = x
  · simp [h]
  · rw [if_neg h, if_neg (fun e => h (BitVec.eq_of_toNat_eq e))]

/-- Every store of the core keeps the canonical form. -/
theorem State.wf_writeByte (s : State) (x : Word) (v : Byte) (h : s.mem.wf = true) :
    (s.writeByte x v).mem.wf = true :=
  Memory.wf_write _ _ _ x.isLt h

/-- A read depends on memory alone. -/
theorem State.readByte_congr {s t : State} (h : s.mem = t.mem) (x : Word) : s.readByte x = t.readByte x := by
  simp only [State.readByte, h]

/-- All a push does (45_control R340): SP falls by 2, and the two bytes below the old SP are stored. -/
theorem State.push16_eq (s : State) (v : Word) :
    s.push16 v = { ((s.writeByte (s.sp - 1) (hiByte v)).writeByte (s.sp - 2) (loByte v)) with sp := s.sp - 2 } := by
  have h : s.sp - 1 - 1 = s.sp - 2 := by bv_omega
  simp only [State.push16, State.writeByte, h]

@[simp] theorem State.push16_sp (s : State) (v : Word) : (s.push16 v).sp = s.sp - 2 := by
  rw [State.push16_eq]

/-- The bytes a push leaves (45_control R340). -/
theorem State.readByte_push16 (s : State) (v x : Word) :
    (s.push16 v).readByte x =
      if x = s.sp - 2 then loByte v else if x = s.sp - 1 then hiByte v else s.readByte x := by
  rw [State.push16_eq]
  exact (State.readByte_writeByte _ _ _ _).trans (by rw [State.readByte_writeByte])

/-- A push keeps the canonical form. -/
theorem State.wf_push16 (s : State) (v : Word) (h : s.mem.wf = true) : (s.push16 v).mem.wf = true := by
  rw [State.push16_eq]
  exact State.wf_writeByte _ _ _ (State.wf_writeByte _ _ _ h)

end Sys2Proof.Machine
end

