-- ==== Sys2Proof/Laws/Ops.lean ====
section
/-! SUPPORT. The shared operations: pair views, the flag byte, register files, taking an interrupt, and what a
step can do. -/

namespace Sys2Proof

/-! ## Pair views (10_state R32) -/

/-- A pair as a number: the high register counts 256 times. -/
theorem pairWord_toNat (h l : Byte) : (pairWord h l).toNat = h.toNat * 256 + l.toNat := by
  have hl := l.isLt
  rw [pairWord, BitVec.toNat_append, ← Nat.shiftLeft_add_eq_or_of_lt hl, Nat.shiftLeft_eq]

theorem hiByte_toNat (v : Word) : (hiByte v).toNat = v.toNat / 256 := by
  have hv := v.isLt
  rw [hiByte, BitVec.extractLsb'_toNat, Nat.shiftRight_eq_div_pow]
  omega

theorem loByte_toNat (v : Word) : (loByte v).toNat = v.toNat % 256 := by
  rw [loByte, BitVec.extractLsb'_toNat, Nat.shiftRight_zero]

@[simp] theorem hiByte_pairWord (h l : Byte) : hiByte (pairWord h l) = h := by
  have hl := l.isLt
  apply BitVec.eq_of_toNat_eq
  rw [hiByte_toNat, pairWord_toNat]
  omega

@[simp] theorem loByte_pairWord (h l : Byte) : loByte (pairWord h l) = l := by
  have hl := l.isLt
  apply BitVec.eq_of_toNat_eq
  rw [loByte_toNat, pairWord_toNat]
  omega

@[simp] theorem pairWord_hiByte_loByte (v : Word) : pairWord (hiByte v) (loByte v) = v := by
  apply BitVec.eq_of_toNat_eq
  rw [pairWord_toNat, hiByte_toNat, loByte_toNat]
  omega

/-! ## The flag byte (10_state R35) -/

namespace Machine

/-- The flag byte has a zero low nibble, so F's mask leaves it as it is. -/
@[simp] theorem flagByte_mask (z n h c : Bool) : flagByte z n h c &&& 0xF0 = flagByte z n h c := by
  cases z <;> cases n <;> cases h <;> cases c <;> rfl

@[simp] theorem flagByte_nibble (z n h c : Bool) : flagByte z n h c &&& 0x0F = 0 := by
  cases z <;> cases n <;> cases h <;> cases c <;> rfl

@[simp] theorem State.setFlags_f (s : State) (z n h c : Bool) : (s.setFlags z n h c).f = flagByte z n h c :=
  flagByte_mask z n h c

@[simp] theorem State.setFlags_flagZ (s : State) (z n h c : Bool) : (s.setFlags z n h c).flagZ = z := by
  simp only [State.flagZ, State.setFlags_f]
  cases z <;> cases n <;> cases h <;> cases c <;> rfl

@[simp] theorem State.setFlags_flagN (s : State) (z n h c : Bool) : (s.setFlags z n h c).flagN = n := by
  simp only [State.flagN, State.setFlags_f]
  cases z <;> cases n <;> cases h <;> cases c <;> rfl

@[simp] theorem State.setFlags_flagH (s : State) (z n h c : Bool) : (s.setFlags z n h c).flagH = h := by
  simp only [State.flagH, State.setFlags_f]
  cases z <;> cases n <;> cases h <;> cases c <;> rfl

@[simp] theorem State.setFlags_flagC (s : State) (z n h c : Bool) : (s.setFlags z n h c).flagC = c := by
  simp only [State.flagC, State.setFlags_f]
  cases z <;> cases n <;> cases h <;> cases c <;> rfl

/-- All a flag write does. -/
theorem State.setFlags_eq (s : State) (z n h c : Bool) : s.setFlags z n h c = { s with f := flagByte z n h c } := by
  simp only [State.setFlags, State.writeF, flagByte_mask]

/-- All an 8-bit result written to A does. -/
theorem State.applyAlu_eq (s : State) (r : AluResult) :
    s.applyAlu r = { s with a := r.res, f := flagByte r.z r.n r.h r.c } := by
  simp only [State.applyAlu, State.applyFlags, State.setFlags_eq]

/-- Every write of F leaves a zero low nibble (10_state R35). -/
theorem State.writeF_nibble (s : State) (v : Byte) : (s.writeF v).f &&& 0x0F = 0 := by
  simp only [State.writeF_f, BitVec.and_assoc]
  have h : (0xF0 &&& 0x0F : Byte) = 0 := by decide
  rw [h]
  simp

/-! ## Register files (30_encoding R104) -/

@[simp] theorem State.reg8_setReg8 (s : State) (r q : Reg8) (v : Byte) :
    (s.setReg8 r v).reg8 q = if q = r then v else s.reg8 q := by
  cases r <;> cases q <;> rfl

@[simp] theorem State.pair_setPair (s : State) (p : Pair) (v : Word) : (s.setPair p v).pair p = v := by
  cases p
  case sp => rfl
  all_goals exact pairWord_hiByte_loByte v

/-- A stack pair reads back what was written, AF through F's mask (10_state R32, R35). -/
theorem State.stackPair_setStackPair (s : State) (q : StackPair) (v : Word) :
    (s.setStackPair q v).stackPair q =
      if q = .af then pairWord (hiByte v) (loByte v &&& 0xF0) else v := by
  cases q
  case af =>
    simp only [State.stackPair, State.setStackPair, State.af, State.readF, State.setAf_a, State.setAf_f,
      BitVec.and_assoc, if_true]
    rfl
  all_goals exact pairWord_hiByte_loByte v

/-! ## Operations on PC, SP and ticks commute with reads of memory -/

@[simp] theorem State.readByte_fetched (s : State) (n : Nat) (x : Word) : (s.fetched n).readByte x = s.readByte x := rfl

@[simp] theorem State.readByte_charge (s : State) (k : Nat) (x : Word) : (s.charge k).readByte x = s.readByte x := rfl

/-- Fetching past an instruction and charging it is what `after` says. -/
theorem State.fetched_charge (s : State) (n k : Nat) : (s.fetched n).charge k = s.after n k := rfl

/-! ## Taking an interrupt and returning from one (60_exceptions R407, R410, R411) -/

/-- All a dispatch does. -/
theorem State.takeInterrupt_eq (s : State) (k : IrqNum) :
    s.takeInterrupt k =
      { s.push16 s.pc with
        ime := false, pc := irqVector k, irqAck := some k, cycles := s.cycles + 20 } := rfl

@[simp] theorem State.takeInterrupt_sp (s : State) (k : IrqNum) : (s.takeInterrupt k).sp = s.sp - 2 := by
  rw [State.takeInterrupt_eq]
  exact State.push16_sp s s.pc

/-- All a return from an interrupt does. -/
theorem State.returnFromInterrupt_eq (s : State) :
    s.returnFromInterrupt = { s with sp := s.sp + 2, pc := s.popValue, ime := true } := rfl

/-- A pop after a push of the same value on the same stack returns it (45_control R341). -/
theorem State.popValue_push16 (s : State) (v : Word) : (s.push16 v).popValue = v := by
  have h1 : s.sp - 2 + 1 = s.sp - 1 := by bv_omega
  have h2 : s.sp - 1 ≠ s.sp - 2 := by bv_omega
  simp only [State.popValue, State.push16_sp, State.readByte_push16, h1, if_neg h2, if_true]
  exact pairWord_hiByte_loByte v

/-! ## The environment's answers (60_exceptions R405) -/

@[simp] theorem IrqPort.answer_never : IrqPort.never.answer = none := rfl
@[simp] theorem IrqPort.later_never : IrqPort.never.later = .never := rfl
@[simp] theorem IrqPort.answer_oracle (n : Nat) : (IrqPort.oracle n).answer = Config.irqOracle n := rfl
@[simp] theorem IrqPort.later_oracle (n : Nat) : (IrqPort.oracle n).later = .oracle (n + 1) := rfl
@[simp] theorem IrqPort.answer_given (a : Option IrqNum) (p : IrqPort) : (IrqPort.given a p).answer = a := rfl
@[simp] theorem IrqPort.later_given (a : Option IrqNum) (p : IrqPort) : (IrqPort.given a p).later = p := rfl

/-- A pattern answers its first entry, which then goes to its end. -/
@[simp] theorem IrqPort.answer_cycle (a : Option IrqNum) (l : List (Option IrqNum)) :
    (IrqPort.cycle (a :: l)).answer = a := rfl

@[simp] theorem IrqPort.later_cycle (a : Option IrqNum) (l : List (Option IrqNum)) :
    (IrqPort.cycle (a :: l)).later = .cycle (l ++ [a]) := rfl

/-! ## What a step can do (40_engine R140) -/

/-- A step that answers a next state idled, dispatched an interrupt or executed the instruction at PC. -/
theorem stepWith_next {run : Instr → State → Result} {s t : State} (h : stepWith run s = .next t) :
    s.fault = none ∧
      ((s.sampleIrq.idles = true ∧ t = s.sampleIrq.idleTick) ∨
        (s.sampleIrq.idles = false ∧
          ((∃ k, s.sampleIrq.wake.toDispatch = some k ∧ t = s.sampleIrq.wake.takeInterrupt k) ∨
            (s.sampleIrq.wake.toDispatch = none ∧
              run (fetchInstr s.sampleIrq.wake) s.sampleIrq.wake = .next t)))) := by
  unfold stepWith at h
  split at h
  · rename_i r _
    cases r <;> simp [stuck] at h
  · rename_i hf
    refine ⟨hf, ?_⟩
    simp only at h
    split at h
    · rename_i hi
      exact .inl ⟨hi, by injection h with h; exact h.symm⟩
    · rename_i hi
      refine .inr ⟨by simpa using hi, ?_⟩
      split at h
      · rename_i k hk
        exact .inl ⟨k, hk, by injection h with h; exact h.symm⟩
      · rename_i hk
        exact .inr ⟨hk, h⟩

/-- The same of the machine's own step. -/
theorem step_next {s t : State} (h : step s = .next t) :
    s.fault = none ∧
      ((s.sampleIrq.idles = true ∧ t = s.sampleIrq.idleTick) ∨
        (s.sampleIrq.idles = false ∧
          ((∃ k, s.sampleIrq.wake.toDispatch = some k ∧ t = s.sampleIrq.wake.takeInterrupt k) ∨
            (s.sampleIrq.wake.toDispatch = none ∧
              exec (fetchInstr s.sampleIrq.wake) s.sampleIrq.wake = .next t)))) :=
  stepWith_next h

/-- The same of two wakes: after one from a state with `halt` and `stop` not both 1, both are 0. -/
theorem State.wake_running (s : State) (h : s.PowerExclusive) : s.wake.halt = false ∧ s.wake.stop = false := by
  unfold State.PowerExclusive at h
  unfold State.wake
  split <;> rename_i h1
  · simp_all
  · split <;> rename_i h2 <;> simp_all

end Machine

end Sys2Proof
end

