-- ==== Sys2Proof/Laws/PerInstr.lean ====
section
/-! SUPPORT. The family EncodedLength: for each instruction, the encoder writes exactly as many bytes as the
instruction is long (30_encoding R100, R101). -/

namespace Sys2Proof.Laws.EncodedLength

/-- The bytes of `i` number its length, whatever the configuration. -/
def Statement (i : Instr) : Prop := ∀ c : Config, (encode c i).length = i.length c

theorem nop : Statement (.nop) := fun _ => rfl
theorem ldRrNn (p : Pair) (nn : Word) : Statement (.ldRrNn p nn) := fun _ => rfl
theorem ldBcA : Statement (.ldBcA) := fun _ => rfl
theorem ldDeA : Statement (.ldDeA) := fun _ => rfl
theorem ldHliA : Statement (.ldHliA) := fun _ => rfl
theorem ldHldA : Statement (.ldHldA) := fun _ => rfl
theorem incRr (p : Pair) : Statement (.incRr p) := fun _ => rfl
theorem incR (rd : Reg8) : Statement (.incR rd) := fun _ => rfl
theorem incHl : Statement (.incHl) := fun _ => rfl
theorem decR (rd : Reg8) : Statement (.decR rd) := fun _ => rfl
theorem decHl : Statement (.decHl) := fun _ => rfl
theorem ldRN (rd : Reg8) (n : Byte) : Statement (.ldRN rd n) := fun _ => rfl
theorem ldHlN (n : Byte) : Statement (.ldHlN n) := fun _ => rfl
theorem rlca : Statement (.rlca) := fun _ => rfl
theorem rrca : Statement (.rrca) := fun _ => rfl
theorem rla : Statement (.rla) := fun _ => rfl
theorem rra : Statement (.rra) := fun _ => rfl
theorem ldNnSp (nn : Word) : Statement (.ldNnSp nn) := fun _ => rfl
theorem addHlRr (p : Pair) : Statement (.addHlRr p) := fun _ => rfl
theorem ldABc : Statement (.ldABc) := fun _ => rfl
theorem ldADe : Statement (.ldADe) := fun _ => rfl
theorem ldAHli : Statement (.ldAHli) := fun _ => rfl
theorem ldAHld : Statement (.ldAHld) := fun _ => rfl
theorem decRr (p : Pair) : Statement (.decRr p) := fun _ => rfl
theorem stop : Statement (.stop) := fun c => by
  rcases c with ⟨_, _, _ | _, _, _, _⟩ <;> rfl
theorem jrE (e : Byte) : Statement (.jrE e) := fun _ => rfl
theorem jrCcE (cc : Cond) (e : Byte) : Statement (.jrCcE cc e) := fun _ => rfl
theorem daa : Statement (.daa) := fun _ => rfl
theorem cpl : Statement (.cpl) := fun _ => rfl
theorem scf : Statement (.scf) := fun _ => rfl
theorem ccf : Statement (.ccf) := fun _ => rfl
theorem ldRR (rd rs : Reg8) : Statement (.ldRR rd rs) := fun _ => rfl
theorem ldRHl (rd : Reg8) : Statement (.ldRHl rd) := fun _ => rfl
theorem ldHlR (rs : Reg8) : Statement (.ldHlR rs) := fun _ => rfl
theorem halt : Statement (.halt) := fun _ => rfl
theorem addAR (rs : Reg8) : Statement (.addAR rs) := fun _ => rfl
theorem addAHl : Statement (.addAHl) := fun _ => rfl
theorem addAN (n : Byte) : Statement (.addAN n) := fun _ => rfl
theorem adcAR (rs : Reg8) : Statement (.adcAR rs) := fun _ => rfl
theorem adcAHl : Statement (.adcAHl) := fun _ => rfl
theorem adcAN (n : Byte) : Statement (.adcAN n) := fun _ => rfl
theorem subAR (rs : Reg8) : Statement (.subAR rs) := fun _ => rfl
theorem subAHl : Statement (.subAHl) := fun _ => rfl
theorem subAN (n : Byte) : Statement (.subAN n) := fun _ => rfl
theorem sbcAR (rs : Reg8) : Statement (.sbcAR rs) := fun _ => rfl
theorem sbcAHl : Statement (.sbcAHl) := fun _ => rfl
theorem sbcAN (n : Byte) : Statement (.sbcAN n) := fun _ => rfl
theorem andAR (rs : Reg8) : Statement (.andAR rs) := fun _ => rfl
theorem andAHl : Statement (.andAHl) := fun _ => rfl
theorem andAN (n : Byte) : Statement (.andAN n) := fun _ => rfl
theorem xorAR (rs : Reg8) : Statement (.xorAR rs) := fun _ => rfl
theorem xorAHl : Statement (.xorAHl) := fun _ => rfl
theorem xorAN (n : Byte) : Statement (.xorAN n) := fun _ => rfl
theorem orAR (rs : Reg8) : Statement (.orAR rs) := fun _ => rfl
theorem orAHl : Statement (.orAHl) := fun _ => rfl
theorem orAN (n : Byte) : Statement (.orAN n) := fun _ => rfl
theorem cpAR (rs : Reg8) : Statement (.cpAR rs) := fun _ => rfl
theorem cpAHl : Statement (.cpAHl) := fun _ => rfl
theorem cpAN (n : Byte) : Statement (.cpAN n) := fun _ => rfl
theorem retCc (cc : Cond) : Statement (.retCc cc) := fun _ => rfl
theorem popQq (q : StackPair) : Statement (.popQq q) := fun _ => rfl
theorem jpCcNn (cc : Cond) (nn : Word) : Statement (.jpCcNn cc nn) := fun _ => rfl
theorem jpNn (nn : Word) : Statement (.jpNn nn) := fun _ => rfl
theorem callCcNn (cc : Cond) (nn : Word) : Statement (.callCcNn cc nn) := fun _ => rfl
theorem pushQq (q : StackPair) : Statement (.pushQq q) := fun _ => rfl
theorem rstT (t : Nat) : Statement (.rstT t) := fun _ => rfl
theorem ret : Statement (.ret) := fun _ => rfl
theorem reti : Statement (.reti) := fun _ => rfl
theorem prefixCb : Statement (.prefixCb) := fun _ => rfl
theorem callNn (nn : Word) : Statement (.callNn nn) := fun _ => rfl
theorem ldhNA (n : Byte) : Statement (.ldhNA n) := fun _ => rfl
theorem ldhAN (n : Byte) : Statement (.ldhAN n) := fun _ => rfl
theorem ldhCA : Statement (.ldhCA) := fun _ => rfl
theorem ldhAC : Statement (.ldhAC) := fun _ => rfl
theorem addSpE (e : Byte) : Statement (.addSpE e) := fun _ => rfl
theorem jpHl : Statement (.jpHl) := fun _ => rfl
theorem ldNnA (nn : Word) : Statement (.ldNnA nn) := fun _ => rfl
theorem ldANn (nn : Word) : Statement (.ldANn nn) := fun _ => rfl
theorem di : Statement (.di) := fun _ => rfl
theorem ei : Statement (.ei) := fun _ => rfl
theorem ldHlSpE (e : Byte) : Statement (.ldHlSpE e) := fun _ => rfl
theorem ldSpHl : Statement (.ldSpHl) := fun _ => rfl
theorem invalidD3 : Statement (.invalidD3) := fun _ => rfl
theorem invalidDB : Statement (.invalidDB) := fun _ => rfl
theorem invalidDD : Statement (.invalidDD) := fun _ => rfl
theorem invalidE3 : Statement (.invalidE3) := fun _ => rfl
theorem invalidE4 : Statement (.invalidE4) := fun _ => rfl
theorem invalidEB : Statement (.invalidEB) := fun _ => rfl
theorem invalidEC : Statement (.invalidEC) := fun _ => rfl
theorem invalidED : Statement (.invalidED) := fun _ => rfl
theorem invalidF4 : Statement (.invalidF4) := fun _ => rfl
theorem invalidFC : Statement (.invalidFC) := fun _ => rfl
theorem invalidFD : Statement (.invalidFD) := fun _ => rfl
theorem rlcR (rs : Reg8) : Statement (.rlcR rs) := fun _ => rfl
theorem rlcHl : Statement (.rlcHl) := fun _ => rfl
theorem rrcR (rs : Reg8) : Statement (.rrcR rs) := fun _ => rfl
theorem rrcHl : Statement (.rrcHl) := fun _ => rfl
theorem rlR (rs : Reg8) : Statement (.rlR rs) := fun _ => rfl
theorem rlHl : Statement (.rlHl) := fun _ => rfl
theorem rrR (rs : Reg8) : Statement (.rrR rs) := fun _ => rfl
theorem rrHl : Statement (.rrHl) := fun _ => rfl
theorem slaR (rs : Reg8) : Statement (.slaR rs) := fun _ => rfl
theorem slaHl : Statement (.slaHl) := fun _ => rfl
theorem sraR (rs : Reg8) : Statement (.sraR rs) := fun _ => rfl
theorem sraHl : Statement (.sraHl) := fun _ => rfl
theorem swapR (rs : Reg8) : Statement (.swapR rs) := fun _ => rfl
theorem swapHl : Statement (.swapHl) := fun _ => rfl
theorem srlR (rs : Reg8) : Statement (.srlR rs) := fun _ => rfl
theorem srlHl : Statement (.srlHl) := fun _ => rfl
theorem bitBR (b : Nat) (rs : Reg8) : Statement (.bitBR b rs) := fun _ => rfl
theorem bitBHl (b : Nat) : Statement (.bitBHl b) := fun _ => rfl
theorem resBR (b : Nat) (rs : Reg8) : Statement (.resBR b rs) := fun _ => rfl
theorem resBHl (b : Nat) : Statement (.resBHl b) := fun _ => rfl
theorem setBR (b : Nat) (rs : Reg8) : Statement (.setBR b rs) := fun _ => rfl
theorem setBHl (b : Nat) : Statement (.setBHl b) := fun _ => rfl

end Sys2Proof.Laws.EncodedLength
end

