-- ==== Sys2Proof/Tests/Slice0.lean ====
section
/-! SUPPORT. Tests: ill-formed terms are refused, every row's word decodes, one step of the spec's own vectors
(95_test_vectors section 2; the name ends in the vector's id), and for every statement with hypotheses a state that
meets them. Expected values are the spec's. -/

namespace Sys2Proof.Tests

open Sys2Proof Sys2Proof.Machine

/-! ## Helpers -/

/-- Store bytes from an address on. -/
def storeAll (s : State) (addr : Word) : List Byte → State
  | [] => s
  | b :: rest => storeAll (s.writeByte addr b) (addr + 1) rest

/-- The reset state with the bytes at `pc` and PC there. -/
def code (pc : Word) (bytes : List Byte) : State := { storeAll State.reset pc bytes with pc := pc }

/-- A step answers a next state that passes the check. -/
def yields (r : Result) (check : State → Bool) : Bool :=
  match r with
  | .next t => check t
  | _ => false

/-- The bytes decode, with none left over, to the instruction. -/
def decodesTo (bytes : List Byte) (i : Instr) : Bool :=
  match decode Config.default bytes with
  | .ok (j, []) => j == i
  | _ => false

/-- The bytes hold no whole instruction. -/
def cutOff (bytes : List Byte) : Bool :=
  match decode Config.default bytes with
  | .ok _ => false
  | .error _ => true

/-! ## Ill-formed terms -/

theorem test_refused_rstT : (Instr.rstT 8).wellFormed = false := by decide
theorem test_refused_bitBR : (Instr.bitBR 8 .a).wellFormed = false := by decide
theorem test_refused_bitBHl : (Instr.bitBHl 8).wellFormed = false := by decide
theorem test_refused_resBR : (Instr.resBR 8 .a).wellFormed = false := by decide
theorem test_refused_resBHl : (Instr.resBHl 8).wellFormed = false := by decide
theorem test_refused_setBR : (Instr.setBR 8 .a).wellFormed = false := by decide
theorem test_refused_setBHl : (Instr.setBHl 8).wellFormed = false := by decide
theorem test_accepted_edges :
    (Instr.rstT 7).wellFormed = true ∧ (Instr.bitBR 7 .a).wellFormed = true ∧ (Instr.setBHl 0).wellFormed = true := by
  decide

/-! ## A word for every row, written out from the encoding column of the table -/

theorem test_words_system1 :
    (
      decodesTo [0b00000000#8] .nop &&
      decodesTo [0b00010000#8, 0x00] .stop &&
      decodesTo [0b01110110#8] .halt &&
      decodesTo [0b11001011#8] .prefixCb &&
      decodesTo [0b11110011#8] .di &&
      decodesTo [0b11111011#8] .ei &&
      decodesTo [0b11010011#8] .invalidD3 &&
      decodesTo [0b11011011#8] .invalidDB &&
      decodesTo [0b11011101#8] .invalidDD &&
      decodesTo [0b11100011#8] .invalidE3 &&
      decodesTo [0b11100100#8] .invalidE4 &&
      decodesTo [0b11101011#8] .invalidEB &&
      decodesTo [0b11101100#8] .invalidEC &&
      decodesTo [0b11101101#8] .invalidED) = true := by decide

theorem test_words_system2 :
    (
      decodesTo [0b11110100#8] .invalidF4 &&
      decodesTo [0b11111100#8] .invalidFC &&
      decodesTo [0b11111101#8] .invalidFD) = true := by decide

theorem test_words_loads1 :
    (
      decodesTo [0b00_01_0001#8, 0x34, 0x12] (.ldRrNn .de 0x1234) &&
      decodesTo [0b00000010#8] .ldBcA &&
      decodesTo [0b00010010#8] .ldDeA &&
      decodesTo [0b00100010#8] .ldHliA &&
      decodesTo [0b00110010#8] .ldHldA &&
      decodesTo [0b00_100_110#8, 0x9C] (.ldRN .h 0x9C) &&
      decodesTo [0b00110110#8, 0x9C] (.ldHlN 0x9C) &&
      decodesTo [0b00001000#8, 0x34, 0x12] (.ldNnSp 0x1234) &&
      decodesTo [0b00001010#8] .ldABc &&
      decodesTo [0b00011010#8] .ldADe &&
      decodesTo [0b00101010#8] .ldAHli &&
      decodesTo [0b00111010#8] .ldAHld &&
      decodesTo [0b01_111_001#8] (.ldRR .a .c) &&
      decodesTo [0b01_101_110#8] (.ldRHl .l)) = true := by decide

theorem test_words_loads2 :
    (
      decodesTo [0b01110_111#8] (.ldHlR .a) &&
      decodesTo [0b11100000#8, 0x9C] (.ldhNA 0x9C) &&
      decodesTo [0b11110000#8, 0x9C] (.ldhAN 0x9C) &&
      decodesTo [0b11100010#8] .ldhCA &&
      decodesTo [0b11110010#8] .ldhAC &&
      decodesTo [0b11101010#8, 0x34, 0x12] (.ldNnA 0x1234) &&
      decodesTo [0b11111010#8, 0x34, 0x12] (.ldANn 0x1234) &&
      decodesTo [0b11111001#8] .ldSpHl) = true := by decide

theorem test_words_alu161 :
    (
      decodesTo [0b00_11_0011#8] (.incRr .sp) &&
      decodesTo [0b00_00_1001#8] (.addHlRr .bc) &&
      decodesTo [0b00_10_1011#8] (.decRr .hl) &&
      decodesTo [0b11101000#8, 0x9C] (.addSpE 0x9C) &&
      decodesTo [0b11111000#8, 0x9C] (.ldHlSpE 0x9C)) = true := by decide

theorem test_words_alu81 :
    (
      decodesTo [0b00_000_100#8] (.incR .b) &&
      decodesTo [0b00110100#8] .incHl &&
      decodesTo [0b00_010_101#8] (.decR .d) &&
      decodesTo [0b00110101#8] .decHl &&
      decodesTo [0b00100111#8] .daa &&
      decodesTo [0b00101111#8] .cpl &&
      decodesTo [0b00110111#8] .scf &&
      decodesTo [0b00111111#8] .ccf &&
      decodesTo [0b10000_011#8] (.addAR .e) &&
      decodesTo [0b10000110#8] .addAHl &&
      decodesTo [0b11000110#8, 0x9C] (.addAN 0x9C) &&
      decodesTo [0b10001_101#8] (.adcAR .l) &&
      decodesTo [0b10001110#8] .adcAHl &&
      decodesTo [0b11001110#8, 0x9C] (.adcAN 0x9C)) = true := by decide

theorem test_words_alu82 :
    (
      decodesTo [0b10010_000#8] (.subAR .b) &&
      decodesTo [0b10010110#8] .subAHl &&
      decodesTo [0b11010110#8, 0x9C] (.subAN 0x9C) &&
      decodesTo [0b10011_010#8] (.sbcAR .d) &&
      decodesTo [0b10011110#8] .sbcAHl &&
      decodesTo [0b11011110#8, 0x9C] (.sbcAN 0x9C) &&
      decodesTo [0b10100_100#8] (.andAR .h) &&
      decodesTo [0b10100110#8] .andAHl &&
      decodesTo [0b11100110#8, 0x9C] (.andAN 0x9C) &&
      decodesTo [0b10101_001#8] (.xorAR .c) &&
      decodesTo [0b10101110#8] .xorAHl &&
      decodesTo [0b11101110#8, 0x9C] (.xorAN 0x9C) &&
      decodesTo [0b10110_111#8] (.orAR .a) &&
      decodesTo [0b10110110#8] .orAHl) = true := by decide

theorem test_words_alu83 :
    (
      decodesTo [0b11110110#8, 0x9C] (.orAN 0x9C) &&
      decodesTo [0b10111_011#8] (.cpAR .e) &&
      decodesTo [0b10111110#8] .cpAHl &&
      decodesTo [0b11111110#8, 0x9C] (.cpAN 0x9C)) = true := by decide

theorem test_words_rotate_bit1 :
    (
      decodesTo [0b00000111#8] .rlca &&
      decodesTo [0b00001111#8] .rrca &&
      decodesTo [0b00010111#8] .rla &&
      decodesTo [0b00011111#8] .rra &&
      decodesTo [0b11001011#8, 0b00000_101#8] (.rlcR .l) &&
      decodesTo [0b11001011#8, 0b00000110#8] .rlcHl &&
      decodesTo [0b11001011#8, 0b00001_000#8] (.rrcR .b) &&
      decodesTo [0b11001011#8, 0b00001110#8] .rrcHl &&
      decodesTo [0b11001011#8, 0b00010_010#8] (.rlR .d) &&
      decodesTo [0b11001011#8, 0b00010110#8] .rlHl &&
      decodesTo [0b11001011#8, 0b00011_100#8] (.rrR .h) &&
      decodesTo [0b11001011#8, 0b00011110#8] .rrHl &&
      decodesTo [0b11001011#8, 0b00100_001#8] (.slaR .c) &&
      decodesTo [0b11001011#8, 0b00100110#8] .slaHl) = true := by decide

theorem test_words_rotate_bit2 :
    (
      decodesTo [0b11001011#8, 0b00101_111#8] (.sraR .a) &&
      decodesTo [0b11001011#8, 0b00101110#8] .sraHl &&
      decodesTo [0b11001011#8, 0b00110_011#8] (.swapR .e) &&
      decodesTo [0b11001011#8, 0b00110110#8] .swapHl &&
      decodesTo [0b11001011#8, 0b00111_101#8] (.srlR .l) &&
      decodesTo [0b11001011#8, 0b00111110#8] .srlHl &&
      decodesTo [0b11001011#8, 0b01_110_000#8] (.bitBR 6 .b) &&
      decodesTo [0b11001011#8, 0b01_001_110#8] (.bitBHl 1) &&
      decodesTo [0b11001011#8, 0b10_111_010#8] (.resBR 7 .d) &&
      decodesTo [0b11001011#8, 0b10_000_110#8] (.resBHl 0) &&
      decodesTo [0b11001011#8, 0b11_101_100#8] (.setBR 5 .h) &&
      decodesTo [0b11001011#8, 0b11_110_110#8] (.setBHl 6)) = true := by decide

theorem test_words_control1 :
    (
      decodesTo [0b00011000#8, 0x9C] (.jrE 0x9C) &&
      decodesTo [0b001_01_000#8, 0x9C] (.jrCcE .z 0x9C) &&
      decodesTo [0b110_10_000#8] (.retCc .nc) &&
      decodesTo [0b11_11_0001#8] (.popQq .af) &&
      decodesTo [0b110_11_010#8, 0x34, 0x12] (.jpCcNn .c 0x1234) &&
      decodesTo [0b11000011#8, 0x34, 0x12] (.jpNn 0x1234) &&
      decodesTo [0b110_00_100#8, 0x34, 0x12] (.callCcNn .nz 0x1234) &&
      decodesTo [0b11_00_0101#8] (.pushQq .bc) &&
      decodesTo [0b11_101_111#8] (.rstT 5) &&
      decodesTo [0b11001001#8] .ret &&
      decodesTo [0b11011001#8] .reti &&
      decodesTo [0b11001101#8, 0x34, 0x12] (.callNn 0x1234) &&
      decodesTo [0b11101001#8] .jpHl) = true := by decide

/-- An operand byte that is not there (30_encoding R101). -/
theorem test_words_cut_off : (cutOff [] && cutOff [0x06] && cutOff [0x01, 0x34] && cutOff [0xCD, 0x00]) = true := by
  decide

/-- The word of an extended row has the prefix on top; a primary row is its opcode byte (opcode_table.json). -/
theorem test_table_words :
    decodeTableWord 8 0x27 = some .daa ∧ decodeTableWord 16 0xCB37 = some (.swapR .a) ∧
    decodeTableWord 8 0xCB = some .prefixCb ∧ decodeTableWord 8 0x01 = some (.ldRrNn .bc 0x0000) := by decide

/-- The next step fetches and runs the word placed, from reset (SCF: V-A53's flags from F = 0). -/
theorem test_withFetchWord : yields (step (State.reset.withFetchWord 8 0x37))
    (fun t => t.f == 0x10 && t.pc == 0x0001 && t.cycles == 4) = true := by decide

/-- The same of an extended row: SET 7,A. -/
theorem test_withFetchWord_extended : yields (step (State.reset.withFetchWord 16 0xCBFF))
    (fun t => t.a == 0x80 && t.pc == 0x0002 && t.cycles == 8) = true := by decide

/-! ## One step of the spec's vectors -/

/-- V-LD1: LD B,C. -/
theorem test_ld_b_c_LD1 : yields (step { code 0x0100 [0x41] with c := 0x5A })
    (fun t => t.f == 0x00 && t.b == 0x5A && t.pc == 0x0101 && t.cycles == 4) = true := by decide

/-- V-LD3: LD L,H. -/
theorem test_ld_l_h_LD3 : yields (step { code 0x0100 [0x6C] with h := 0xC0, l := 0xDE })
    (fun t => t.f == 0x00 && t.l == 0xC0 && t.pc == 0x0101 && t.cycles == 4) = true := by decide

/-- V-LD4: LD E,0x7F. -/
theorem test_ld_e_0x7f_LD4 : yields (step (code 0x0100 [0x1E, 0x7F]))
    (fun t => t.f == 0x00 && t.e == 0x7F && t.pc == 0x0102 && t.cycles == 8) = true := by decide

/-- V-LD6: LD H,(HL). -/
theorem test_ld_h_hl_LD6 : yields (step { ((code 0x0100 [0x66]).writeByte 0xC000 0xD0) with h := 0xC0, l := 0x00 })
    (fun t => t.f == 0x00 && t.h == 0xD0 && t.pc == 0x0101 && t.cycles == 8) = true := by decide

/-- V-LD7: LD (HL),H. -/
theorem test_ld_hl_h_LD7 : yields (step { code 0x0100 [0x74] with h := 0xC0, l := 0x12 })
    (fun t => t.f == 0x00 && t.pc == 0x0101 && t.readByte 0xC012 == 0xC0 && t.cycles == 8) = true := by decide

/-- V-LD9: LD (HL),0x99. -/
theorem test_ld_hl_0x99_LD9 : yields (step { code 0x0100 [0x36, 0x99] with h := 0xFF, l := 0xFF })
    (fun t => t.f == 0x00 && t.pc == 0x0102 && t.readByte 0xFFFF == 0x99 && t.cycles == 12) = true := by decide

/-- V-LD10: LD A,(BC). -/
theorem test_ld_a_bc_LD10 : yields (step { ((code 0x0100 [0x0A]).writeByte 0xFF44 0x91) with b := 0xFF, c := 0x44 })
    (fun t => t.a == 0x91 && t.f == 0x00 && t.pc == 0x0101 && t.cycles == 8) = true := by decide

/-- V-LD11: LD A,(DE). -/
theorem test_ld_a_de_LD11 : yields (step { ((code 0x0100 [0x1A]).writeByte 0x0000 0x3C) with d := 0x00, e := 0x00 })
    (fun t => t.a == 0x3C && t.f == 0x00 && t.pc == 0x0101 && t.cycles == 8) = true := by decide

/-- V-LD12: LD (BC),A. -/
theorem test_ld_bc_a_LD12 : yields (step { code 0x0100 [0x02] with b := 0x01, c := 0x00, a := 0x00 })
    (fun t => t.f == 0x00 && t.pc == 0x0101 && t.readByte 0x0100 == 0x00 && t.cycles == 8) = true := by decide

/-- V-LD13: LD (DE),A. -/
theorem test_ld_de_a_LD13 : yields (step { code 0x0100 [0x12] with d := 0xC0, e := 0x00, a := 0xA5 })
    (fun t => t.f == 0x00 && t.pc == 0x0101 && t.readByte 0xC000 == 0xA5 && t.cycles == 8) = true := by decide

/-- V-LD14: LD A,(0xFFFF). -/
theorem test_ld_a_0xffff_LD14 : yields (step (((code 0x0100 [0xFA, 0xFF, 0xFF]).writeByte 0xFFFF 0x1F)))
    (fun t => t.a == 0x1F && t.f == 0x00 && t.pc == 0x0103 && t.cycles == 16) = true := by decide

/-- V-LD15: LD (0xC000),A. -/
theorem test_ld_0xc000_a_LD15 : yields (step { code 0x0100 [0xEA, 0x00, 0xC0] with a := 0x3C })
    (fun t => t.f == 0x00 && t.pc == 0x0103 && t.readByte 0xC000 == 0x3C && t.cycles == 16) = true := by decide

/-- V-LD16: LDH A,(C). -/
theorem test_ldh_a_c_LD16 : yields (step { ((code 0x0100 [0xF2]).writeByte 0xFF00 0xCF) with c := 0x00 })
    (fun t => t.a == 0xCF && t.f == 0x00 && t.pc == 0x0101 && t.cycles == 8) = true := by decide

/-- V-LD17: LDH (C),A. -/
theorem test_ldh_c_a_LD17 : yields (step { code 0x0100 [0xE2] with c := 0xFF, a := 0x1F })
    (fun t => t.f == 0x00 && t.pc == 0x0101 && t.readByte 0xFFFF == 0x1F && t.cycles == 8) = true := by decide

/-- V-LD18: LDH A,(0x44). -/
theorem test_ldh_a_0x44_LD18 : yields (step (((code 0x0100 [0xF0, 0x44]).writeByte 0xFF44 0x90)))
    (fun t => t.a == 0x90 && t.f == 0x00 && t.pc == 0x0102 && t.cycles == 12) = true := by decide

/-- V-LD19: LDH (0x00),A. -/
theorem test_ldh_0x00_a_LD19 : yields (step { code 0x0100 [0xE0, 0x00] with a := 0x30 })
    (fun t => t.f == 0x00 && t.pc == 0x0102 && t.readByte 0xFF00 == 0x30 && t.cycles == 12) = true := by decide

/-- V-LD20: LD A,(HL+). -/
theorem test_ld_a_hli_LD20 : yields (step { ((code 0x0100 [0x2A]).writeByte 0xFFFF 0x0F) with h := 0xFF, l := 0xFF })
    (fun t => t.a == 0x0F && t.f == 0x00 && t.h == 0x00 && t.l == 0x00 && t.pc == 0x0101 && t.cycles == 8) = true := by decide

/-- V-LD21: LD A,(HL-). -/
theorem test_ld_a_hld_LD21 : yields (step { ((code 0x0200 [0x3A]).writeByte 0x0000 0xAA) with h := 0x00, l := 0x00 })
    (fun t => t.a == 0xAA && t.f == 0x00 && t.h == 0xFF && t.l == 0xFF && t.pc == 0x0201 && t.cycles == 8) = true := by decide

/-- V-LD22: LD (HL+),A. -/
theorem test_ld_hli_a_LD22 : yields (step { code 0x0100 [0x22] with h := 0xC0, l := 0xFF, a := 0x11 })
    (fun t => t.f == 0x00 && t.h == 0xC1 && t.l == 0x00 && t.pc == 0x0101 && t.readByte 0xC0FF == 0x11 && t.cycles == 8) = true := by decide

/-- V-LD23: LD (HL-),A. -/
theorem test_ld_hld_a_LD23 : yields (step { code 0x0100 [0x32] with h := 0xC1, l := 0x00, a := 0x22 })
    (fun t => t.f == 0x00 && t.h == 0xC0 && t.l == 0xFF && t.pc == 0x0101 && t.readByte 0xC100 == 0x22 && t.cycles == 8) = true := by decide

/-- V-LD24: LD BC,0xFFFF. -/
theorem test_ld_bc_0xffff_LD24 : yields (step (code 0x0100 [0x01, 0xFF, 0xFF]))
    (fun t => t.f == 0x00 && t.b == 0xFF && t.c == 0xFF && t.pc == 0x0103 && t.cycles == 12) = true := by decide

/-- V-LD28: LD (0xFFFF),SP. -/
theorem test_ld_0xffff_sp_LD28 : yields (step { code 0x0100 [0x08, 0xFF, 0xFF] with sp := 0x1234 })
    (fun t => t.f == 0x00 && t.pc == 0x0103 && t.readByte 0x0000 == 0x12 && t.readByte 0xFFFF == 0x34 && t.cycles == 20) = true := by decide

/-- V-LD30: LD SP,HL. -/
theorem test_ld_sp_hl_LD30 : yields (step { code 0x0100 [0xF9] with h := 0x00, l := 0x00 })
    (fun t => t.f == 0x00 && t.sp == 0x0000 && t.pc == 0x0101 && t.cycles == 8) = true := by decide

/-- V-A2: ADD A,D. -/
theorem test_add_a_d_A2 : yields (step { code 0x0100 [0x82] with a := 0xFF, d := 0x01 })
    (fun t => t.a == 0x00 && t.f == 0xB0 && t.pc == 0x0101 && t.cycles == 4) = true := by decide

/-- V-A5: ADD A,(HL). -/
theorem test_add_a_hl_A5 : yields (step { ((code 0x0100 [0x86]).writeByte 0xC000 0x00) with a := 0x00, h := 0xC0, l := 0x00, f := 0x70 })
    (fun t => t.f == 0x80 && t.pc == 0x0101 && t.cycles == 8) = true := by decide

/-- V-A6: ADD A,0x10. -/
theorem test_add_a_0x10_A6 : yields (step { code 0x0100 [0xC6, 0x10] with a := 0xF0 })
    (fun t => t.a == 0x00 && t.f == 0x90 && t.pc == 0x0102 && t.cycles == 8) = true := by decide

/-- V-A8: ADC A,B. -/
theorem test_adc_a_b_A8 : yields (step { code 0x0100 [0x88] with a := 0xFF, b := 0xFF, f := 0x10 })
    (fun t => t.f == 0x30 && t.pc == 0x0101 && t.cycles == 4) = true := by decide

/-- V-A10: ADC A,(HL). -/
theorem test_adc_a_hl_A10 : yields (step { ((code 0x0100 [0x8E]).writeByte 0xC000 0x01) with a := 0x0E, h := 0xC0, l := 0x00, f := 0x10 })
    (fun t => t.a == 0x10 && t.f == 0x20 && t.pc == 0x0101 && t.cycles == 8) = true := by decide

/-- V-A11: ADC A,0x00. -/
theorem test_adc_a_0x00_A11 : yields (step { code 0x0100 [0xCE, 0x00] with a := 0xFF, f := 0x10 })
    (fun t => t.a == 0x00 && t.f == 0xB0 && t.pc == 0x0102 && t.cycles == 8) = true := by decide

/-- V-A13: SUB A,H. -/
theorem test_sub_a_h_A13 : yields (step { code 0x0100 [0x94] with a := 0x00, h := 0x01 })
    (fun t => t.a == 0xFF && t.f == 0x70 && t.pc == 0x0101 && t.cycles == 4) = true := by decide

/-- V-A15: SUB A,(HL). -/
theorem test_sub_a_hl_A15 : yields (step { ((code 0x0100 [0x96]).writeByte 0xC000 0x01) with a := 0x80, h := 0xC0, l := 0x00 })
    (fun t => t.a == 0x7F && t.f == 0x60 && t.pc == 0x0101 && t.cycles == 8) = true := by decide

/-- V-A16: SUB A,0xFF. -/
theorem test_sub_a_0xff_A16 : yields (step { code 0x0100 [0xD6, 0xFF] with a := 0xFF })
    (fun t => t.a == 0x00 && t.f == 0xC0 && t.pc == 0x0102 && t.cycles == 8) = true := by decide

/-- V-A18: SBC A,B. -/
theorem test_sbc_a_b_A18 : yields (step { code 0x0100 [0x98] with a := 0x10, b := 0x0F, f := 0x10 })
    (fun t => t.a == 0x00 && t.f == 0xE0 && t.pc == 0x0101 && t.cycles == 4) = true := by decide

/-- V-A20: SBC A,(HL). -/
theorem test_sbc_a_hl_A20 : yields (step { ((code 0x0100 [0x9E]).writeByte 0xC000 0x00) with a := 0x01, h := 0xC0, l := 0x00, f := 0x10 })
    (fun t => t.a == 0x00 && t.f == 0xC0 && t.pc == 0x0101 && t.cycles == 8) = true := by decide

/-- V-A21: SBC A,0x00. -/
theorem test_sbc_a_0x00_A21 : yields (step { code 0x0100 [0xDE, 0x00] with a := 0x00, f := 0x10 })
    (fun t => t.a == 0xFF && t.f == 0x70 && t.pc == 0x0102 && t.cycles == 8) = true := by decide

/-- V-A22: AND A,B. -/
theorem test_and_a_b_A22 : yields (step { code 0x0100 [0xA0] with a := 0xF0, b := 0x0F, f := 0x50 })
    (fun t => t.a == 0x00 && t.f == 0xA0 && t.pc == 0x0101 && t.cycles == 4) = true := by decide

/-- V-A24: AND A,(HL). -/
theorem test_and_a_hl_A24 : yields (step { ((code 0x0100 [0xA6]).writeByte 0xC000 0x3C) with a := 0xFF, h := 0xC0, l := 0x00 })
    (fun t => t.a == 0x3C && t.f == 0x20 && t.pc == 0x0101 && t.cycles == 8) = true := by decide

/-- V-A25: AND A,0x00. -/
theorem test_and_a_0x00_A25 : yields (step { code 0x0100 [0xE6, 0x00] with a := 0xFF })
    (fun t => t.a == 0x00 && t.f == 0xA0 && t.pc == 0x0102 && t.cycles == 8) = true := by decide

/-- V-A27: XOR A,C. -/
theorem test_xor_a_c_A27 : yields (step { code 0x0100 [0xA9] with a := 0xF0, c := 0x0F })
    (fun t => t.a == 0xFF && t.f == 0x00 && t.pc == 0x0101 && t.cycles == 4) = true := by decide

/-- V-A28: XOR A,(HL). -/
theorem test_xor_a_hl_A28 : yields (step { ((code 0x0100 [0xAE]).writeByte 0xC000 0x55) with a := 0x55, h := 0xC0, l := 0x00 })
    (fun t => t.a == 0x00 && t.f == 0x80 && t.pc == 0x0101 && t.cycles == 8) = true := by decide

/-- V-A29: XOR A,0x80. -/
theorem test_xor_a_0x80_A29 : yields (step { code 0x0100 [0xEE, 0x80] with a := 0x01 })
    (fun t => t.a == 0x81 && t.f == 0x00 && t.pc == 0x0102 && t.cycles == 8) = true := by decide

/-- V-A30: OR A,D. -/
theorem test_or_a_d_A30 : yields (step { code 0x0100 [0xB2] with a := 0x00, d := 0x00, f := 0x70 })
    (fun t => t.f == 0x80 && t.pc == 0x0101 && t.cycles == 4) = true := by decide

/-- V-A32: OR A,(HL). -/
theorem test_or_a_hl_A32 : yields (step { ((code 0x0100 [0xB6]).writeByte 0xC000 0x80) with a := 0x01, h := 0xC0, l := 0x00 })
    (fun t => t.a == 0x81 && t.f == 0x00 && t.pc == 0x0101 && t.cycles == 8) = true := by decide

/-- V-A33: OR A,0x0F. -/
theorem test_or_a_0x0f_A33 : yields (step { code 0x0100 [0xF6, 0x0F] with a := 0xF0 })
    (fun t => t.a == 0xFF && t.f == 0x00 && t.pc == 0x0102 && t.cycles == 8) = true := by decide

/-- V-A34: CP A,B. -/
theorem test_cp_a_b_A34 : yields (step { code 0x0100 [0xB8] with a := 0x00, b := 0x01 })
    (fun t => t.f == 0x70 && t.pc == 0x0101 && t.cycles == 4) = true := by decide

/-- V-A36: CP A,(HL). -/
theorem test_cp_a_hl_A36 : yields (step { ((code 0x0100 [0xBE]).writeByte 0xC000 0x01) with a := 0x10, h := 0xC0, l := 0x00 })
    (fun t => t.f == 0x60 && t.pc == 0x0101 && t.cycles == 8) = true := by decide

/-- V-A37: CP A,0x90. -/
theorem test_cp_a_0x90_A37 : yields (step { code 0x0100 [0xFE, 0x90] with a := 0x80 })
    (fun t => t.f == 0x50 && t.pc == 0x0102 && t.cycles == 8) = true := by decide

/-- V-A38: INC B. -/
theorem test_inc_b_A38 : yields (step { code 0x0100 [0x04] with b := 0x0F, f := 0x10 })
    (fun t => t.f == 0x30 && t.b == 0x10 && t.pc == 0x0101 && t.cycles == 4) = true := by decide

/-- V-A41: INC (HL). -/
theorem test_inc_hl_A41 : yields (step { ((code 0x0100 [0x34]).writeByte 0xC000 0xFF) with h := 0xC0, l := 0x00, f := 0x10 })
    (fun t => t.f == 0xB0 && t.pc == 0x0101 && t.readByte 0xC000 == 0x00 && t.cycles == 12) = true := by decide

/-- V-A42: DEC D. -/
theorem test_dec_d_A42 : yields (step { code 0x0100 [0x15] with d := 0x10 })
    (fun t => t.f == 0x60 && t.d == 0x0F && t.pc == 0x0101 && t.cycles == 4) = true := by decide

/-- V-A45: DEC (HL). -/
theorem test_dec_hl_A45 : yields (step { ((code 0x0100 [0x35]).writeByte 0xC000 0x00) with h := 0xC0, l := 0x00 })
    (fun t => t.f == 0x60 && t.pc == 0x0101 && t.readByte 0xC000 == 0xFF && t.cycles == 12) = true := by decide

/-- V-A46: DAA after 0x99+0x99. -/
theorem test_daa_after_0x99_0x99_A46 : yields (step { code 0x0100 [0x27] with a := 0x32, f := 0x30 })
    (fun t => t.a == 0x98 && t.f == 0x10 && t.pc == 0x0101 && t.cycles == 4) = true := by decide

/-- V-A47: DAA after 0x00−0x01. -/
theorem test_daa_after_0x00minus0x01_A47 : yields (step { code 0x0100 [0x27] with a := 0xFF, f := 0x70 })
    (fun t => t.a == 0x99 && t.f == 0x50 && t.pc == 0x0101 && t.cycles == 4) = true := by decide

/-- V-A52: CPL. -/
theorem test_cpl_A52 : yields (step { code 0x0100 [0x2F] with a := 0x00, f := 0x90 })
    (fun t => t.a == 0xFF && t.f == 0xF0 && t.pc == 0x0101 && t.cycles == 4) = true := by decide

/-- V-A54: SCF. -/
theorem test_scf_A54 : yields (step { code 0x0100 [0x37] with f := 0x70 })
    (fun t => t.f == 0x10 && t.pc == 0x0101 && t.cycles == 4) = true := by decide

/-- V-A56: CCF. -/
theorem test_ccf_A56 : yields (step { code 0x0100 [0x3F] with f := 0xE0 })
    (fun t => t.f == 0x90 && t.pc == 0x0101 && t.cycles == 4) = true := by decide

/-- V-W3: ADD HL,HL. -/
theorem test_add_hl_hl_W3 : yields (step { code 0x0100 [0x29] with h := 0x88, l := 0x00 })
    (fun t => t.f == 0x30 && t.h == 0x10 && t.pc == 0x0101 && t.cycles == 8) = true := by decide

/-- V-W4: ADD HL,SP. -/
theorem test_add_hl_sp_W4 : yields (step { code 0x0100 [0x39] with h := 0x00, l := 0x01, sp := 0xFFFF })
    (fun t => t.f == 0x30 && t.l == 0x00 && t.pc == 0x0101 && t.cycles == 8) = true := by decide

/-- V-W5: INC BC. -/
theorem test_inc_bc_W5 : yields (step { code 0x0100 [0x03] with b := 0xFF, c := 0xFF, f := 0x00 })
    (fun t => t.f == 0x00 && t.b == 0x00 && t.c == 0x00 && t.pc == 0x0101 && t.cycles == 8) = true := by decide

/-- V-W6: INC SP. -/
theorem test_inc_sp_W6 : yields (step { code 0x0100 [0x33] with sp := 0xFFFF, f := 0xF0 })
    (fun t => t.f == 0xF0 && t.sp == 0x0000 && t.pc == 0x0101 && t.cycles == 8) = true := by decide

/-- V-W8: DEC DE. -/
theorem test_dec_de_W8 : yields (step { code 0x0100 [0x1B] with d := 0x00, e := 0x00 })
    (fun t => t.f == 0x00 && t.d == 0xFF && t.e == 0xFF && t.pc == 0x0101 && t.cycles == 8) = true := by decide

/-- V-W9: DEC SP. -/
theorem test_dec_sp_W9 : yields (step { code 0x0100 [0x3B] with sp := 0x0000 })
    (fun t => t.f == 0x00 && t.sp == 0xFFFF && t.pc == 0x0101 && t.cycles == 8) = true := by decide

/-- V-W11: ADD SP,0x01. -/
theorem test_add_sp_0x01_W11 : yields (step { code 0x0100 [0xE8, 0x01] with sp := 0xFFFF })
    (fun t => t.f == 0x30 && t.sp == 0x0000 && t.pc == 0x0102 && t.cycles == 16) = true := by decide

/-- V-W14: ADD SP,0x80 (−128). -/
theorem test_add_sp_0x80_minus128_W14 : yields (step { code 0x0100 [0xE8, 0x80] with sp := 0x1000, f := 0xF0 })
    (fun t => t.f == 0x00 && t.sp == 0x0F80 && t.pc == 0x0102 && t.cycles == 16) = true := by decide

/-- V-W16: LD HL,SP+0xFF (−1). -/
theorem test_ld_hl_sp_0xff_minus1_W16 : yields (step { code 0x0100 [0xF8, 0xFF] with sp := 0xFFFE })
    (fun t => t.f == 0x30 && t.h == 0xFF && t.l == 0xFD && t.pc == 0x0102 && t.cycles == 12) = true := by decide

/-- V-R1: RLCA. -/
theorem test_rlca_R1 : yields (step { code 0x0100 [0x07] with a := 0x00, f := 0x80 })
    (fun t => t.f == 0x00 && t.pc == 0x0101 && t.cycles == 4) = true := by decide

/-- V-R2: RLCA (ACC_ROTATE_Z=result). -/
theorem test_rlca_acc_rotate_z_result_R2 : yields (step { code 0x0100 [0x07] with a := 0x00, cfg := { accRotateZ := .result } })
    (fun t => t.f == 0x80 && t.pc == 0x0101 && t.cycles == 4) = true := by decide

/-- V-R3: RRCA. -/
theorem test_rrca_R3 : yields (step { code 0x0100 [0x0F] with a := 0x01 })
    (fun t => t.a == 0x80 && t.f == 0x10 && t.pc == 0x0101 && t.cycles == 4) = true := by decide

/-- V-R5: RLA (ACC_ROTATE_Z=result). -/
theorem test_rla_acc_rotate_z_result_R5 : yields (step { code 0x0100 [0x17] with a := 0x80, cfg := { accRotateZ := .result } })
    (fun t => t.a == 0x00 && t.f == 0x90 && t.pc == 0x0101 && t.cycles == 4) = true := by decide

/-- V-R6: RRA. -/
theorem test_rra_R6 : yields (step { code 0x0100 [0x1F] with a := 0x01, f := 0x10 })
    (fun t => t.a == 0x80 && t.f == 0x10 && t.pc == 0x0101 && t.cycles == 4) = true := by decide

/-- V-R8: RLC B. -/
theorem test_rlc_b_R8 : yields (step { code 0x0100 [0xCB, 0x00] with b := 0x00, f := 0x10 })
    (fun t => t.f == 0x80 && t.pc == 0x0102 && t.cycles == 8) = true := by decide

/-- V-R9: RLC (HL). -/
theorem test_rlc_hl_R9 : yields (step { ((code 0x0100 [0xCB, 0x06]).writeByte 0xC000 0x80) with h := 0xC0, l := 0x00 })
    (fun t => t.f == 0x10 && t.pc == 0x0102 && t.readByte 0xC000 == 0x01 && t.cycles == 16) = true := by decide

/-- V-R10: RRC A. -/
theorem test_rrc_a_R10 : yields (step { code 0x0100 [0xCB, 0x0F] with a := 0x01 })
    (fun t => t.a == 0x80 && t.f == 0x10 && t.pc == 0x0102 && t.cycles == 8) = true := by decide

/-- V-R11: RRC (HL). -/
theorem test_rrc_hl_R11 : yields (step { ((code 0x0100 [0xCB, 0x0E]).writeByte 0xC000 0x00) with h := 0xC0, l := 0x00, f := 0x10 })
    (fun t => t.f == 0x80 && t.pc == 0x0102 && t.cycles == 16) = true := by decide

/-- V-R12: RL C. -/
theorem test_rl_c_R12 : yields (step { code 0x0100 [0xCB, 0x11] with c := 0x80 })
    (fun t => t.f == 0x90 && t.c == 0x00 && t.pc == 0x0102 && t.cycles == 8) = true := by decide

/-- V-R13: RL (HL). -/
theorem test_rl_hl_R13 : yields (step { ((code 0x0100 [0xCB, 0x16]).writeByte 0xC000 0x7F) with h := 0xC0, l := 0x00, f := 0x10 })
    (fun t => t.f == 0x00 && t.pc == 0x0102 && t.readByte 0xC000 == 0xFF && t.cycles == 16) = true := by decide

/-- V-R14: RR D. -/
theorem test_rr_d_R14 : yields (step { code 0x0100 [0xCB, 0x1A] with d := 0x01, f := 0x10 })
    (fun t => t.f == 0x10 && t.d == 0x80 && t.pc == 0x0102 && t.cycles == 8) = true := by decide

/-- V-R16: SLA H. -/
theorem test_sla_h_R16 : yields (step { code 0x0100 [0xCB, 0x24] with h := 0x80 })
    (fun t => t.f == 0x90 && t.h == 0x00 && t.pc == 0x0102 && t.cycles == 8) = true := by decide

/-- V-R17: SLA (HL). -/
theorem test_sla_hl_R17 : yields (step { ((code 0x0100 [0xCB, 0x26]).writeByte 0xC000 0x41) with h := 0xC0, l := 0x00 })
    (fun t => t.f == 0x00 && t.pc == 0x0102 && t.readByte 0xC000 == 0x82 && t.cycles == 16) = true := by decide

/-- V-R18: SRA L. -/
theorem test_sra_l_R18 : yields (step { code 0x0100 [0xCB, 0x2D] with l := 0x81 })
    (fun t => t.f == 0x10 && t.l == 0xC0 && t.pc == 0x0102 && t.cycles == 8) = true := by decide

/-- V-R20: SRA (HL). -/
theorem test_sra_hl_R20 : yields (step { ((code 0x0100 [0xCB, 0x2E]).writeByte 0xC000 0xFF) with h := 0xC0, l := 0x00 })
    (fun t => t.f == 0x10 && t.pc == 0x0102 && t.cycles == 16) = true := by decide

/-- V-R21: SWAP A. -/
theorem test_swap_a_R21 : yields (step { code 0x0100 [0xCB, 0x37] with a := 0x00, f := 0x10 })
    (fun t => t.f == 0x80 && t.pc == 0x0102 && t.cycles == 8) = true := by decide

/-- V-R23: SRL D. -/
theorem test_srl_d_R23 : yields (step { code 0x0100 [0xCB, 0x3A] with d := 0x01 })
    (fun t => t.f == 0x90 && t.d == 0x00 && t.pc == 0x0102 && t.cycles == 8) = true := by decide

/-- V-R24: SRL (HL). -/
theorem test_srl_hl_R24 : yields (step { ((code 0x0100 [0xCB, 0x3E]).writeByte 0xC000 0x80) with h := 0xC0, l := 0x00 })
    (fun t => t.f == 0x00 && t.pc == 0x0102 && t.readByte 0xC000 == 0x40 && t.cycles == 16) = true := by decide

/-- V-R25: BIT 0,A. -/
theorem test_bit_0_a_R25 : yields (step { code 0x0100 [0xCB, 0x47] with a := 0x01, f := 0x10 })
    (fun t => t.f == 0x30 && t.pc == 0x0102 && t.cycles == 8) = true := by decide

/-- V-R27: BIT 7,(HL). -/
theorem test_bit_7_hl_R27 : yields (step { ((code 0x0100 [0xCB, 0x7E]).writeByte 0xC000 0x7F) with h := 0xC0, l := 0x00, f := 0x50 })
    (fun t => t.f == 0xB0 && t.pc == 0x0102 && t.cycles == 12) = true := by decide

/-- V-R29: RES 7,A. -/
theorem test_res_7_a_R29 : yields (step { code 0x0100 [0xCB, 0xBF] with a := 0xFF, f := 0xB0 })
    (fun t => t.a == 0x7F && t.f == 0xB0 && t.pc == 0x0102 && t.cycles == 8) = true := by decide

/-- V-R30: RES 0,(HL). -/
theorem test_res_0_hl_R30 : yields (step { ((code 0x0100 [0xCB, 0x86]).writeByte 0xC000 0x01) with h := 0xC0, l := 0x00 })
    (fun t => t.f == 0x00 && t.pc == 0x0102 && t.readByte 0xC000 == 0x00 && t.cycles == 16) = true := by decide

/-- V-R32: SET 0,(HL). -/
theorem test_set_0_hl_R32 : yields (step { ((code 0x0100 [0xCB, 0xC6]).writeByte 0xC000 0x00) with h := 0xC0, l := 0x00, f := 0x80 })
    (fun t => t.f == 0x80 && t.pc == 0x0102 && t.readByte 0xC000 == 0x01 && t.cycles == 16) = true := by decide

/-- V-R34: SET 5,B. -/
theorem test_set_5_b_R34 : yields (step { code 0x0100 [0xCB, 0xE8] with b := 0x20 })
    (fun t => t.f == 0x00 && t.pc == 0x0102 && t.cycles == 8) = true := by decide

/-- V-R35: RR (HL). -/
theorem test_rr_hl_R35 : yields (step { ((code 0x0100 [0xCB, 0x1E]).writeByte 0xC000 0x00) with h := 0xC0, l := 0x00, f := 0x10 })
    (fun t => t.f == 0x00 && t.pc == 0x0102 && t.readByte 0xC000 == 0x80 && t.cycles == 16) = true := by decide

/-- V-R36: SWAP (HL). -/
theorem test_swap_hl_R36 : yields (step { ((code 0x0100 [0xCB, 0x36]).writeByte 0xC000 0xF0) with h := 0xC0, l := 0x00 })
    (fun t => t.f == 0x00 && t.pc == 0x0102 && t.readByte 0xC000 == 0x0F && t.cycles == 16) = true := by decide

/-- V-C1: PUSH AF. -/
theorem test_push_af_C1 : yields (step { code 0x0100 [0xF5] with a := 0x12, f := 0xB0 })
    (fun t => t.f == 0xB0 && t.sp == 0xFFFC && t.pc == 0x0101 && t.readByte 0xFFFC == 0xB0 && t.readByte 0xFFFD == 0x12 && t.cycles == 16) = true := by decide

/-- V-C2: PUSH HL. -/
theorem test_push_hl_C2 : yields (step { code 0x0100 [0xE5] with h := 0xAB, l := 0xCD, sp := 0x0001 })
    (fun t => t.f == 0x00 && t.sp == 0xFFFF && t.pc == 0x0101 && t.readByte 0x0000 == 0xAB && t.readByte 0xFFFF == 0xCD && t.cycles == 16) = true := by decide

/-- V-C4: POP BC. -/
theorem test_pop_bc_C4 : yields (step { (((code 0x0200 [0xC1]).writeByte 0xFFFF 0x34).writeByte 0x0000 0x12) with sp := 0xFFFF })
    (fun t => t.f == 0x00 && t.b == 0x12 && t.c == 0x34 && t.sp == 0x0001 && t.pc == 0x0201 && t.cycles == 12) = true := by decide

/-- V-C5: POP AF. -/
theorem test_pop_af_C5 : yields (step { (((code 0x0100 [0xF1]).writeByte 0xC000 0x0F).writeByte 0xC001 0xFF) with sp := 0xC000 })
    (fun t => t.a == 0xFF && t.f == 0x00 && t.sp == 0xC002 && t.pc == 0x0101 && t.cycles == 12) = true := by decide

/-- V-C7: JP 0x0000. -/
theorem test_jp_0x0000_C7 : yields (step (code 0x0100 [0xC3, 0x00, 0x00]))
    (fun t => t.f == 0x00 && t.pc == 0x0000 && t.cycles == 16) = true := by decide

/-- V-C8: JP NZ,0x4000 (taken). -/
theorem test_jp_nz_0x4000_taken_C8 : yields (step { code 0x0100 [0xC2, 0x00, 0x40] with f := 0x00 })
    (fun t => t.f == 0x00 && t.pc == 0x4000 && t.cycles == 16) = true := by decide

/-- V-C9: JP Z,0x4000 (not taken). -/
theorem test_jp_z_0x4000_not_taken_C9 : yields (step { code 0x0100 [0xCA, 0x00, 0x40] with f := 0x00 })
    (fun t => t.f == 0x00 && t.pc == 0x0103 && t.cycles == 12) = true := by decide

/-- V-C11: JP C,0x4000 (taken). -/
theorem test_jp_c_0x4000_taken_C11 : yields (step { code 0x0100 [0xDA, 0x00, 0x40] with f := 0x10 })
    (fun t => t.f == 0x10 && t.pc == 0x4000 && t.cycles == 16) = true := by decide

/-- V-C12: JP HL. -/
theorem test_jp_hl_C12 : yields (step { code 0x0100 [0xE9] with h := 0xFF, l := 0xFF })
    (fun t => t.f == 0x00 && t.pc == 0xFFFF && t.cycles == 4) = true := by decide

/-- V-C14: JR −128. -/
theorem test_jr_minus128_C14 : yields (step (code 0x0100 [0x18, 0x80]))
    (fun t => t.f == 0x00 && t.pc == 0x0082 && t.cycles == 12) = true := by decide

/-- V-C16: JR +0x7F across 0xFFFF. -/
theorem test_jr_0x7f_across_0xffff_C16 : yields (step (code 0xFFF0 [0x18, 0x7F]))
    (fun t => t.f == 0x00 && t.pc == 0x0071 && t.cycles == 12) = true := by decide

/-- V-C17: JR Z,−2 (taken). -/
theorem test_jr_z_minus2_taken_C17 : yields (step { code 0x0100 [0x28, 0xFE] with f := 0x80 })
    (fun t => t.f == 0x80 && t.pc == 0x0100 && t.cycles == 12) = true := by decide

/-- V-C19: JR C,+2 (not taken). -/
theorem test_jr_c_2_not_taken_C19 : yields (step { code 0x0100 [0x38, 0x02] with f := 0x00 })
    (fun t => t.f == 0x00 && t.pc == 0x0102 && t.cycles == 8) = true := by decide

/-- V-C20: CALL 0x1234. -/
theorem test_call_0x1234_C20 : yields (step { code 0x0100 [0xCD, 0x34, 0x12] with sp := 0xD000 })
    (fun t => t.f == 0x00 && t.sp == 0xCFFE && t.pc == 0x1234 && t.readByte 0xCFFE == 0x03 && t.readByte 0xCFFF == 0x01 && t.cycles == 24) = true := by decide

/-- V-C21: CALL NZ,0x1234 (not taken). -/
theorem test_call_nz_0x1234_not_taken_C21 : yields (step { code 0x0100 [0xC4, 0x34, 0x12] with f := 0x80 })
    (fun t => t.f == 0x80 && t.pc == 0x0103 && t.cycles == 12) = true := by decide

/-- V-C22: CALL Z,0x1234 (taken). -/
theorem test_call_z_0x1234_taken_C22 : yields (step { code 0x0100 [0xCC, 0x34, 0x12] with f := 0x80 })
    (fun t => t.f == 0x80 && t.sp == 0xFFFC && t.pc == 0x1234 && t.readByte 0xFFFC == 0x03 && t.readByte 0xFFFD == 0x01 && t.cycles == 24) = true := by decide

/-- V-C26: RET. -/
theorem test_ret_C26 : yields (step { (((code 0x0100 [0xC9]).writeByte 0xFFFC 0x34).writeByte 0xFFFD 0x12) with sp := 0xFFFC })
    (fun t => t.f == 0x00 && t.sp == 0xFFFE && t.pc == 0x1234 && t.cycles == 16) = true := by decide

/-- V-C27: RET NZ (taken). -/
theorem test_ret_nz_taken_C27 : yields (step { (((code 0x0100 [0xC0]).writeByte 0xFFFC 0x00).writeByte 0xFFFD 0x30) with sp := 0xFFFC })
    (fun t => t.f == 0x00 && t.sp == 0xFFFE && t.pc == 0x3000 && t.cycles == 20) = true := by decide

/-- V-C28: RET Z (not taken). -/
theorem test_ret_z_not_taken_C28 : yields (step { (((code 0x0100 [0xC8]).writeByte 0xFFFC 0x00).writeByte 0xFFFD 0x30) with sp := 0xFFFC })
    (fun t => t.f == 0x00 && t.pc == 0x0101 && t.cycles == 8) = true := by decide

/-- V-C31: RETI. -/
theorem test_reti_C31 : yields (step { (((code 0x0100 [0xD9]).writeByte 0xFFFC 0x50).writeByte 0xFFFD 0x01) with sp := 0xFFFC })
    (fun t => t.f == 0x00 && t.sp == 0xFFFE && t.pc == 0x0150 && t.ime == true && t.cycles == 16) = true := by decide

/-- V-C33: RST 0x28. -/
theorem test_rst_0x28_C33 : yields (step { code 0x0100 [0xEF] with sp := 0x0001 })
    (fun t => t.f == 0x00 && t.sp == 0xFFFF && t.pc == 0x0028 && t.readByte 0x0000 == 0x01 && t.readByte 0xFFFF == 0x01 && t.cycles == 16) = true := by decide

/-- V-S2: NOP at 0xFFFF. -/
theorem test_nop_at_0xffff_S2 : yields (step (code 0xFFFF [0x00]))
    (fun t => t.f == 0x00 && t.pc == 0x0000 && t.cycles == 4) = true := by decide

/-- V-S3: HALT. -/
theorem test_halt_S3 : yields (step (code 0x0100 [0x76]))
    (fun t => t.f == 0x00 && t.pc == 0x0101 && t.halt == true && t.cycles == 4) = true := by decide

/-- V-S4: STOP (byte 0xCB ignored). -/
theorem test_stop_byte_0xcb_ignored_S4 : yields (step (code 0x0100 [0x10, 0xCB]))
    (fun t => t.f == 0x00 && t.pc == 0x0102 && t.stop == true && t.cycles == 4) = true := by decide

/-- V-S6: STOP (STOP_LENGTH=1). -/
theorem test_stop_stop_length_1_S6 : yields (step { code 0x0100 [0x10, 0x00] with cfg := { stopLength := .one } })
    (fun t => t.f == 0x00 && t.pc == 0x0101 && t.stop == true && t.cycles == 4) = true := by decide

/-- V-S7: DI. -/
theorem test_di_S7 : yields (step { code 0x0100 [0xF3] with ime := true })
    (fun t => t.f == 0x00 && t.pc == 0x0101 && t.ime == false && t.cycles == 4) = true := by decide

/-- V-S8: EI. -/
theorem test_ei_S8 : yields (step (code 0x0100 [0xFB]))
    (fun t => t.f == 0x00 && t.pc == 0x0101 && t.ime == true && t.eiDelay == true && t.cycles == 4) = true := by decide

/-- V-S9: EI with ime = 1. -/
theorem test_ei_with_ime_1_S9 : yields (step { code 0x0100 [0xFB] with ime := true })
    (fun t => t.f == 0x00 && t.pc == 0x0101 && t.cycles == 4) = true := by decide

/-- V-S11: invalid opcode. -/
theorem test_invalid_opcode_S11 : yields (step { code 0x0100 [0xD3, 0x00] with a := 0x12, f := 0x50, ime := true, eiDelay := true })
    (fun t => t.f == 0x50 && t.pc == 0x0100 && t.fault == some (.invalidOpcode 0x0100 0xD3) && t.cycles == 0) = true := by decide

/-- V-S15: invalid opcode. -/
theorem test_invalid_opcode_S15 : yields (step { code 0x0100 [0xE4, 0x00] with a := 0x12, f := 0x50, ime := true, eiDelay := true })
    (fun t => t.f == 0x50 && t.pc == 0x0100 && t.fault == some (.invalidOpcode 0x0100 0xE4) && t.cycles == 0) = true := by decide

/-- V-S18: invalid opcode. -/
theorem test_invalid_opcode_S18 : yields (step { code 0x0100 [0xED, 0x00] with a := 0x12, f := 0x50, ime := true, eiDelay := true })
    (fun t => t.f == 0x50 && t.pc == 0x0100 && t.fault == some (.invalidOpcode 0x0100 0xED) && t.cycles == 0) = true := by decide

/-- V-S19: invalid opcode. -/
theorem test_invalid_opcode_S19 : yields (step { code 0x0100 [0xF4, 0x00] with a := 0x12, f := 0x50, ime := true, eiDelay := true })
    (fun t => t.f == 0x50 && t.pc == 0x0100 && t.fault == some (.invalidOpcode 0x0100 0xF4) && t.cycles == 0) = true := by decide

/-- V-E3: interrupt dispatch, irq = some 2. -/
theorem test_interrupt_dispatch_irq_some_2_E3 : yields (step { code 0x1234 [0x00] with ime := true, sp := 0xD000, irqPort := .given (some 2) .never })
    (fun t => t.f == 0x00 && t.sp == 0xCFFE && t.pc == 0x0050 && t.ime == false && t.readByte 0xCFFE == 0x34 && t.readByte 0xCFFF == 0x12 && t.cycles == 20) = true := by decide

/-- V-E5: request with ime = 0 is not taken. -/
theorem test_request_with_ime_0_is_not_taken_E5 : yields (step { code 0x0100 [0x00] with ime := false, irqPort := .given (some 0) .never })
    (fun t => t.f == 0x00 && t.pc == 0x0101 && t.cycles == 4) = true := by decide

/-- V-E12: HALT with ime = 0 and irq = some 0: refused. -/
theorem test_halt_with_ime_0_and_irq_some_0_E12 : yields (step { code 0x0100 [0x76] with irqPort := .given (some 0) .never })
    (fun t => t.f == 0x00 && t.pc == 0x0100 && t.fault == some (.haltBugUnmodelled 0x0100) && t.cycles == 0) = true := by decide

/-- V-E13: interrupt in front of an invalid opcode: dispatch, no fault. -/
theorem test_interrupt_in_front_of_an_invalid_opcode_E13 : yields (step { code 0x0100 [0xD3] with ime := true, irqPort := .given (some 0) .never })
    (fun t => t.f == 0x00 && t.sp == 0xFFFC && t.pc == 0x0040 && t.ime == false && t.readByte 0xFFFD == 0x01 && t.cycles == 20) = true := by decide

/-- V-E16: CB prefix and opcode are one step (SWAP A). -/
theorem test_cb_prefix_and_opcode_are_one_step_swap_a_E16 : yields (step { code 0x0100 [0xCB, 0x37] with a := 0x12, ime := true })
    (fun t => t.a == 0x21 && t.f == 0x00 && t.pc == 0x0102 && t.cycles == 8) = true := by decide

/-- V-E14: a faulted core does not step. -/
theorem test_faulted_core_E14 :
    step { State.reset with fault := some (.invalidOpcode 0x0100 0xD3) } = .fault (.invalidOpcode 0x0100 0xD3) := rfl

/-- V-RST1: reset from a Faulted state, memory and ticks kept. -/
theorem test_reset_RST1 :
    let s := { (code 0x0100 [0xD3]).writeByte 0xC000 0x77 with
      a := 0x12, b := 0x34, sp := 0xD000, ime := true, cycles := 1000, cfg := { resetPc := .bootSkipped }
      fault := some (.invalidOpcode 0x0100 0xD3) }
    (s.applyReset.a = 0 ∧ s.applyReset.b = 0 ∧ s.applyReset.sp = 0xFFFE ∧ s.applyReset.pc = 0x0100) ∧
      (s.applyReset.ime = false ∧ s.applyReset.fault = none) ∧ s.applyReset.readByte 0xC000 = 0x77 ∧
      s.applyReset.cycles = 1000 := by decide

/-- A periodic timer answers again and again, and a first answer may stand before any port (60_exceptions R405). -/
theorem test_environment_answers :
    ((IrqPort.cycle [none, none, some 2]).afterSteps 2).answer = some 2 ∧
    ((IrqPort.cycle [none, none, some 2]).afterSteps 8).answer = some 2 ∧
    ((IrqPort.cycle [none, none, some 2]).afterSteps 9).answer = none ∧
    ((IrqPort.given (some 1) (.cycle [some 0])).afterSteps 1).answer = some 0 := by decide

/-- A placed word runs first although a request is asserted at every step, and the storm goes on after it. -/
theorem test_withFetchWord_in_a_storm :
    yields (step ({ State.reset with ime := true, irqPort := .cycle [some 0] }.withFetchWord 8 0x3C))
      (fun t => t.a == 0x01 && t.irqPort == .cycle [some 0]) = true := by decide

/-- Writing the value an unlisted address reads as removes the entry; a rewrite replaces it (20_memory R71). -/
theorem test_memory_form :
    Memory.write (Memory.write [] 5 0x11) 5 0x00 = [] ∧
    Memory.write (Memory.write (Memory.write [] 9 0x33) 5 0x11) 5 0x22 = [(5, 0x22), (9, 0x33)] ∧
    Memory.wf [(5, 0x22), (9, 0x33)] = true ∧ Memory.wf [(9, 0x33), (5, 0x22)] = false ∧
    Memory.wf [(5, 0x00)] = false ∧ Memory.wf [(65536, 0x01)] = false := by decide


/-! ## Witnesses: each statement's hypotheses are met, every clause at a boundary of its range -/

theorem witness_DecodeOfEncodeIsTheInstruction :
    (Instr.setBR 7 .a).wellFormed = true ∧ Instr.setBR 7 .a ≠ .prefixCb ∧
    (Instr.rstT 0).wellFormed = true ∧ Instr.rstT 0 ≠ .prefixCb := by decide

theorem witness_DecodeConsumesExactlyTheEncoding :
    decode Config.default [0xCB, 0xFF, 0x01] = .ok (.setBR 7 .a, [0x01]) ∧
    decode Config.default [0x10, 0xD3] = .ok (.stop, []) ∧ decode Config.default [0xCB] = .ok (.prefixCb, []) :=
  ⟨rfl, rfl, rfl⟩

theorem witness_InvalidSlotsAreTheEleven :
    (0xD3 : Byte) ∈ [0xD3#8, 0xDB, 0xDD, 0xE3, 0xE4, 0xEB, 0xEC, 0xED, 0xF4, 0xFC, 0xFD] ∧
    (0xFD : Byte) ∈ [0xD3#8, 0xDB, 0xDD, 0xE3, 0xE4, 0xEB, 0xEC, 0xED, 0xF4, 0xFC, 0xFD] := by decide

/-- A state at INC A with nothing to dispatch, for each of the three reasons. -/
theorem witness_StepExecutesTheDecodedInstruction :
    let quiet := code 0x0100 [0x3C]
    let masked := { code 0x0100 [0x3C] with irqPort := .given (some 0) .never }
    let delayed := { code 0x0100 [0x3C] with ime := true, eiDelay := true, irqPort := .given (some 0) .never }
    (quiet.Running ∧ quiet.NoDispatch) ∧ (masked.Running ∧ masked.NoDispatch) ∧
    (delayed.Running ∧ delayed.NoDispatch) ∧
    decode quiet.cfg [quiet.readByte quiet.pc, quiet.readByte (quiet.pc + 1), quiet.readByte (quiet.pc + 2)] =
      .ok (.incR .a, [0x00, 0x00]) :=
  ⟨⟨⟨rfl, rfl, rfl⟩, .inr (.inr rfl)⟩, ⟨⟨rfl, rfl, rfl⟩, .inl rfl⟩, ⟨⟨rfl, rfl, rfl⟩, .inr (.inl rfl)⟩, rfl⟩

/-- A step under a storm of requests takes the first answer and leaves the same storm. -/
theorem witness_EveryStepTakesOneAnswer :
    ∃ t, step { code 0x0100 [0x3C] with irqPort := .cycle [some 4] } = .next t ∧ t.irq = some 4 ∧
      t.irqPort = .cycle [some 4] := ⟨_, rfl, rfl, rfl⟩

theorem witness_IdleStepOnlyCharges :
    let stopped := { State.reset with stop := true }
    let halted := { State.reset with halt := true }
    (stopped.fault = none ∧ stopped.irqPort.answer = none ∧ stopped.stop = true) ∧
    (halted.fault = none ∧ halted.irqPort.answer = none ∧ halted.stop = false ∧ halted.halt = true) := by decide

/-- Halted with `ime` = 0, Halted with `ei_delay` = 1, and Stopped with `ime` = 1. -/
theorem witness_RequestWakesHaltedAndStopped :
    let masked := { State.reset with halt := true, irqPort := .given (some 0) .never }
    let delayed := { State.reset with halt := true, ime := true, eiDelay := true, irqPort := .given (some 4) .never }
    let open_ := { State.reset with stop := true, ime := true, irqPort := .given (some 4) .never }
    (masked.PowerExclusive ∧ masked.halt = true ∧ masked.irqPort.answer = some 0 ∧ masked.ime = false) ∧
    (delayed.PowerExclusive ∧ delayed.halt = true ∧ delayed.irqPort.answer = some 4 ∧ delayed.eiDelay = true) ∧
    (open_.PowerExclusive ∧ open_.stop = true ∧ open_.irqPort.answer = some 4 ∧ open_.ime = true ∧
      open_.eiDelay = false) ∧
    masked.fault = none ∧ delayed.fault = none ∧ open_.fault = none := by
  unfold State.PowerExclusive
  decide

/-- The lowest and the highest request; the premises of RetiUndoesADispatch are the same. -/
theorem witness_DispatchEntersTheVector :
    let low := { State.reset with ime := true, irqPort := .given (some 0) .never }
    let high := { State.reset with ime := true, halt := true, irqPort := .given (some 4) .never }
    (low.fault = none ∧ low.PowerExclusive ∧ low.ime = true ∧ low.eiDelay = false ∧
      low.irqPort.answer = some 0) ∧
    (high.fault = none ∧ high.PowerExclusive ∧ high.ime = true ∧ high.eiDelay = false ∧
      high.irqPort.answer = some 4) := by
  unfold State.PowerExclusive
  decide

theorem witness_RetiUndoesADispatch :
    let s := { State.reset with sp := 0x0001, ime := true, irqPort := .given (some 4) .never }
    s.fault = none ∧ s.PowerExclusive ∧ s.ime = true ∧ s.eiDelay = false ∧ s.irqPort.answer = some 4 := by
  unfold State.PowerExclusive
  decide

theorem witness_FaultedCoreIsStuckUntilReset :
    { State.reset with fault := some (.invalidOpcode 0x0100 0xD3) }.fault = some (.invalidOpcode 0x0100 0xD3) ∧
    { State.reset with fault := some (.haltBugUnmodelled 0x0100) }.fault = some (.haltBugUnmodelled 0x0100) := by
  decide

/-- EI; NOP with a request at every step (V-E9): the premises, and those of the last clause. -/
theorem witness_EiHoldsDispatchBackOneInstruction :
    let s := { code 0x0100 [0xFB, 0x00] with irqPort := .cycle [some 0] }
    (s.Running ∧ s.ime = false ∧ s.cfg.eiDelay = .one ∧ fetchInstr s = .ei) ∧
    ∃ t u, step s = .next t ∧ step t = .next u ∧ u.fault = none ∧ u.ime = true ∧
      u.irqPort.answer = some 0 :=
  ⟨⟨⟨rfl, rfl, rfl⟩, rfl, rfl, rfl⟩, _, _, rfl, rfl, rfl, rfl, rfl⟩

theorem witness_StepKeepsFlagNibbleZero :
    { code 0x0100 [0x3C] with f := 0xF0 }.FlagNibbleZero ∧
    ∃ t, step { code 0x0100 [0x3C] with f := 0xF0 } = .next t := ⟨rfl, _, rfl⟩

theorem witness_StepKeepsMemoryCanonical :
    (code 0xFFFF [0x34]).MemCanonical ∧ ∃ t, step (code 0xFFFF [0x34]) = .next t := ⟨rfl, _, rfl⟩

theorem witness_StepKeepsHaltAndStopExclusive :
    (code 0x0100 [0x76]).PowerExclusive ∧ ∃ t, step (code 0x0100 [0x76]) = .next t :=
  ⟨by unfold State.PowerExclusive; decide, _, rfl⟩

theorem witness_StepKeepsDelayWithinIme :
    { code 0x0100 [0xF3] with ime := true, eiDelay := true }.DelayWithinIme ∧
    ∃ t, step { code 0x0100 [0xF3] with ime := true, eiDelay := true } = .next t := ⟨fun _ => rfl, _, rfl⟩

theorem witness_InvariantsHoldAtPowerOn : Memory.wf [(0, 0x01), (65535, 0xFF)] = true := by decide

theorem witness_EveryInstructionAnswersANextState : State.reset.fault = none := rfl

/-- The prefix row, and HALT where the spec does not refuse it. -/
theorem witness_EveryInstructionChargesItsTableCount :
    (Instr.row State.reset .prefixCb).invalidByte = none ∧
    (Instr.row State.reset .halt).invalidByte = none ∧ State.reset.haltRefused = false := by decide

theorem witness_OnlyDiEiRetiWriteIme :
    Instr.nop ≠ .di ∧ Instr.nop ≠ .ei ∧ Instr.nop ≠ .reti ∧ ∃ t, exec .nop State.reset = .next t :=
  ⟨by decide, by decide, by decide, _, rfl⟩

theorem witness_OnlyStackInstructionsWriteSp :
    (Instr.ldRrNn .hl 0xFFFF).writesSp = false ∧ ∃ t, exec (.ldRrNn .hl 0xFFFF) State.reset = .next t :=
  ⟨rfl, _, rfl⟩

theorem witness_FlaglessInstructionsKeepF :
    (Instr.popQq .hl).keepsFlags = true ∧ ∃ t, exec (.popQq .hl) State.reset = .next t := ⟨rfl, _, rfl⟩

theorem witness_InstructionsWriteOnlyTheirDestinations :
    Reg8.b ∉ (Instr.row State.reset (.incR .a)).dests ∧ ∃ t, exec (.incR .a) State.reset = .next t :=
  ⟨by decide, _, rfl⟩

/-- PUSH BC with SP at 0x0001 stores at 0x0000 and 0xFFFF and nowhere else. -/
theorem witness_InstructionsStoreOnlyTheirBytes :
    let s := { State.reset with b := 0x12, c := 0x34, sp := 0x0001 }
    (0x0000, 0x12) ∈ (Instr.row s (.pushQq .bc)).stores s ∧ (0xFFFF, 0x34) ∈ (Instr.row s (.pushQq .bc)).stores s ∧
    (0x0001 : Word) ∉ ((Instr.row s (.pushQq .bc)).stores s).map Prod.fst ∧
    ∃ t, exec (.pushQq .bc) s = .next t := ⟨by decide, by decide, by decide, _, rfl⟩

theorem witness_SequentialInstructionsAdvancePc :
    Instr.halt.transfers = false ∧ Instr.halt.invalidByte = none ∧ State.reset.haltRefused = false ∧
    Instr.prefixCb.transfers = false ∧ Instr.prefixCb.invalidByte = none := by decide

theorem witness_DecimalAdjustCorrectsBcd :
    let s := { State.reset with a := 0x99, b := 0x00 }
    isBcd s.a ∧ isBcd (s.reg8 .b) := by
  unfold isBcd
  decide

/-- The first and the last bit number. -/
theorem witness_BitInstructions : 0 < 8 ∧ 7 < 8 := by decide

/-- The first and the last restart. -/
theorem witness_CallsReturnsAndRestarts :
    decodesTo [0xC7] (.rstT 0) = true ∧ decodesTo [0xFF] (.rstT 7) = true := by decide

theorem witness_HaltHaltsOrIsRecorded :
    (State.reset.irq = none) ∧ { State.reset with ime := true, irq := some 0 }.ime = true ∧
    { State.reset with irq := some 4 }.ime = false ∧ { State.reset with irq := some 4 }.irq ≠ none := by decide

theorem witness_InvalidOpcodeCommitsOnlyTheFault :
    Instr.invalidD3.invalidByte = some 0xD3 ∧ Instr.invalidFD.invalidByte = some 0xFD := by decide

end Sys2Proof.Tests
end

/-! PROOFS. The pair views are their two registers (10_state R32). -/

namespace Sys2Proof

/-! ## The two bytes of a word as numbers -/

/-- `v[15:8]` in the numbers the statements write. -/
theorem hiByte_eq_ofNat (v : Word) : hiByte v = BitVec.ofNat 8 (v.toNat / 256) := by
  rw [← hiByte_toNat, BitVec.ofNat_toNat, BitVec.setWidth_eq]

/-- `v[7:0]` in the numbers the statements write: `BitVec.ofNat 8` drops the high byte itself. -/
theorem loByte_eq_ofNat (v : Word) : loByte v = BitVec.ofNat 8 v.toNat :=
  BitVec.eq_of_toNat_eq (by rw [loByte_toNat, BitVec.toNat_ofNat])

/-- `pairWord_toNat` in the order of the statements. -/
theorem pairWord_toNat_high_first (h l : Byte) : (pairWord h l).toNat = 256 * h.toNat + l.toNat := by
  rw [pairWord_toNat, Nat.mul_comm]

namespace Machine

/-! ## What writing a pair does to the state -/

theorem State.setBc_eq_ofNat (s : State) (v : Word) :
    s.setBc v = { s with b := BitVec.ofNat 8 (v.toNat / 256), c := BitVec.ofNat 8 v.toNat } := by
  rw [State.setBc, hiByte_eq_ofNat, loByte_eq_ofNat]

theorem State.setDe_eq_ofNat (s : State) (v : Word) :
    s.setDe v = { s with d := BitVec.ofNat 8 (v.toNat / 256), e := BitVec.ofNat 8 v.toNat } := by
  rw [State.setDe, hiByte_eq_ofNat, loByte_eq_ofNat]

theorem State.setHl_eq_ofNat (s : State) (v : Word) :
    s.setHl v = { s with h := BitVec.ofNat 8 (v.toNat / 256), l := BitVec.ofNat 8 v.toNat } := by
  rw [State.setHl, hiByte_eq_ofNat, loByte_eq_ofNat]

theorem State.setAf_eq_ofNat (s : State) (v : Word) :
    s.setAf v = { s with a := BitVec.ofNat 8 (v.toNat / 256) }.writeF (BitVec.ofNat 8 v.toNat) := by
  rw [State.setAf, hiByte_eq_ofNat, loByte_eq_ofNat]

/-- Settles O16: the reads are one fact about `pairWord`, the writes one about `hiByte` and `loByte`, and reading
back is `State.pair_setPair` at each pair. -/
theorem pairViewsAreTheirRegisters : Obligations.PairViewsAreTheirRegisters := by
  intro s v
  exact ⟨pairWord_toNat_high_first s.b s.c, pairWord_toNat_high_first s.d s.e,
    pairWord_toNat_high_first s.h s.l, pairWord_toNat_high_first s.a s.readF,
    s.setBc_eq_ofNat v, s.setDe_eq_ofNat v, s.setHl_eq_ofNat v, s.setAf_eq_ofNat v,
    s.pair_setPair .bc v, s.pair_setPair .de v, s.pair_setPair .hl v⟩

end Machine

end Sys2Proof

/-! PROOFS. The loads and stores of 41_loads (R170 to R191). -/

namespace Sys2Proof

/-! ## The spec's sums as word arithmetic: a sum of numbers, cut to 16 bits -/

theorem ofNat_toNat_add (v : Word) (k : Nat) : BitVec.ofNat 16 (v.toNat + k) = v + BitVec.ofNat 16 k := by
  rw [BitVec.ofNat_add, BitVec.ofNat_toNat, BitVec.setWidth_eq]

/-- Modulo 2^16, adding 65535 is going back by one. -/
theorem ofNat_toNat_add_65535 (v : Word) : BitVec.ofNat 16 (v.toNat + 65535) = v - 1 := by
  rw [ofNat_toNat_add]
  bv_omega

namespace Machine

theorem highRam_eq_ofNat (offset : Byte) : highRam offset = BitVec.ofNat 16 (0xFF00 + offset.toNat) := by
  rw [BitVec.ofNat_add, BitVec.ofNat_toNat]
  rfl

end Machine

/-! ## The encodings with an operand in the opcode byte: one case for each operand code (30_encoding R104) -/

theorem decodeBytes_ldRR (rd rs : Reg8) (b1 b2 : Byte) :
    decodeBytes (0x40#8 ||| rd.code <<< 3 ||| rs.code) b1 b2 = .ldRR rd rs := by
  cases rd <;> cases rs <;> rfl

theorem decodeBytes_ldRN (rd : Reg8) (n b2 : Byte) : decodeBytes (0x06#8 ||| rd.code <<< 3) n b2 = .ldRN rd n := by
  cases rd <;> rfl

theorem decodeBytes_ldRHl (rd : Reg8) (b1 b2 : Byte) : decodeBytes (0x46#8 ||| rd.code <<< 3) b1 b2 = .ldRHl rd := by
  cases rd <;> rfl

theorem decodeBytes_ldHlR (rs : Reg8) (b1 b2 : Byte) : decodeBytes (0x70#8 ||| rs.code) b1 b2 = .ldHlR rs := by
  cases rs <;> rfl

/-- Any two operand bytes; those of a word `nn` give `nn` back by `pairWord_hiByte_loByte`. -/
theorem decodeBytes_ldRrNn (p : Pair) (b1 b2 : Byte) :
    decodeBytes (0x01#8 ||| p.code <<< 4) b1 b2 = .ldRrNn p (pairWord b2 b1) := by
  cases p <;> rfl

namespace Machine

/-! ## The shapes of a load: one register written, A read from memory, one byte stored -/

theorem State.complete_setReg8 (s : State) (n k : Nat) (r : Reg8) (v : Byte) :
    ((s.fetched n).setReg8 r v).complete k = .next ((s.after n k).setReg8 r v) := by
  cases r <;> rfl

theorem State.complete_loadA (s : State) (n k : Nat) (addr : Word) :
    ({ s.fetched n with a := (s.fetched n).readByte addr }).complete k =
      .next { s.after n k with a := s.readByte addr } := rfl

theorem State.complete_writeByte (s : State) (n k : Nat) (addr : Word) (v : Byte) :
    ((s.fetched n).writeByte addr v).complete k = .next ((s.after n k).writeByte addr v) := rfl

@[simp] theorem State.reg8_fetched (s : State) (n : Nat) (r : Reg8) : (s.fetched n).reg8 r = s.reg8 r := by
  cases r <;> rfl

/-! ## The obligations -/

/-- Settles O32: each form writes one register or stores one byte, with its operand read from the state that
`fetched` leaves, whose registers and memory are those of `s`. -/
theorem registerLoads : Obligations.RegisterLoads := by
  refine ⟨fun rd rs n b1 b2 => ⟨decodeBytes_ldRR rd rs b1 b2, decodeBytes_ldRN rd n b2, decodeBytes_ldRHl rd b1 b2,
    decodeBytes_ldHlR rs b1 b2, rfl⟩, fun s rd rs n => ?_⟩
  rw [← s.reg8_fetched 1 rs]
  exact ⟨s.complete_setReg8 1 4 rd _, s.complete_setReg8 2 8 rd n, s.complete_setReg8 1 8 rd _,
    s.complete_writeByte 1 8 s.hl _, s.complete_writeByte 2 12 s.hl n⟩

/-- Settles O33: six accesses at one address each; the two bytes of an absolute address are put together again by
the decoder. -/
theorem accumulatorLoads : Obligations.AccumulatorLoads :=
  ⟨fun nn _ _ => ⟨rfl, rfl, rfl, rfl, congrArg Instr.ldANn (pairWord_hiByte_loByte nn),
      congrArg Instr.ldNnA (pairWord_hiByte_loByte nn)⟩,
    fun s nn => ⟨s.complete_loadA 1 8 s.bc, s.complete_loadA 1 8 s.de, s.complete_writeByte 1 8 s.bc s.a,
      s.complete_writeByte 1 8 s.de s.a, s.complete_loadA 3 16 nn, s.complete_writeByte 3 16 nn s.a⟩⟩

/-- Settles O34: the same accesses at a high-RAM address, `highRam_eq_ofNat` giving the address as the number the
statement writes. -/
theorem highRamLoads : Obligations.HighRamLoads := by
  refine ⟨fun _ _ _ => ⟨rfl, rfl, rfl, rfl⟩, fun s n => ?_⟩
  simp only [← highRam_eq_ofNat]
  exact ⟨s.complete_loadA 1 8 (highRam s.c), s.complete_writeByte 1 8 (highRam s.c) s.a,
    s.complete_loadA 2 12 (highRam n), s.complete_writeByte 2 12 (highRam n) s.a⟩

/-- Settles O35: the new HL as a sum of numbers is the old one stepped modulo 2^16; the rest is what the four
meanings say, since charging ticks leaves HL, A and memory alone. -/
theorem steppingLoads : Obligations.SteppingLoads := by
  refine ⟨fun _ _ => ⟨rfl, rfl, rfl, rfl⟩, fun s => ?_⟩
  rw [ofNat_toNat_add, ofNat_toNat_add_65535]
  exact ⟨rfl, rfl, rfl, rfl⟩

/-- Settles O36: the pair's two bytes for each pair, and the second store of LD (nn),SP one address up, modulo
2^16. -/
theorem wideLoads : Obligations.WideLoads := by
  refine ⟨fun p nn _ _ => ⟨?_, congrArg Instr.ldNnSp (pairWord_hiByte_loByte nn), rfl⟩, fun s nn => ?_⟩
  · rw [decodeBytes_ldRrNn, pairWord_hiByte_loByte]
  · rw [ofNat_toNat_add]
    exact ⟨rfl, rfl, rfl, rfl, rfl, rfl⟩

end Machine

end Sys2Proof

/-! PROOFS. The 8-bit arithmetic and logic of 42_alu8 (R223 to R254), ADC and SBC apart. -/

namespace Sys2Proof

/-! ## The spec's sums and differences as byte arithmetic, modulo 2^8 -/

theorem byte_ofNat_toNat_add (v : Byte) (k : Nat) : BitVec.ofNat 8 (v.toNat + k) = v + BitVec.ofNat 8 k := by
  rw [BitVec.ofNat_add, BitVec.ofNat_toNat, BitVec.setWidth_eq]

theorem byte_ofInt_toNat_sub (v : Byte) (k : Nat) :
    BitVec.ofInt 8 ((v.toNat : Int) - k) = v - BitVec.ofNat 8 k := by
  apply BitVec.eq_of_toNat_eq
  rw [BitVec.toNat_ofInt, BitVec.toNat_sub, BitVec.toNat_ofNat]
  omega

/-- Modulo 2^8, adding 255 is going back by one. -/
theorem byte_ofNat_toNat_add_255 (v : Byte) : BitVec.ofNat 8 (v.toNat + 255) = v - 1 := by
  rw [byte_ofNat_toNat_add]
  bv_omega

theorem byte_ofNat_eq_zero_iff (k : Nat) : BitVec.ofNat 8 k = 0 ↔ k % 256 = 0 := by
  rw [← BitVec.toNat_inj, BitVec.toNat_ofNat]
  rfl

theorem byte_not_eq_ofNat (v : Byte) : ~~~v = BitVec.ofNat 8 (255 - v.toNat) := by
  apply BitVec.eq_of_toNat_eq
  rw [BitVec.toNat_not, BitVec.toNat_ofNat]
  omega

/-! ## The encodings with a register code in the opcode byte (30_encoding R104, R110) -/

theorem onR8_code (r : Reg8) (hlForm : Instr) (regForm : Reg8 → Instr) :
    onR8 r.code.toNat hlForm regForm = regForm r := by
  cases r <;> rfl

/-- The quarter x = 2 of the primary map with a register operand: the row `alu[y]` is read from bits 5 to 3. -/
theorem decodeBytes_quarter2 (y : Fin 8) (rs : Reg8) (b1 b2 : Byte) :
    decodeBytes (BitVec.ofNat 8 (0x80 + 8 * y) ||| rs.code) b1 b2 = decodeQuarter2 y rs.code.toNat := by
  cases rs <;> fin_cases y <;> rfl

theorem decodeBytes_incR (rd : Reg8) (b1 b2 : Byte) : decodeBytes (0x04#8 ||| rd.code <<< 3) b1 b2 = .incR rd := by
  cases rd <;> rfl

theorem decodeBytes_decR (rd : Reg8) (b1 b2 : Byte) : decodeBytes (0x05#8 ||| rd.code <<< 3) b1 b2 = .decR rd := by
  cases rd <;> rfl

namespace Machine

/-! ## The arithmetic functions in the numbers of the statements -/

theorem add8_without_carry (a b : Byte) :
    add8 a b false =
      { res := BitVec.ofNat 8 (a.toNat + b.toNat)
        z := decide ((a.toNat + b.toNat) % 256 = 0)
        n := false
        h := decide (a.toNat % 16 + b.toNat % 16 > 0x0F)
        c := decide (a.toNat + b.toNat > 0xFF) } := by
  simp only [add8, Bool.toNat_false, Nat.add_zero, byte_ofNat_eq_zero_iff]

/-- Without a borrow-in the difference is 0 exactly if the operands are equal. -/
theorem sub8_without_borrow (a b : Byte) :
    sub8 a b false =
      { res := BitVec.ofInt 8 ((a.toNat : Int) - b.toNat)
        z := decide (a = b)
        n := true
        h := decide (a.toNat % 16 < b.toNat % 16)
        c := decide (a.toNat < b.toNat) } := by
  have hz : BitVec.ofInt 8 ((a.toNat : Int) - b.toNat) = 0 ↔ a = b := by
    rw [byte_ofInt_toNat_sub, BitVec.ofNat_toNat, BitVec.setWidth_eq, sub_eq_zero]
  simp only [sub8, Bool.toNat_false, Nat.add_zero, Nat.cast_zero, sub_zero, hz]

theorem inc8_eq_ofNat (v : Byte) (c : Bool) :
    inc8 v c =
      { res := BitVec.ofNat 8 (v.toNat + 1), z := decide (v = 0xFF), n := false
        h := decide (v.toNat % 16 = 15), c := c } := by
  have hz : v + 1 = 0 ↔ v = 0xFF := by bv_omega
  simp only [inc8, hz, byte_ofNat_toNat_add]
  rfl

theorem dec8_eq_ofNat (v : Byte) (c : Bool) :
    dec8 v c =
      { res := BitVec.ofNat 8 (v.toNat + 255), z := decide (v = 0x01), n := true
        h := decide (v.toNat % 16 = 0), c := c } := by
  simp only [dec8, byte_ofNat_toNat_add_255, sub_eq_zero]

/-! ## DAA (R251) -/

/-- The two corrections have no bit in common, so joining them is adding them. -/
theorem daaCorrection_eq_ofNat (high low : Bool) :
    (bif high then 0x60 else 0x00 : Byte) ||| (bif low then 0x06 else 0x00) =
      BitVec.ofNat 8 ((if high then 0x60 else 0) + (if low then 0x06 else 0)) := by
  cases high <;> cases low <;> rfl

/-- The table in numbers: after a subtraction the flags alone correct A, after an addition the thresholds as
well. Both sides then are A less or plus one number, and `simp` reads their conditions as the same. -/
theorem daa8_eq_table (a : Byte) (n h c : Bool) :
    let high := c = true ∨ (n = false ∧ a.toNat > 0x99)
    let low := h = true ∨ (n = false ∧ a.toNat % 16 > 0x09)
    let corr : Nat := (if high then 0x60 else 0) + (if low then 0x06 else 0)
    let r : Byte := if n then BitVec.ofInt 8 ((a.toNat : Int) - corr) else BitVec.ofNat 8 (a.toNat + corr)
    daa8 a n h c = { res := r, z := decide (r = 0), n := n, h := false, c := decide high } := by
  cases n with
  | true =>
    simp only [daa8, daaCorrection_eq_ofNat, byte_ofInt_toNat_sub]
    simp
  | false =>
    simp only [daa8, daaCorrection_eq_ofNat, byte_ofNat_toNat_add]
    simp

/-! ## The shapes of the family: the flags written after another effect, and a result written to A -/

/-- An instruction that writes flags as well ends in the state it would end in without them, with those flags. -/
theorem State.complete_setFlags {s t : State} {k : Nat} (hs : s.complete k = .next t) (z n h c : Bool) :
    (s.setFlags z n h c).complete k = .next { t with f := flagByte z n h c } := by
  cases hs
  rw [State.setFlags_eq]
  rfl

theorem State.complete_applyAlu (s : State) (n k : Nat) (x : AluResult) :
    ((s.fetched n).applyAlu x).complete k =
      .next { s.after n k with a := x.res, f := flagByte x.z x.n x.h x.c } := by
  rw [State.applyAlu_eq]
  rfl

theorem State.complete_add8 (s : State) (n k : Nat) (v : Byte) :
    ((s.fetched n).applyAlu (add8 s.a v false)).complete k =
      .next { s.after n k with
        a := BitVec.ofNat 8 (s.a.toNat + v.toNat)
        f := flagByte ((s.a.toNat + v.toNat) % 256 = 0) false (s.a.toNat % 16 + v.toNat % 16 > 0x0F)
          (s.a.toNat + v.toNat > 0xFF) } := by
  rw [State.complete_applyAlu, add8_without_carry]

theorem State.complete_sub8 (s : State) (n k : Nat) (v : Byte) :
    ((s.fetched n).applyAlu (sub8 s.a v false)).complete k =
      .next { s.after n k with
        a := BitVec.ofInt 8 ((s.a.toNat : Int) - v.toNat)
        f := flagByte (s.a = v) true (s.a.toNat % 16 < v.toNat % 16) (s.a.toNat < v.toNat) } := by
  rw [State.complete_applyAlu, sub8_without_borrow]

theorem State.complete_cp8 (s : State) (n k : Nat) (v : Byte) :
    ((s.fetched n).applyFlags (sub8 s.a v false)).complete k =
      .next { s.after n k with
        f := flagByte (s.a = v) true (s.a.toNat % 16 < v.toNat % 16) (s.a.toNat < v.toNat) } := by
  rw [sub8_without_borrow]
  exact State.complete_setFlags rfl _ _ _ _

/-! ## The obligations -/

/-- Settles O37: each form writes one sum or difference to A, with its operand read from the state that `fetched`
leaves. -/
theorem addAndSub : Obligations.AddAndSub := by
  refine ⟨fun rs _ b1 b2 => ⟨(decodeBytes_quarter2 0 rs b1 b2).trans (onR8_code rs _ _), rfl, rfl,
    (decodeBytes_quarter2 2 rs b1 b2).trans (onR8_code rs _ _), rfl, rfl⟩, fun s rs n => ?_⟩
  rw [← s.reg8_fetched 1 rs]
  exact ⟨s.complete_add8 1 4 _, s.complete_add8 1 8 _, s.complete_add8 2 8 n,
    s.complete_sub8 1 4 _, s.complete_sub8 1 8 _, s.complete_sub8 2 8 n⟩

/-- Settles O39: each form writes one result to A; the flags of `and8`, `xor8` and `or8` are those of the
statement. -/
theorem logicalInstructions : Obligations.LogicalInstructions := by
  refine ⟨fun rs _ b1 b2 => ⟨(decodeBytes_quarter2 4 rs b1 b2).trans (onR8_code rs _ _), rfl, rfl,
    (decodeBytes_quarter2 5 rs b1 b2).trans (onR8_code rs _ _), rfl, rfl,
    (decodeBytes_quarter2 6 rs b1 b2).trans (onR8_code rs _ _), rfl, rfl⟩, fun s rs n => ?_⟩
  rw [← s.reg8_fetched 1 rs]
  exact ⟨s.complete_applyAlu 1 4 (and8 _ _), s.complete_applyAlu 1 8 (and8 _ _), s.complete_applyAlu 2 8 (and8 _ n),
    s.complete_applyAlu 1 4 (xor8 _ _), s.complete_applyAlu 1 8 (xor8 _ _), s.complete_applyAlu 2 8 (xor8 _ n),
    s.complete_applyAlu 1 4 (or8 _ _), s.complete_applyAlu 1 8 (or8 _ _), s.complete_applyAlu 2 8 (or8 _ n)⟩

/-- Settles O40: the flags of the difference that SUB writes, with A left alone. -/
theorem compareSetsFlagsOnly : Obligations.CompareSetsFlagsOnly := by
  refine ⟨fun rs _ b1 b2 => ⟨(decodeBytes_quarter2 7 rs b1 b2).trans (onR8_code rs _ _), rfl, rfl⟩,
    fun s rs n => ?_⟩
  rw [← s.reg8_fetched 1 rs]
  exact ⟨s.complete_cp8 1 4 _, s.complete_cp8 1 8 _, s.complete_cp8 2 8 n⟩

/-- Settles O41: the register or byte is written as a load writes it, and then the flags. -/
theorem byteIncrementAndDecrement : Obligations.ByteIncrementAndDecrement := by
  refine ⟨fun rd b1 b2 => ⟨decodeBytes_incR rd b1 b2, rfl, decodeBytes_decR rd b1 b2, rfl⟩, fun s rd => ?_⟩
  simp only [exec, execIncR, execIncHl, execDecR, execDecHl, inc8_eq_ofNat, dec8_eq_ofNat, State.reg8_fetched]
  exact ⟨State.complete_setFlags (s.complete_setReg8 1 4 rd _) _ _ _ _,
    State.complete_setFlags (s.complete_writeByte 1 12 s.hl _) _ _ _ _,
    State.complete_setFlags (s.complete_setReg8 1 4 rd _) _ _ _ _,
    State.complete_setFlags (s.complete_writeByte 1 12 s.hl _) _ _ _ _⟩

/-- Settles O42: DAA writes the result of `daa8` for the flags as they stand, which is the table. -/
theorem decimalAdjust : Obligations.DecimalAdjust := by
  refine ⟨fun _ _ => rfl, fun s => (s.complete_applyAlu 1 4 _).trans ?_⟩
  rw [daa8_eq_table]
  rfl

/-- Settles O43: CPL's A is the complement as a number; each of the three ends with its flags. -/
theorem complementAndCarryFlag : Obligations.ComplementAndCarryFlag := by
  refine ⟨fun _ _ => ⟨rfl, rfl, rfl⟩, fun s => ?_⟩
  rw [← byte_not_eq_ofNat]
  exact ⟨State.complete_setFlags rfl _ _ _ _, State.complete_setFlags rfl _ _ _ _,
    State.complete_setFlags rfl _ _ _ _⟩

end Machine

end Sys2Proof

/-! PROOFS. The 16-bit arithmetic of 43_alu16 (R280 to R285). -/

namespace Sys2Proof

/-! ## The encodings with a pair code in the opcode byte (30_encoding R104) -/

theorem decodeBytes_addHlRr (p : Pair) (b1 b2 : Byte) : decodeBytes (0x09#8 ||| p.code <<< 4) b1 b2 = .addHlRr p := by
  cases p <;> rfl

theorem decodeBytes_incRr (p : Pair) (b1 b2 : Byte) : decodeBytes (0x03#8 ||| p.code <<< 4) b1 b2 = .incRr p := by
  cases p <;> rfl

theorem decodeBytes_decRr (p : Pair) (b1 b2 : Byte) : decodeBytes (0x0B#8 ||| p.code <<< 4) b1 b2 = .decRr p := by
  cases p <;> rfl

namespace Machine

/-- The displacement is the signed value of the byte, and the sum is cut to 16 bits (R283). -/
theorem add_sext16_eq_ofInt (v : Word) (e : Byte) : v + sext16 e = BitVec.ofInt 16 ((v.toNat : Int) + e.toInt) := by
  rw [BitVec.ofInt_add, BitVec.ofInt_natCast, BitVec.ofNat_toNat, BitVec.setWidth_eq]
  rfl

@[simp] theorem State.pair_fetched (s : State) (n : Nat) (p : Pair) : (s.fetched n).pair p = s.pair p := by
  cases p <;> rfl

theorem State.complete_setPair (s : State) (n k : Nat) (p : Pair) (v : Word) :
    ((s.fetched n).setPair p v).complete k = .next ((s.after n k).setPair p v) := by
  cases p <;> rfl

/-- Settles O48: each form writes one pair, its operand read from the state that `fetched` leaves; the sums of the
statement are those of the meanings in word arithmetic, and the forms that write flags end with those besides. -/
theorem wideArithmetic : Obligations.WideArithmetic := by
  refine ⟨fun p _ b1 b2 => ⟨decodeBytes_addHlRr p b1 b2, decodeBytes_incRr p b1 b2, decodeBytes_decRr p b1 b2, rfl,
    rfl⟩, fun s p e => ?_⟩
  rw [ofNat_toNat_add (s.pair p) 1, ofNat_toNat_add_65535, ← add_sext16_eq_ofInt, ← s.pair_fetched 1 p]
  exact ⟨State.complete_setFlags (s.complete_setPair 1 8 .hl _) _ _ _ _, s.complete_setPair 1 8 p _,
    s.complete_setPair 1 8 p _, State.complete_setFlags rfl _ _ _ _,
    State.complete_setFlags (s.complete_setPair 2 12 .hl _) _ _ _ _⟩

end Machine

end Sys2Proof

/-! PROOFS. The extended rotates and shifts and the bit operations of 44_rotate_shift_bit (R307 to R320). -/

namespace Sys2Proof

/-! ## Shifts and single bits of a byte as numbers -/

theorem byte_toNat_ushiftRight (v : Byte) (n : Nat) : (v >>> n).toNat = v.toNat / 2 ^ n := by
  rw [BitVec.toNat_ushiftRight, Nat.shiftRight_eq_div_pow]

/-- A byte shifted left has zeros where `w` is, so joining the two is adding them, modulo 2^8. -/
theorem byte_shiftLeft_or_eq_ofNat (v w : Byte) (n : Nat) (hw : w.toNat < 2 ^ n) :
    v <<< n ||| w = BitVec.ofNat 8 (2 ^ n * v.toNat + w.toNat) := by
  apply BitVec.eq_of_toNat_eq
  rw [BitVec.toNat_or, BitVec.toNat_shiftLeft, BitVec.toNat_ofNat, Nat.mul_comm, ← Nat.shiftLeft_eq,
    Nat.shiftLeft_add_eq_or_of_lt hw, Nat.or_mod_two_pow, Nat.mod_eq_of_lt w.isLt]

theorem byte_shiftLeft_or_ushiftRight_eq_ofNat (u v : Byte) (n m : Nat) (hnm : n + m = 8) :
    u <<< n ||| v >>> m = BitVec.ofNat 8 (2 ^ n * u.toNat + v.toNat / 2 ^ m) := by
  have hw : (v >>> m).toNat < 2 ^ n := by
    rw [byte_toNat_ushiftRight, Nat.div_lt_iff_lt_mul (Nat.two_pow_pos m), ← Nat.pow_add, hnm]
    exact v.isLt
  rw [byte_shiftLeft_or_eq_ofNat u _ n hw, byte_toNat_ushiftRight]

theorem byte_getLsbD_eq_decide (v : Byte) (b : Nat) : v.getLsbD b = decide (v.toNat / 2 ^ b % 2 = 1) := by
  rw [← BitVec.testBit_toNat, Nat.testBit_eq_decide_div_mod_eq]

theorem byte_not_getLsbD_eq_decide (v : Byte) (b : Nat) : (!v.getLsbD b) = decide (v.toNat / 2 ^ b % 2 = 0) := by
  rw [byte_getLsbD_eq_decide, ← decide_not, decide_eq_decide]
  omega

theorem byte_getLsbD_seven_eq_decide (v : Byte) : v.getLsbD 7 = decide (v.toNat ≥ 128) := by
  have hv := v.isLt
  rw [byte_getLsbD_eq_decide, decide_eq_decide]
  omega

theorem byte_getLsbD_zero_eq_decide (v : Byte) : v.getLsbD 0 = decide (v.toNat % 2 = 1) := by
  rw [byte_getLsbD_eq_decide, pow_zero, Nat.div_one]

theorem byte_one_shiftLeft_eq_ofNat (b : Nat) : 1#8 <<< b = BitVec.ofNat 8 (2 ^ b) := by
  apply BitVec.eq_of_toNat_eq
  rw [← BitVec.twoPow_eq, BitVec.toNat_twoPow, BitVec.toNat_ofNat]

theorem byte_toNat_and_one_shiftLeft (v : Byte) {b : Nat} (hb : b < 8) :
    (v &&& 1#8 <<< b).toNat = v.toNat / 2 ^ b % 2 * 2 ^ b := by
  rw [BitVec.toNat_and, byte_one_shiftLeft_eq_ofNat, BitVec.toNat_ofNat,
    Nat.mod_eq_of_lt (Nat.pow_lt_pow_right (by decide) hb), Nat.and_two_pow, Nat.toNat_testBit]

theorem byte_and_le_left (v w : Byte) : v &&& w ≤ v := by
  rw [BitVec.le_def, BitVec.toNat_and]
  exact Nat.and_le_left

/-! ## The encodings after 0xCB (30_encoding R104, R111): `y` is bits 5 to 3 of the second byte -/

theorem decodeBytes_rotRow (y : Fin 8) (rs : Reg8) (b2 : Byte) :
    decodeBytes 0xCB (BitVec.ofNat 8 (8 * y) ||| rs.code) b2 = decodeRot y rs.code.toNat := by
  cases rs <;> fin_cases y <;> rfl

/-- The row y = 0, as the statement writes its byte. -/
theorem decodeBytes_rlcR (rs : Reg8) (b2 : Byte) : decodeBytes 0xCB rs.code b2 = .rlcR rs := by
  cases rs <;> rfl

theorem decodeBytes_bitBR (y : Fin 8) (rs : Reg8) (b2 : Byte) :
    decodeBytes 0xCB (0x40#8 ||| BitVec.ofNat 8 (8 * y) ||| rs.code) b2 = .bitBR y rs := by
  cases rs <;> fin_cases y <;> rfl

theorem decodeBytes_resBR (y : Fin 8) (rs : Reg8) (b2 : Byte) :
    decodeBytes 0xCB (0x80#8 ||| BitVec.ofNat 8 (8 * y) ||| rs.code) b2 = .resBR y rs := by
  cases rs <;> fin_cases y <;> rfl

theorem decodeBytes_setBR (y : Fin 8) (rs : Reg8) (b2 : Byte) :
    decodeBytes 0xCB (0xC0#8 ||| BitVec.ofNat 8 (8 * y) ||| rs.code) b2 = .setBR y rs := by
  cases rs <;> fin_cases y <;> rfl

theorem decodeBytes_bitBHl (y : Fin 8) (b2 : Byte) :
    decodeBytes 0xCB (0x46#8 ||| BitVec.ofNat 8 (8 * y)) b2 = .bitBHl y := by
  fin_cases y <;> rfl

theorem decodeBytes_resBHl (y : Fin 8) (b2 : Byte) :
    decodeBytes 0xCB (0x86#8 ||| BitVec.ofNat 8 (8 * y)) b2 = .resBHl y := by
  fin_cases y <;> rfl

theorem decodeBytes_setBHl (y : Fin 8) (b2 : Byte) :
    decodeBytes 0xCB (0xC6#8 ||| BitVec.ofNat 8 (8 * y)) b2 = .setBHl y := by
  fin_cases y <;> rfl

namespace Machine

/-! ## The rotates, shifts and swap (R300) in the numbers of the statement -/

/-- The function `f` on bytes is the result `r`, modulo 2^8, and the carry `c` of the operand as a number. -/
def RotatesAs (f : Byte → RotResult) (r : Nat → Nat) (c : Nat → Bool) : Prop :=
  ∀ v : Byte, f v = { r := BitVec.ofNat 8 (r v.toNat), c := c v.toNat }

theorem rlc8_rotatesAs : RotatesAs rlc8 (fun v => 2 * v + v / 128) (fun v => v ≥ 128) := by
  intro v
  rw [rlc8, byte_shiftLeft_or_ushiftRight_eq_ofNat v v 1 7 rfl, byte_getLsbD_seven_eq_decide]
  rfl

/-- Of the operand shifted up by seven only bit 0 stays in the byte. -/
theorem rrc8_rotatesAs : RotatesAs rrc8 (fun v => v / 2 + 128 * (v % 2)) (fun v => v % 2 = 1) := by
  intro v
  have hr : v >>> 1 ||| v <<< 7 = BitVec.ofNat 8 (v.toNat / 2 + 128 * (v.toNat % 2)) := by
    apply BitVec.eq_of_toNat_eq
    rw [BitVec.or_comm, byte_shiftLeft_or_ushiftRight_eq_ofNat v v 7 1 rfl, BitVec.toNat_ofNat, BitVec.toNat_ofNat]
    omega
  rw [rrc8, hr, byte_getLsbD_zero_eq_decide]

theorem rl8_rotatesAs (cin : Bool) :
    RotatesAs (rl8 · cin) (fun v => 2 * v + if cin then 1 else 0) (fun v => v ≥ 128) := by
  intro v
  have hlow : (bif cin then 0x01 else 0x00 : Byte).toNat = if cin then 1 else 0 := by
    cases cin <;> rfl
  change rl8 v cin = _
  rw [rl8, byte_shiftLeft_or_eq_ofNat v _ 1 (by rw [hlow]; split <;> decide), hlow, byte_getLsbD_seven_eq_decide]
  rfl

theorem rr8_rotatesAs (cin : Bool) :
    RotatesAs (rr8 · cin) (fun v => v / 2 + 128 * if cin then 1 else 0) (fun v => v % 2 = 1) := by
  intro v
  have hhigh : (bif cin then 0x80 else 0x00 : Byte) = BitVec.ofNat 8 (if cin then 1 else 0) <<< 7 := by
    cases cin <;> rfl
  have hbit : (BitVec.ofNat 8 (if cin then 1 else 0)).toNat = if cin then 1 else 0 := by
    cases cin <;> rfl
  change rr8 v cin = _
  rw [rr8, hhigh, BitVec.or_comm, byte_shiftLeft_or_ushiftRight_eq_ofNat _ v 7 1 rfl, hbit, Nat.add_comm,
    byte_getLsbD_zero_eq_decide]
  rfl

theorem sla8_rotatesAs : RotatesAs sla8 (fun v => 2 * v) (fun v => v ≥ 128) := by
  intro v
  have hr : v <<< 1 = BitVec.ofNat 8 (2 * v.toNat) := by
    rw [← BitVec.or_zero (x := v <<< 1), byte_shiftLeft_or_eq_ofNat v 0#8 1 (by decide)]
    rfl
  rw [sla8, hr, byte_getLsbD_seven_eq_decide]

/-- Bit 7 kept in its place is the operand's top bit shifted down and up again. -/
theorem sra8_rotatesAs : RotatesAs sra8 (fun v => v / 2 + v / 128 * 128) (fun v => v % 2 = 1) := by
  intro v
  have hsign : v &&& (0x80 : Byte) = v >>> 7 <<< 7 :=
    (BitVec.shiftLeft_ushiftRight (x := v) (n := 7)).symm
  rw [sra8, hsign, BitVec.or_comm, byte_shiftLeft_or_ushiftRight_eq_ofNat _ v 7 1 rfl, byte_toNat_ushiftRight,
    Nat.add_comm, Nat.mul_comm, byte_getLsbD_zero_eq_decide]
  rfl

/-- Of the operand shifted up by four only the low nibble stays in the byte. -/
theorem swap8_rotatesAs : RotatesAs swap8 (fun v => v % 16 * 16 + v / 16) (fun _ => false) := by
  intro v
  have hr : v <<< 4 ||| v >>> 4 = BitVec.ofNat 8 (v.toNat % 16 * 16 + v.toNat / 16) := by
    apply BitVec.eq_of_toNat_eq
    rw [byte_shiftLeft_or_ushiftRight_eq_ofNat v v 4 4 rfl, BitVec.toNat_ofNat, BitVec.toNat_ofNat]
    omega
  rw [swap8, hr]

theorem srl8_rotatesAs : RotatesAs srl8 (fun v => v / 2) (fun v => v % 2 = 1) := by
  intro v
  have hr : v >>> 1 = BitVec.ofNat 8 (v.toNat / 2) := by
    apply BitVec.eq_of_toNat_eq
    rw [byte_toNat_ushiftRight, BitVec.toNat_ofNat]
    omega
  rw [srl8, hr, byte_getLsbD_zero_eq_decide]

/-! ## RES and SET in the numbers of the statement -/

theorem resBit_and_one_shiftLeft (b : Nat) (v : Byte) : resBit b v &&& 1#8 <<< b = 0#8 := by
  rw [resBit, BitVec.and_assoc, BitVec.not_and_self]
  exact BitVec.and_zero

/-- A byte is what RES leaves of it and the bit RES clears, which have no bit in common. -/
theorem resBit_add_bit (b : Nat) (v : Byte) : resBit b v + (v &&& 1#8 <<< b) = v := by
  have hdisjoint : resBit b v &&& (v &&& 1#8 <<< b) = 0#8 := by
    rw [BitVec.and_comm v, ← BitVec.and_assoc, resBit_and_one_shiftLeft, BitVec.zero_and]
  rw [BitVec.add_eq_or_of_and_eq_zero _ _ hdisjoint, resBit, ← BitVec.and_or_distrib_left, BitVec.not_or_self,
    BitVec.and_allOnes]

/-- SET puts the bit where RES leaves none. -/
theorem setBit_eq_resBit_add (b : Nat) (v : Byte) : setBit b v = resBit b v + 1#8 <<< b := by
  rw [BitVec.add_eq_or_of_and_eq_zero _ _ (resBit_and_one_shiftLeft b v), setBit, resBit]
  ext i hi
  simp only [BitVec.getElem_or, BitVec.getElem_and, BitVec.getElem_not, Bool.or_and_distrib_right, Bool.not_or_self,
    Bool.and_true]

theorem resBit_eq_ofNat {b : Nat} (hb : b < 8) (v : Byte) :
    resBit b v = BitVec.ofNat 8 (v.toNat - v.toNat / 2 ^ b % 2 * 2 ^ b) := by
  apply BitVec.eq_of_toNat_eq
  rw [eq_sub_of_add_eq (resBit_add_bit b v), BitVec.toNat_sub_of_le (byte_and_le_left v _),
    byte_toNat_and_one_shiftLeft v hb, BitVec.toNat_ofNat, Nat.mod_eq_of_lt (Nat.sub_lt_of_lt v.isLt)]

theorem setBit_eq_ofNat {b : Nat} (hb : b < 8) (v : Byte) :
    setBit b v = BitVec.ofNat 8 (v.toNat + (1 - v.toNat / 2 ^ b % 2) * 2 ^ b) := by
  have hle := BitVec.le_def.mp (byte_and_le_left v (1#8 <<< b))
  rw [byte_toNat_and_one_shiftLeft v hb] at hle
  rw [setBit_eq_resBit_add, resBit_eq_ofNat hb, byte_one_shiftLeft_eq_ofNat, ← BitVec.ofNat_add]
  congr 1
  obtain h | h := Nat.mod_two_eq_zero_or_one (v.toNat / 2 ^ b)
  · rw [h, Nat.zero_mul, Nat.sub_zero, Nat.sub_zero, Nat.one_mul]
  · rw [h] at hle ⊢
    omega

/-! ## The shape of the family: the operand written back as a load writes it, and then the flags -/

/-- Both forms of one row (R306): the same function `f` on the register and on the byte at HL. -/
theorem State.complete_rotReg_rotHl (s : State) (rs : Reg8)
    {f : Byte → RotResult} {r : Nat → Nat} {c : Nat → Bool} (hf : RotatesAs f r c) :
    ((s.fetched 2).rotReg rs (f ((s.fetched 2).reg8 rs))).complete 8 =
        .next { (s.after 2 8).setReg8 rs (BitVec.ofNat 8 (r (s.reg8 rs).toNat)) with
          f := flagByte (r (s.reg8 rs).toNat % 256 = 0) false false (c (s.reg8 rs).toNat) } ∧
      ((s.fetched 2).rotHl (f (s.fetched 2).atHl)).complete 16 =
        .next { (s.after 2 16).writeByte s.hl (BitVec.ofNat 8 (r (s.readByte s.hl).toNat)) with
          f := flagByte (r (s.readByte s.hl).toNat % 256 = 0) false false (c (s.readByte s.hl).toNat) } := by
  simp only [hf _, s.reg8_fetched, State.rotReg, State.rotHl, State.rotFlags, byte_ofNat_eq_zero_iff]
  exact ⟨State.complete_setFlags (s.complete_setReg8 2 8 rs _) _ _ _ _,
    State.complete_setFlags (s.complete_writeByte 2 16 s.hl _) _ _ _ _⟩

/-! ## The obligations -/

/-- Settles O50: the eight rows are eight functions on the operand, each the one the statement writes in numbers. -/
theorem extendedRotatesAndShifts : Obligations.ExtendedRotatesAndShifts := by
  refine ⟨fun rs b2 => ⟨decodeBytes_rlcR rs b2, rfl,
    (decodeBytes_rotRow 1 rs b2).trans (onR8_code rs _ _), rfl,
    (decodeBytes_rotRow 2 rs b2).trans (onR8_code rs _ _), rfl,
    (decodeBytes_rotRow 3 rs b2).trans (onR8_code rs _ _), rfl,
    (decodeBytes_rotRow 4 rs b2).trans (onR8_code rs _ _), rfl,
    (decodeBytes_rotRow 5 rs b2).trans (onR8_code rs _ _), rfl,
    (decodeBytes_rotRow 6 rs b2).trans (onR8_code rs _ _), rfl,
    (decodeBytes_rotRow 7 rs b2).trans (onR8_code rs _ _), rfl⟩, fun s rs => ?_⟩
  exact ⟨s.complete_rotReg_rotHl rs rlc8_rotatesAs, s.complete_rotReg_rotHl rs rrc8_rotatesAs,
    s.complete_rotReg_rotHl rs (rl8_rotatesAs _), s.complete_rotReg_rotHl rs (rr8_rotatesAs _),
    s.complete_rotReg_rotHl rs sla8_rotatesAs, s.complete_rotReg_rotHl rs sra8_rotatesAs,
    s.complete_rotReg_rotHl rs swap8_rotatesAs, s.complete_rotReg_rotHl rs srl8_rotatesAs⟩

/-- Settles O51: BIT writes the flags alone, RES and SET the operand alone, each with the bit as the number
`v / 2 ^ b % 2`. -/
theorem bitInstructions : Obligations.BitInstructions := by
  refine ⟨fun b rs b2 hb => ⟨decodeBytes_bitBR ⟨b, hb⟩ rs b2, decodeBytes_bitBHl ⟨b, hb⟩ b2,
    decodeBytes_resBR ⟨b, hb⟩ rs b2, decodeBytes_resBHl ⟨b, hb⟩ b2, decodeBytes_setBR ⟨b, hb⟩ rs b2,
    decodeBytes_setBHl ⟨b, hb⟩ b2⟩, fun s b rs hb => ?_⟩
  simp only [← byte_not_getLsbD_eq_decide, ← resBit_eq_ofNat hb, ← setBit_eq_ofNat hb]
  rw [← s.reg8_fetched 2 rs]
  exact ⟨State.complete_setFlags rfl _ _ _ _, State.complete_setFlags rfl _ _ _ _, s.complete_setReg8 2 8 rs _,
    s.complete_writeByte 2 16 s.hl _, s.complete_setReg8 2 8 rs _, s.complete_writeByte 2 16 s.hl _⟩

end Machine

end Sys2Proof

/-! PROOFS. The jumps, calls, returns and restarts of 45_control (R342, R345 to R353, R355). -/

namespace Sys2Proof

/-- A pair of bytes in the numbers of the statements. -/
theorem pairWord_eq_ofNat (h l : Byte) : pairWord h l = BitVec.ofNat 16 (256 * h.toNat + l.toNat) := by
  rw [← pairWord_toNat_high_first, BitVec.ofNat_toNat, BitVec.setWidth_eq]

/-! ## The encodings with a condition, or the restart number, in bits 5 to 3 (30_encoding R104, R110) -/

theorem decodeBytes_jpCcNn (cc : Cond) (b1 b2 : Byte) :
    decodeBytes (0xC2#8 ||| cc.code <<< 3) b1 b2 = .jpCcNn cc (pairWord b2 b1) := by
  cases cc <;> rfl

theorem decodeBytes_jrCcE (cc : Cond) (e b2 : Byte) : decodeBytes (0x20#8 ||| cc.code <<< 3) e b2 = .jrCcE cc e := by
  cases cc <;> rfl

theorem decodeBytes_callCcNn (cc : Cond) (b1 b2 : Byte) :
    decodeBytes (0xC4#8 ||| cc.code <<< 3) b1 b2 = .callCcNn cc (pairWord b2 b1) := by
  cases cc <;> rfl

theorem decodeBytes_retCc (cc : Cond) (b1 b2 : Byte) : decodeBytes (0xC0#8 ||| cc.code <<< 3) b1 b2 = .retCc cc := by
  cases cc <;> rfl

theorem decodeBytes_rstT (t : Fin 8) (b1 b2 : Byte) :
    decodeBytes (0xC7#8 ||| BitVec.ofNat 8 (8 * t)) b1 b2 = .rstT t := by
  fin_cases t <;> rfl

namespace Machine

/-! ## Conditions and targets, as the state that `fetched` leaves gives them -/

@[simp] theorem State.cond_fetched (s : State) (n : Nat) (cc : Cond) : (s.fetched n).cond cc = s.cond cc := by
  cases cc <;> rfl

/-- The displacement counts from the byte after it (R348). -/
theorem State.relTarget_fetched_two (s : State) (e : Byte) :
    (s.fetched 2).relTarget e = BitVec.ofInt 16 ((s.pc.toNat : Int) + 2 + e.toInt) := by
  have hpc : BitVec.ofInt 16 ((s.pc.toNat : Int) + 2) = s.pc + 2 :=
    (BitVec.ofInt_natCast 16 (s.pc.toNat + 2)).trans (ofNat_toNat_add s.pc 2)
  rw [BitVec.ofInt_add, hpc]
  rfl

theorem rstTarget_eq_ofNat (t : Nat) : rstTarget t = BitVec.ofNat 16 (8 * t) := by
  rw [rstTarget, Nat.mul_comm]

/-! ## The shapes of the family: a jump, a call, a return, and a choice between two ways to complete -/

theorem State.complete_jump (s : State) (n k : Nat) (target : Word) :
    ((s.fetched n).jump target).complete k = .next { s.after n k with pc := target } := rfl

/-- PC is pushed after the fetch, so the return address is that of the next instruction (R350). -/
theorem State.complete_call (s : State) (n k : Nat) (target : Word) :
    (((s.fetched n).push16 (s.fetched n).pc).jump target).complete k =
      .next { ((s.after n k).writeByte (s.sp - 1) (hiByte (BitVec.ofNat 16 (s.pc.toNat + n)))).writeByte (s.sp - 2)
          (loByte (BitVec.ofNat 16 (s.pc.toNat + n))) with sp := s.sp - 2, pc := target } := by
  rw [ofNat_toNat_add, State.push16_eq]
  rfl

theorem State.complete_popPc (s : State) (n k : Nat) :
    ((s.fetched n).popPc).complete k =
      .next { s.after n k with
        pc := BitVec.ofNat 16 (256 * (s.readByte (s.sp + 1)).toNat + (s.readByte s.sp).toNat), sp := s.sp + 2 } := by
  rw [← pairWord_eq_ofNat]
  rfl

/-- The condition is that of `s`; where it fails the operand bytes are passed and nothing else happens. -/
theorem State.complete_onCond (s : State) (cc : Cond) {n k : Nat} {r : Result} {t : State} (hr : r = .next t) :
    (if (s.fetched n).cond cc then r else (s.fetched n).complete k) =
      .next (if s.cond cc then t else s.after n k) := by
  rw [s.cond_fetched, hr]
  split <;> rfl

/-! ## The obligations -/

/-- Settles O53: each form is one jump from the state that `fetched` leaves, made by the conditional forms only
where the condition holds. -/
theorem jumps : Obligations.Jumps := by
  refine ⟨fun cc nn e b1 b2 => ⟨congrArg Instr.jpNn (pairWord_hiByte_loByte nn), ?_, rfl, rfl,
    decodeBytes_jrCcE cc e b2⟩, fun s cc nn e => ?_⟩
  · rw [decodeBytes_jpCcNn, pairWord_hiByte_loByte]
  · rw [← s.relTarget_fetched_two e]
    exact ⟨⟨rfl, rfl, rfl, rfl⟩, s.complete_jump 3 16 nn, s.complete_onCond cc (s.complete_jump 3 16 nn),
      s.complete_jump 1 4 s.hl, s.complete_jump 2 12 _, s.complete_onCond cc (s.complete_jump 2 12 _)⟩

/-- Settles O54: CALL and RST are one call with different targets, RET is a pop into PC, and the conditional forms
do the same only where the condition holds. -/
theorem callsReturnsAndRestarts : Obligations.CallsReturnsAndRestarts := by
  refine ⟨fun cc nn t b1 b2 => ⟨congrArg Instr.callNn (pairWord_hiByte_loByte nn), ?_, rfl,
    decodeBytes_retCc cc b1 b2, fun ht => decodeBytes_rstT ⟨t, ht⟩ b1 b2⟩, fun s cc nn t => ?_⟩
  · rw [decodeBytes_callCcNn, pairWord_hiByte_loByte]
  · rw [← rstTarget_eq_ofNat]
    exact ⟨s.complete_call 3 24 nn, s.complete_onCond cc (s.complete_call 3 24 nn), s.complete_popPc 1 16,
      s.complete_onCond cc (s.complete_popPc 1 20), s.complete_call 1 16 _⟩

end Machine

end Sys2Proof

/-! PROOFS. NOP and DI of 46_system (R380, R383). -/

namespace Sys2Proof

namespace Machine

/-! ## The shapes of the family: nothing but the fetch and the charge, and `ime` written besides -/

/-- `after n k` is what every instruction does: PC past its `n` bytes, `ei_delay` clear, `k` ticks charged. -/
theorem State.complete_fetched (s : State) (n k : Nat) : (s.fetched n).complete k = .next (s.after n k) := rfl

theorem State.complete_setIme (s : State) (n k : Nat) (v : Bool) :
    ({ s.fetched n with ime := v }).complete k = .next { s.after n k with ime := v } := rfl

/-! ## The obligation -/

/-- Settles O57: NOP is the bare fetch and charge of a one-byte instruction, and DI clears `ime` between the two. -/
theorem nopAndDi : Obligations.NopAndDi :=
  ⟨fun _ _ => ⟨rfl, rfl⟩, fun s => ⟨s.complete_fetched 1 4, s.complete_setIme 1 4 false⟩⟩

end Machine

end Sys2Proof

/-! PROOFS. The decoder and the encoder of 30_encoding, and the 0xCB row (R148). -/

namespace Sys2Proof

/-! ## The operand bytes of a row: the opcode alone chooses the row, and the bytes after it fill in its operand -/

/-- The row of `i` with the byte operand `n` or the word operand `nn`, where it has one. -/
def Instr.withOperands (n : Byte) (nn : Word) : Instr → Instr
  | .ldRN rd _ => .ldRN rd n
  | .ldHlN _ => .ldHlN n
  | .jrE _ => .jrE n
  | .jrCcE cc _ => .jrCcE cc n
  | .addAN _ => .addAN n
  | .adcAN _ => .adcAN n
  | .subAN _ => .subAN n
  | .sbcAN _ => .sbcAN n
  | .andAN _ => .andAN n
  | .xorAN _ => .xorAN n
  | .orAN _ => .orAN n
  | .cpAN _ => .cpAN n
  | .ldhNA _ => .ldhNA n
  | .ldhAN _ => .ldhAN n
  | .addSpE _ => .addSpE n
  | .ldHlSpE _ => .ldHlSpE n
  | .ldRrNn p _ => .ldRrNn p nn
  | .ldNnSp _ => .ldNnSp nn
  | .jpCcNn cc _ => .jpCcNn cc nn
  | .jpNn _ => .jpNn nn
  | .callCcNn cc _ => .callCcNn cc nn
  | .callNn _ => .callNn nn
  | .ldNnA _ => .ldNnA nn
  | .ldANn _ => .ldANn nn
  | i => i

theorem withOperands_onR8 (k : Nat) (n : Byte) (nn : Word) (hlForm : Instr) (regForm : Reg8 → Instr) :
    (onR8 k hlForm regForm).withOperands n nn =
      onR8 k (hlForm.withOperands n nn) (fun r => (regForm r).withOperands n nn) := by
  unfold onR8
  split <;> rfl

theorem decodeQuarter0_withOperands (y z : Nat) (n : Byte) (nn : Word) :
    decodeQuarter0 y z n nn = (decodeQuarter0 y z 0 0).withOperands n nn := by
  unfold decodeQuarter0
  split
  case h_5 | h_6 | h_7 => rw [withOperands_onR8]; rfl
  all_goals split <;> rfl

theorem decodeQuarter1_withOperands (y z : Nat) (n : Byte) (nn : Word) :
    decodeQuarter1 y z = (decodeQuarter1 y z).withOperands n nn := by
  unfold decodeQuarter1
  split <;> rfl

theorem decodeQuarter2_withOperands (y z : Nat) (n : Byte) (nn : Word) :
    decodeQuarter2 y z = (decodeQuarter2 y z).withOperands n nn := by
  unfold decodeQuarter2
  split <;> rw [withOperands_onR8] <;> rfl

theorem decodeQuarter3_withOperands (y z : Nat) (n : Byte) (nn : Word) :
    decodeQuarter3 y z n nn = (decodeQuarter3 y z 0 0).withOperands n nn := by
  unfold decodeQuarter3
  split
  case h_8 => rfl
  all_goals split <;> rfl

theorem decodePrimary_withOperands (op b1 b2 : Byte) :
    decodePrimary op b1 b2 = (decodePrimary op 0 0).withOperands b1 (pairWord b2 b1) := by
  unfold decodePrimary
  split
  · exact decodeQuarter0_withOperands _ _ _ _
  · exact decodeQuarter1_withOperands _ _ _ _
  · exact decodeQuarter2_withOperands _ _ _ _
  · exact decodeQuarter3_withOperands _ _ _ _

theorem length_withOperands (c : Config) (i : Instr) (n : Byte) (nn : Word) :
    (i.withOperands n nn).length c = i.length c := by
  cases i <;> rfl

theorem wellFormed_withOperands (i : Instr) (n : Byte) (nn : Word) :
    (i.withOperands n nn).wellFormed = i.wellFormed := by
  cases i <;> rfl

theorem invalidByte_withOperands (i : Instr) (n : Byte) (nn : Word) :
    (i.withOperands n nn).invalidByte = i.invalidByte := by
  cases i <;> rfl

theorem eq_prefixCb_of_withOperands {i : Instr} {n : Byte} {nn : Word} (h : i.withOperands n nn = .prefixCb) :
    i = .prefixCb := by
  cases i <;> cases h
  rfl

/-- Only the operands that the row's length leaves room for are read. -/
theorem withOperands_congr (c : Config) (i : Instr) {n n' : Byte} {nn nn' : Word}
    (hn : 1 < i.length c → n = n') (hnn : 2 < i.length c → nn = nn') :
    i.withOperands n nn = i.withOperands n' nn' := by
  cases i
  case ldRN | ldHlN | jrE | jrCcE | addAN | adcAN | subAN | sbcAN | andAN | xorAN | orAN | cpAN | ldhNA | ldhAN | addSpE
      | ldHlSpE =>
    rw [hn (Nat.lt_succ_self 1)]
    rfl
  case ldRrNn | ldNnSp | jpCcNn | jpNn | callCcNn | callNn | ldNnA | ldANn =>
    rw [hnn (Nat.lt_succ_self 2)]
    rfl
  all_goals rfl

/-! ## Lengths -/

theorem length_encode (c : Config) (i : Instr) : (encode c i).length = i.length c := by
  cases i
  case stop => exact Laws.EncodedLength.stop c
  all_goals rfl

theorem length_bounds (c : Config) (i : Instr) : 0 < i.length c ∧ i.length c ≤ 3 := by
  cases i
  case stop =>
    change 0 < c.stopLength.bytes ∧ c.stopLength.bytes ≤ 3
    cases c.stopLength <;> decide
  all_goals exact ⟨Nat.succ_pos _, Nat.le_of_ble_eq_true rfl⟩

theorem length_decodePrimary (c : Config) (op b1 b2 : Byte) :
    (decodePrimary op b1 b2).length c = (decodePrimary op 0 0).length c := by
  rw [decodePrimary_withOperands, length_withOperands]

/-- The bytes past an instruction's length do not matter. -/
theorem decodePrimary_congr (c : Config) (op : Byte) {b1 b2 b1' b2' : Byte}
    (h1 : 1 < (decodePrimary op b1 b2).length c → b1 = b1')
    (h2 : 2 < (decodePrimary op b1 b2).length c → b2 = b2') :
    decodePrimary op b1 b2 = decodePrimary op b1' b2' := by
  rw [length_decodePrimary] at h1 h2
  rw [decodePrimary_withOperands op b1 b2, decodePrimary_withOperands op b1' b2']
  exact withOperands_congr c _ h1 fun h => by rw [h1 (by omega), h2 h]

/-! ## What the 256 opcode bytes of the two maps decode to (30_encoding R110, R111) -/

theorem wellFormed_decodePrimary_zero : ∀ op : Byte, (decodePrimary op 0 0).wellFormed = true := by
  decide

theorem head_encode_decodePrimary_zero :
    ∀ op : Byte, (encode Config.default (decodePrimary op 0 0)).head? = some op := by
  decide

theorem wellFormed_decodeExtended : ∀ op : Byte, (decodeExtended op).wellFormed = true := by
  decide

theorem encode_default_decodeExtended : ∀ op : Byte, encode Config.default (decodeExtended op) = [0xCB, op] := by
  decide

theorem decodeExtended_ne_stop : ∀ op : Byte, decodeExtended op ≠ .stop := by
  decide

theorem invalidByte_decodeExtended : ∀ op : Byte, (decodeExtended op).invalidByte = none := by
  decide

theorem invalidByte_decodePrimary (op b1 b2 : Byte) :
    (decodePrimary op b1 b2).invalidByte =
      if op ∈ [0xD3#8, 0xDB, 0xDD, 0xE3, 0xE4, 0xEB, 0xEC, 0xED, 0xF4, 0xFC, 0xFD] then some op else none := by
  rw [decodePrimary_withOperands, invalidByte_withOperands]
  revert op
  decide

theorem decodePrimary_eq_prefixCb_iff (op b1 b2 : Byte) : decodePrimary op b1 b2 = .prefixCb ↔ op = 0xCB := by
  constructor
  · intro h
    rw [decodePrimary_withOperands] at h
    have hop := head_encode_decodePrimary_zero op
    rw [eq_prefixCb_of_withOperands h] at hop
    exact (Option.some.inj hop).symm
  · rintro rfl
    rfl

/-! ## Encoding what was decoded -/

/-- The configuration chooses the bytes of STOP alone. -/
theorem encode_congr_config (c c' : Config) {i : Instr} (hi : i ≠ .stop) : encode c i = encode c' i := by
  cases i
  case stop => exact absurd rfl hi
  all_goals rfl

/-- A primary row, STOP apart, is encoded as its opcode and then its operand, low byte first. -/
theorem encode_withOperands (c : Config) {i : Instr} {op : Byte} (n : Byte) (nn : Word)
    (hop : (encode Config.default i).head? = some op) (hprefix : op ≠ prefixByte) (hstop : i ≠ .stop) :
    encode c (i.withOperands n nn) =
      [op, if i.length c = 3 then loByte nn else n, hiByte nn].take (i.length c) := by
  cases i
  case stop => exact absurd rfl hstop
  case rlcR | rlcHl | rrcR | rrcHl | rlR | rlHl | rrR | rrHl | slaR | slaHl | sraR | sraHl | swapR | swapHl | srlR
      | srlHl | bitBR | bitBHl | resBR | resBHl | setBR | setBHl =>
    exact absurd (Option.some.inj hop).symm hprefix
  all_goals
    obtain rfl := Option.some.inj hop
    rfl

theorem encode_decodePrimary (c : Config) (op b1 b2 : Byte) (hprefix : op ≠ prefixByte)
    (hstop : decodePrimary op b1 b2 ≠ .stop) :
    encode c (decodePrimary op b1 b2) = [op, b1, b2].take ((decodePrimary op b1 b2).length c) := by
  have hstop0 : decodePrimary op 0 0 ≠ .stop := fun h => hstop (by rw [decodePrimary_withOperands, h]; rfl)
  have h := encode_withOperands c b1 (pairWord b2 b1) (head_encode_decodePrimary_zero op) hprefix hstop0
  rwa [← decodePrimary_withOperands, loByte_pairWord, hiByte_pairWord, ite_self,
    ← length_decodePrimary c op b1 b2] at h

theorem encode_decodeExtended (c : Config) (op : Byte) : encode c (decodeExtended op) = [0xCB, op] := by
  rw [encode_congr_config c Config.default (decodeExtended_ne_stop op), encode_default_decodeExtended]

theorem length_decodeExtended (c : Config) (op : Byte) : (decodeExtended op).length c = 2 := by
  rw [← length_encode, encode_decodeExtended]
  rfl

/-! ## The three bytes the step fetches: both maps at once (40_engine R147, R148) -/

theorem decodeBytes_prefixByte (b1 b2 : Byte) : decodeBytes prefixByte b1 b2 = decodeExtended b1 := if_pos rfl

theorem decodeBytes_of_ne_prefixByte {b0 : Byte} (h : b0 ≠ prefixByte) (b1 b2 : Byte) :
    decodeBytes b0 b1 b2 = decodePrimary b0 b1 b2 := if_neg h

theorem wellFormed_decodeBytes (b0 b1 b2 : Byte) : (decodeBytes b0 b1 b2).wellFormed = true := by
  by_cases h : b0 = prefixByte
  · rw [h, decodeBytes_prefixByte]
    exact wellFormed_decodeExtended b1
  · rw [decodeBytes_of_ne_prefixByte h, decodePrimary_withOperands, wellFormed_withOperands]
    exact wellFormed_decodePrimary_zero b0

theorem encode_decodeBytes (c : Config) (b0 b1 b2 : Byte) (hstop : decodeBytes b0 b1 b2 ≠ .stop) :
    encode c (decodeBytes b0 b1 b2) = [b0, b1, b2].take ((decodeBytes b0 b1 b2).length c) := by
  by_cases h : b0 = prefixByte
  · rw [h, decodeBytes_prefixByte, encode_decodeExtended, length_decodeExtended]
    rfl
  · rw [decodeBytes_of_ne_prefixByte h] at hstop ⊢
    exact encode_decodePrimary c b0 b1 b2 h hstop

/-- The bytes of an encoding, with zeros after its end, decode to the instruction encoded. -/
theorem decodeBytes_encode (c : Config) {i : Instr} (hwf : i.wellFormed = true) (hi : i ≠ .prefixCb) :
    decodeBytes ((encode c i).headD 0) ((encode c i).tail.headD 0) ((encode c i).tail.tail.headD 0) = i := by
  cases i <;> simp only [encode, List.headD_cons, List.headD_nil, List.tail_cons, List.tail_nil]
  case prefixCb => exact absurd rfl hi
  case stop => cases c.stopLength <;> rfl
  case ldRR rd rs => exact decodeBytes_ldRR rd rs 0 0
  case incR r | decR r | ldRN r _ | ldRHl r | ldHlR r | addAR r | adcAR r | subAR r | sbcAR r | andAR r | xorAR r
      | orAR r | cpAR r | rlcR r | rrcR r | rlR r | rrR r | slaR r | sraR r | swapR r | srlR r =>
    cases r <;> rfl
  case incRr p | decRr p | addHlRr p => cases p <;> rfl
  case pushQq q | popQq q => cases q <;> rfl
  case retCc cc | jrCcE cc _ => cases cc <;> rfl
  case ldRrNn p nn => rw [decodeBytes_ldRrNn, pairWord_hiByte_loByte]
  case jpCcNn cc nn => rw [decodeBytes_jpCcNn, pairWord_hiByte_loByte]
  case callCcNn cc nn => rw [decodeBytes_callCcNn, pairWord_hiByte_loByte]
  case ldNnSp nn => exact congrArg Instr.ldNnSp (pairWord_hiByte_loByte nn)
  case jpNn nn => exact congrArg Instr.jpNn (pairWord_hiByte_loByte nn)
  case callNn nn => exact congrArg Instr.callNn (pairWord_hiByte_loByte nn)
  case ldNnA nn => exact congrArg Instr.ldNnA (pairWord_hiByte_loByte nn)
  case ldANn nn => exact congrArg Instr.ldANn (pairWord_hiByte_loByte nn)
  case rstT k | bitBHl k | resBHl k | setBHl k =>
    have hk : k < 8 := of_decide_eq_true hwf
    interval_cases k <;> rfl
  case bitBR k r | resBR k r | setBR k r =>
    have hk : k < 8 := of_decide_eq_true hwf
    interval_cases k <;> cases r <;> rfl
  all_goals rfl

/-! ## Decoding a list of bytes -/

theorem decode_of_length_one {c : Config} {op : Byte} (h : op ≠ prefixByte)
    (hn : (decodePrimary op 0 0).length c = 1) (rest : List Byte) :
    decode c (op :: rest) = .ok (decodePrimary op 0 0, rest) := by
  simp only [decode, if_neg h, hn]

theorem decode_of_length_two {c : Config} {op : Byte} (h : op ≠ prefixByte)
    (hn : (decodePrimary op 0 0).length c = 2) (b1 : Byte) (rest : List Byte) :
    decode c (op :: b1 :: rest) = .ok (decodePrimary op b1 0, rest) := by
  simp only [decode, if_neg h, hn]

theorem decode_of_length_three {c : Config} {op : Byte} (h : op ≠ prefixByte)
    (hn : (decodePrimary op 0 0).length c = 3) (b1 b2 : Byte) (rest : List Byte) :
    decode c (op :: b1 :: b2 :: rest) = .ok (decodePrimary op b1 b2, rest) := by
  simp only [decode, if_neg h, hn]

/-- The decoder needs of three bytes no more than the instruction's length, and leaves what follows. -/
theorem decode_take_length (c : Config) (b0 b1 b2 : Byte) (rest : List Byte) :
    decode c ([b0, b1, b2].take ((decodeBytes b0 b1 b2).length c) ++ rest) = .ok (decodeBytes b0 b1 b2, rest) := by
  by_cases h : b0 = prefixByte
  · rw [h, decodeBytes_prefixByte, length_decodeExtended]
    rfl
  · rw [decodeBytes_of_ne_prefixByte h, length_decodePrimary]
    obtain ⟨hpos, hle⟩ := length_bounds c (decodePrimary b0 0 0)
    interval_cases hn : (decodePrimary b0 0 0).length c
    · rw [← decodePrimary_congr c b0 (b1 := 0) (b2 := 0) (by omega) (by omega)]
      exact decode_of_length_one h hn rest
    · rw [← decodePrimary_congr c b0 (b1 := b1) (b2 := 0) (fun _ => rfl) (by rw [length_decodePrimary]; omega)]
      exact decode_of_length_two h hn b1 rest
    · exact decode_of_length_three h hn b1 b2 rest

/-- What decodes is the lone 0xCB row or what `decode_take_length` describes. -/
theorem decode_eq_ok_cases {c : Config} {bs rest : List Byte} {i : Instr} (h : decode c bs = .ok (i, rest)) :
    (i = .prefixCb ∧ bs = [prefixByte] ∧ rest = []) ∨
      ∃ b0 b1 b2, i = decodeBytes b0 b1 b2 ∧ bs = [b0, b1, b2].take (i.length c) ++ rest := by
  cases bs with
  | nil => cases h
  | cons op tail =>
    by_cases hop : op = prefixByte
    · subst hop
      cases tail with
      | nil =>
        cases h
        exact .inl ⟨rfl, rfl, rfl⟩
      | cons x tail' =>
        cases h
        exact .inr ⟨prefixByte, x, 0, rfl, by rw [length_decodeExtended]; rfl⟩
    · have hd := decodeBytes_of_ne_prefixByte hop
      simp only [decode, if_neg hop] at h
      split at h <;> cases h
      case h_1 hn => exact .inr ⟨op, 0, 0, (hd 0 0).symm, by rw [hn]; rfl⟩
      case h_2 b1 hn => exact .inr ⟨op, b1, 0, (hd b1 0).symm, by rw [length_decodePrimary, hn]; rfl⟩
      case h_3 b1 b2 hn => exact .inr ⟨op, b1, b2, (hd b1 b2).symm, by rw [length_decodePrimary, hn]; rfl⟩

/-- A list of at most three bytes is the part of its padding with zeros that its length says. -/
theorem take_length_padded {bs : List Byte} {n : Nat} (hlen : bs.length = n) (hn : n ≤ 3) :
    [bs.headD 0, bs.tail.headD 0, bs.tail.tail.headD 0].take n = bs := by
  subst hlen
  match bs, hn with
  | [], _ | [_], _ | [_, _], _ | [_, _, _], _ => rfl
  | _ :: _ :: _ :: _ :: _, hn =>
    simp only [List.length_cons] at hn
    omega

/-! ## The obligations of the decoder -/

/-- Settles O1: padded with zeros the encoding decodes to the instruction, and the decoder reads no more of it than
its length. -/
theorem decodeOfEncodeIsTheInstruction : Obligations.DecodeOfEncodeIsTheInstruction := by
  intro c i rest hwf hi
  have h := decode_take_length c ((encode c i).headD 0) ((encode c i).tail.headD 0)
    ((encode c i).tail.tail.headD 0) rest
  rwa [decodeBytes_encode c hwf hi, take_length_padded (length_encode c i) (length_bounds c i).2] at h

/-- Settles O2: the lone 0xCB row is its own encoding, and everything else that decodes was decoded from three
of which its encoding is the part that its length says. -/
theorem decodeConsumesExactlyTheEncoding : Obligations.DecodeConsumesExactlyTheEncoding := by
  intro c bs i rest h
  obtain ⟨rfl, rfl, rfl⟩ | ⟨b0, b1, b2, rfl, rfl⟩ := decode_eq_ok_cases h
  · exact ⟨rfl, [prefixByte], rfl, rfl, fun _ => rfl⟩
  · exact ⟨wellFormed_decodeBytes b0 b1 b2, _, rfl, List.length_take_of_le (length_bounds c _).2,
      fun hstop => (encode_decodeBytes c b0 b1 b2 hstop).symm⟩

/-- Settles O3: the three bytes are the instruction's and then the rest. -/
theorem threeBytesAlwaysDecode : Obligations.ThreeBytesAlwaysDecode := by
  intro c b0 b1 b2
  have h := decode_take_length c b0 b1 b2 ([b0, b1, b2].drop ((decodeBytes b0 b1 b2).length c))
  rwa [List.take_append_drop] at h

/-- Settles O6: ten closed words. -/
theorem sampleWordsDecode : Obligations.SampleWordsDecode :=
  ⟨rfl, rfl, rfl, rfl, rfl, rfl, rfl, rfl, rfl, rfl⟩

namespace Machine

/-! ## The invalid rows and the 0xCB row -/

/-- Settles O60: the eleven rows raise the same record, each with its own byte. -/
theorem invalidOpcodeCommitsOnlyTheFault : Obligations.InvalidOpcodeCommitsOnlyTheFault := by
  intro i byte s h
  cases i <;> cases h <;> rfl

/-- Settles O4: the eleven slots are found in the maps, and executing one is `invalidOpcodeCommitsOnlyTheFault`. -/
theorem invalidSlotsAreTheEleven : Obligations.InvalidSlotsAreTheEleven := by
  refine ⟨invalidByte_decodePrimary, fun op b1 b2 hop s => ?_, invalidByte_decodeExtended⟩
  have hprefix : op ≠ prefixByte := by
    rintro rfl
    revert hop
    decide
  refine invalidOpcodeCommitsOnlyTheFault _ op s ?_
  rw [decodeBytes_of_ne_prefixByte hprefix, invalidByte_decodePrimary, if_pos hop]

theorem exec_onR8 (k : Nat) (hlForm : Instr) (regForm : Reg8 → Instr) (s : State) :
    exec (onR8 k hlForm regForm) s = (r8 k).elim (exec hlForm s) (fun r => exec (regForm r) s) := by
  unfold onR8
  cases r8 k <;> rfl

theorem exec_decodeRot (y z : Nat) (s : State) :
    exec (decodeRot y z) s = (r8 z).elim (execRotHl y s) (fun r => execRotReg y r s) := by
  match y with
  | 0 | 1 | 2 | 3 | 4 | 5 | 6 | _ + 7 => exact exec_onR8 z _ _ s

/-- The second dispatch table calls the meaning of the row that the extended map gives (R151). -/
theorem execExtended_eq_exec (op : Byte) (s : State) : execExtended op s = exec (decodeExtended op) s := by
  unfold execExtended decodeExtended
  generalize bits op 7 6 = x
  match x with
  | 0 =>
    refine .trans ?_ (exec_decodeRot _ _ s).symm
    cases r8 (bits op 2 0) <;> rfl
  | 1 | 2 | _ + 3 =>
    refine .trans ?_ (exec_onR8 _ _ _ s).symm
    cases r8 (bits op 2 0) <;> rfl

/-- Settles O5: the meaning of the 0xCB row is the second dispatch table at the byte after it, and 0xCB alone is
that row. -/
theorem prefixRunsTheExtendedRow : Obligations.PrefixRunsTheExtendedRow :=
  ⟨fun s => execExtended_eq_exec _ s, fun op b2 => decodeBytes_prefixByte op b2, decodePrimary_eq_prefixCb_iff⟩

end Machine

end Sys2Proof

/-! PROOFS. What every instruction does to the state, said once: it fetches past its bytes, makes a list of writes
and charges its row's ticks (40_engine R146, R150). Each rule over all instructions is then one fact about single
writes and one about the lists. -/

namespace Sys2Proof

namespace Machine

/-- One write to one piece of state. -/
inductive Write where
  | reg (r : Reg8) (v : Byte)
  | flags (v : Byte)
  | sp (v : Word)
  | pc (v : Word)
  | byte (addr : Word) (v : Byte)
  | ime (v : Bool)
  | delay (v : Bool)
  | halt
  | stop

/-- The state after one write. -/
def Write.run (s : State) : Write → State
  | .reg r v => s.setReg8 r v
  | .flags v => s.writeF v
  | .sp v => { s with sp := v }
  | .pc v => s.jump v
  | .byte addr v => s.writeByte addr v
  | .ime v => { s with ime := v }
  | .delay v => { s with eiDelay := v }
  | .halt => { s with halt := true }
  | .stop => { s with stop := true }

/-- The writes one after the other. -/
def State.run (s : State) (ws : List Write) : State := ws.foldl Write.run s

/-- The write of an 8-bit result's flags (10_state R34). -/
def AluResult.flags (x : AluResult) : Write := .flags (flagByte x.z x.n x.h x.c)
/-- The writes of an 8-bit result to A and F. -/
def AluResult.writes (x : AluResult) : List Write := [.reg .a x.res, x.flags]
/-- The write of a 16-bit result's flags. -/
def WideResult.flags (x : WideResult) : Write := .flags (flagByte x.z x.n x.h x.c)
/-- The write of a rotate's flags, `z` for Z. -/
def RotResult.flags (x : RotResult) (z : Bool) : Write := .flags (flagByte z false false x.c)
/-- The writes of a rotate of A, Z by ACC_ROTATE_Z (44_rotate_shift_bit section 2). -/
def RotResult.writesA (x : RotResult) (s : State) : List Write := [.reg .a x.r, x.flags (s.accZ x.r)]
/-- The writes of an extended rotate or shift of a register. -/
def RotResult.writesReg (x : RotResult) (r : Reg8) : List Write := [.reg r x.r, x.flags (decide (x.r = 0))]
/-- The writes of an extended rotate or shift of the byte at HL. -/
def RotResult.writesHl (x : RotResult) (s : State) : List Write := [.byte s.hl x.r, x.flags (decide (x.r = 0))]

/-- The writes of a pair of the table `rp`. -/
def pairWrites (p : Pair) (v : Word) : List Write :=
  match p with
  | .bc => [.reg .b (hiByte v), .reg .c (loByte v)]
  | .de => [.reg .d (hiByte v), .reg .e (loByte v)]
  | .hl => [.reg .h (hiByte v), .reg .l (loByte v)]
  | .sp => [.sp v]

/-- The writes of a pair of the table `rp2`, F through its mask. -/
def stackPairWrites (q : StackPair) (v : Word) : List Write :=
  match q with
  | .bc => [.reg .b (hiByte v), .reg .c (loByte v)]
  | .de => [.reg .d (hiByte v), .reg .e (loByte v)]
  | .hl => [.reg .h (hiByte v), .reg .l (loByte v)]
  | .af => [.reg .a (hiByte v), .flags (loByte v)]

/-- The writes of a push (45_control R340). -/
def State.pushWrites (s : State) (v : Word) : List Write :=
  [.byte (s.sp - 1) (hiByte v), .byte (s.sp - 2) (loByte v), .sp (s.sp - 2)]

/-- The writes of a call: PC pushed, then replaced. -/
def State.callWrites (s : State) (target : Word) : List Write := s.pushWrites s.pc ++ [.pc target]

/-- The writes of a return. -/
def State.returnWrites (s : State) : List Write := [.sp (s.sp + 2), .pc s.popValue]

end Machine

open Machine in
/-- What an instruction writes, in order, from the state `s` that its fetch leaves. -/
def Instr.writes (s : State) : Instr → List Write
  | .nop | .prefixCb | .invalidD3 | .invalidDB | .invalidDD | .invalidE3 | .invalidE4 | .invalidEB | .invalidEC
  | .invalidED | .invalidF4 | .invalidFC | .invalidFD => []
  | .ldRR rd rs => [.reg rd (s.reg8 rs)]
  | .ldRN rd n => [.reg rd n]
  | .ldRHl rd => [.reg rd s.atHl]
  | .ldHlR rs => [.byte s.hl (s.reg8 rs)]
  | .ldHlN n => [.byte s.hl n]
  | .ldABc => [.reg .a (s.readByte s.bc)]
  | .ldADe => [.reg .a (s.readByte s.de)]
  | .ldANn nn => [.reg .a (s.readByte nn)]
  | .ldhAC => [.reg .a (s.readByte (highRam s.c))]
  | .ldhAN n => [.reg .a (s.readByte (highRam n))]
  | .ldBcA => [.byte s.bc s.a]
  | .ldDeA => [.byte s.de s.a]
  | .ldNnA nn => [.byte nn s.a]
  | .ldhCA => [.byte (highRam s.c) s.a]
  | .ldhNA n => [.byte (highRam n) s.a]
  | .ldAHli => .reg .a s.atHl :: pairWrites .hl (s.hl + 1)
  | .ldAHld => .reg .a s.atHl :: pairWrites .hl (s.hl - 1)
  | .ldHliA => .byte s.hl s.a :: pairWrites .hl (s.hl + 1)
  | .ldHldA => .byte s.hl s.a :: pairWrites .hl (s.hl - 1)
  | .ldRrNn p nn => pairWrites p nn
  | .ldNnSp nn => [.byte nn (loByte s.sp), .byte (nn + 1) (hiByte s.sp)]
  | .ldSpHl => [.sp s.hl]
  | .addHlRr p => pairWrites .hl (add16 s.hl (s.pair p) s.flagZ).res ++ [(add16 s.hl (s.pair p) s.flagZ).flags]
  | .incRr p => pairWrites p (s.pair p + 1)
  | .decRr p => pairWrites p (s.pair p - 1)
  | .addSpE e => [.sp (spAdd s.sp e).res, (spAdd s.sp e).flags]
  | .ldHlSpE e => pairWrites .hl (spAdd s.sp e).res ++ [(spAdd s.sp e).flags]
  | .incR r => [.reg r (inc8 (s.reg8 r) s.flagC).res, (inc8 (s.reg8 r) s.flagC).flags]
  | .decR r => [.reg r (dec8 (s.reg8 r) s.flagC).res, (dec8 (s.reg8 r) s.flagC).flags]
  | .incHl => [.byte s.hl (inc8 s.atHl s.flagC).res, (inc8 s.atHl s.flagC).flags]
  | .decHl => [.byte s.hl (dec8 s.atHl s.flagC).res, (dec8 s.atHl s.flagC).flags]
  | .addAR rs => (add8 s.a (s.reg8 rs) false).writes
  | .addAHl => (add8 s.a s.atHl false).writes
  | .addAN n => (add8 s.a n false).writes
  | .adcAR rs => (add8 s.a (s.reg8 rs) s.flagC).writes
  | .adcAHl => (add8 s.a s.atHl s.flagC).writes
  | .adcAN n => (add8 s.a n s.flagC).writes
  | .subAR rs => (sub8 s.a (s.reg8 rs) false).writes
  | .subAHl => (sub8 s.a s.atHl false).writes
  | .subAN n => (sub8 s.a n false).writes
  | .sbcAR rs => (sub8 s.a (s.reg8 rs) s.flagC).writes
  | .sbcAHl => (sub8 s.a s.atHl s.flagC).writes
  | .sbcAN n => (sub8 s.a n s.flagC).writes
  | .andAR rs => (and8 s.a (s.reg8 rs)).writes
  | .andAHl => (and8 s.a s.atHl).writes
  | .andAN n => (and8 s.a n).writes
  | .xorAR rs => (xor8 s.a (s.reg8 rs)).writes
  | .xorAHl => (xor8 s.a s.atHl).writes
  | .xorAN n => (xor8 s.a n).writes
  | .orAR rs => (or8 s.a (s.reg8 rs)).writes
  | .orAHl => (or8 s.a s.atHl).writes
  | .orAN n => (or8 s.a n).writes
  | .cpAR rs => [(sub8 s.a (s.reg8 rs) false).flags]
  | .cpAHl => [(sub8 s.a s.atHl false).flags]
  | .cpAN n => [(sub8 s.a n false).flags]
  | .daa => (daa8 s.a s.flagN s.flagH s.flagC).writes
  | .cpl => [.reg .a (~~~s.a), .flags (flagByte s.flagZ true true s.flagC)]
  | .scf => [.flags (flagByte s.flagZ false false true)]
  | .ccf => [.flags (flagByte s.flagZ false false (!s.flagC))]
  | .rlca => (rlc8 s.a).writesA s
  | .rrca => (rrc8 s.a).writesA s
  | .rla => (rl8 s.a s.flagC).writesA s
  | .rra => (rr8 s.a s.flagC).writesA s
  | .rlcR r => (rlc8 (s.reg8 r)).writesReg r
  | .rrcR r => (rrc8 (s.reg8 r)).writesReg r
  | .rlR r => (rl8 (s.reg8 r) s.flagC).writesReg r
  | .rrR r => (rr8 (s.reg8 r) s.flagC).writesReg r
  | .slaR r => (sla8 (s.reg8 r)).writesReg r
  | .sraR r => (sra8 (s.reg8 r)).writesReg r
  | .swapR r => (swap8 (s.reg8 r)).writesReg r
  | .srlR r => (srl8 (s.reg8 r)).writesReg r
  | .rlcHl => (rlc8 s.atHl).writesHl s
  | .rrcHl => (rrc8 s.atHl).writesHl s
  | .rlHl => (rl8 s.atHl s.flagC).writesHl s
  | .rrHl => (rr8 s.atHl s.flagC).writesHl s
  | .slaHl => (sla8 s.atHl).writesHl s
  | .sraHl => (sra8 s.atHl).writesHl s
  | .swapHl => (swap8 s.atHl).writesHl s
  | .srlHl => (srl8 s.atHl).writesHl s
  | .bitBR b r => [.flags (flagByte (!(s.reg8 r).getLsbD b) false true s.flagC)]
  | .bitBHl b => [.flags (flagByte (!s.atHl.getLsbD b) false true s.flagC)]
  | .resBR b r => [.reg r (resBit b (s.reg8 r))]
  | .resBHl b => [.byte s.hl (resBit b s.atHl)]
  | .setBR b r => [.reg r (setBit b (s.reg8 r))]
  | .setBHl b => [.byte s.hl (setBit b s.atHl)]
  | .pushQq q => s.pushWrites (s.stackPair q)
  | .popQq q => .sp (s.sp + 2) :: stackPairWrites q s.popValue
  | .jpNn nn => [.pc nn]
  | .jpCcNn cc nn => if s.cond cc then [.pc nn] else []
  | .jpHl => [.pc s.hl]
  | .jrE e => [.pc (s.relTarget e)]
  | .jrCcE cc e => if s.cond cc then [.pc (s.relTarget e)] else []
  | .callNn nn => s.callWrites nn
  | .callCcNn cc nn => if s.cond cc then s.callWrites nn else []
  | .rstT t => s.callWrites (rstTarget t)
  | .ret => s.returnWrites
  | .retCc cc => if s.cond cc then s.returnWrites else []
  | .reti => s.returnWrites ++ [.ime true]
  | .di => [.ime false]
  | .ei => [.ime true, .delay (decide (s.cfg.eiDelay = .one) && !s.ime || s.eiDelay)]
  | .halt => [.halt]
  | .stop => [.stop]

open Machine in
/-- The state after an instruction that is carried out: fetched, its writes made, its row's ticks charged. -/
def Instr.result (i : Instr) (s : State) : State :=
  ((s.fetched (i.length s.cfg)).run (i.writes (s.fetched (i.length s.cfg)))).charge (i.tableCycles (i.taken s))

namespace Machine

theorem State.run_pushWrites (s : State) (v : Word) : s.run (s.pushWrites v) = s.push16 v :=
  (s.push16_eq v).symm

theorem State.run_callWrites (s : State) (target : Word) :
    s.run (s.callWrites target) = (s.push16 s.pc).jump target :=
  congrArg (State.jump · target) (s.run_pushWrites s.pc)

/-- A conditional row makes its writes, at the taken count, exactly where its condition holds. -/
theorem State.complete_onCond_run (s : State) (n : Nat) (cc : Cond) {t : State} (ws : List Write)
    (hws : t = (s.fetched n).run ws) (k k' : Nat) :
    (if (s.fetched n).cond cc then t.complete k else (s.fetched n).complete k') =
      .next (((s.fetched n).run (if (s.fetched n).cond cc then ws else [])).charge (bif s.cond cc then k else k')) := by
  rw [s.cond_fetched, hws]
  cases s.cond cc <;> rfl

/-- HALT outside the case the spec refuses (R381). -/
theorem execHalt_of_not_refused {s : State} (h : s.haltRefused = false) :
    execHalt s = .next (Instr.result .halt s) :=
  if_neg (by rw [← State.haltRefused, h]; decide)

/-- HALT in the case the spec refuses (60_exceptions R403). -/
theorem execHalt_of_refused {s : State} (h : s.haltRefused = true) :
    execHalt s = .next (s.raise (.haltBugUnmodelled s.pc)) := if_pos h

/-- A row that is valid and not the HALT the spec refuses is carried out. -/
theorem exec_eq_result {i : Instr} {s : State} (hi : i ≠ .prefixCb) (hvalid : i.invalidByte = none)
    (hhalt : ¬(i = .halt ∧ s.haltRefused = true)) : exec i s = .next (i.result s) := by
  cases i
  case prefixCb => exact absurd rfl hi
  case invalidD3 | invalidDB | invalidDD | invalidE3 | invalidE4 | invalidEB | invalidEC | invalidED | invalidF4
      | invalidFC | invalidFD => cases hvalid
  case halt => exact execHalt_of_not_refused (by simpa using hhalt)
  case ldRrNn p _ | incRr p | decRr p => cases p <;> rfl
  case popQq q => cases q <;> rfl
  case pushQq q => exact congrArg (Host.Outcome.next <| State.charge · 16) (State.run_pushWrites _ _).symm
  case callNn nn => exact congrArg (Host.Outcome.next <| State.charge · 24) (State.run_callWrites _ _).symm
  case rstT t => exact congrArg (Host.Outcome.next <| State.charge · 16) (State.run_callWrites _ _).symm
  case jpCcNn cc nn => exact s.complete_onCond_run 3 cc [.pc nn] rfl 16 12
  case jrCcE cc e => exact s.complete_onCond_run 2 cc [.pc _] rfl 12 8
  case retCc cc => exact s.complete_onCond_run 1 cc (s.fetched 1).returnWrites rfl 20 8
  case callCcNn cc nn => exact s.complete_onCond_run 3 cc _ (State.run_callWrites _ nn).symm 24 12
  all_goals rfl

end Machine
end Sys2Proof

/-! PROOFS. All that an instruction can do: the row that runs, 0xCB resolved, is carried out by its list of writes,
or a fault is recorded and nothing else. Then what a list of writes keeps, and what the lists hold. -/

namespace Sys2Proof

/-! ## The row an instruction runs -/

theorem row_of_ne_prefixCb {i : Instr} (hi : i ≠ .prefixCb) (s : Machine.State) : i.row s = i := by
  cases i
  case prefixCb => exact absurd rfl hi
  all_goals rfl

theorem decodeExtended_ne_prefixCb : ∀ op : Byte, decodeExtended op ≠ .prefixCb := by
  decide

theorem writesSp_decodeExtended : ∀ op : Byte, (decodeExtended op).writesSp = false := by
  decide

theorem transfers_decodeExtended : ∀ op : Byte, (decodeExtended op).transfers = false := by
  decide

theorem tableCycles_decodeExtended :
    ∀ (op : Byte) (taken : Bool), (decodeExtended op).tableCycles taken = (decodeExtended op).tableCycles true := by
  decide

theorem row_ne_prefixCb (i : Instr) (s : Machine.State) : i.row s ≠ .prefixCb := by
  by_cases hi : i = .prefixCb
  · rw [hi]
    exact decodeExtended_ne_prefixCb _
  · rwa [row_of_ne_prefixCb hi]

/-- A row that no extended byte decodes to is run by itself alone. -/
theorem eq_of_row_eq {i j : Instr} {s : Machine.State} (hj : ∀ op, decodeExtended op ≠ j) (h : i.row s = j) :
    i = j := by
  by_cases hi : i = .prefixCb
  · rw [hi] at h
    exact absurd h (hj _)
  · rwa [row_of_ne_prefixCb hi] at h

/-- The condition of an extended row plays no part: those rows have one count. -/
theorem tableCycles_row (i : Instr) (s : Machine.State) :
    (i.row s).tableCycles ((i.row s).taken s) = (i.row s).tableCycles (i.taken s) := by
  by_cases hi : i = .prefixCb
  · subst hi
    exact tableCycles_decodeExtended _ _
  · rw [row_of_ne_prefixCb hi]

namespace Machine

theorem exec_row (i : Instr) (s : State) : exec i s = exec (i.row s) s := by
  by_cases hi : i = .prefixCb
  · rw [hi]
    exact execExtended_eq_exec _ s
  · rw [row_of_ne_prefixCb hi]

theorem exec_of_invalid {i : Instr} {s : State} {byte : Byte} (h : (i.row s).invalidByte = some byte) :
    exec i s = .next (s.raise (.invalidOpcode s.pc byte)) :=
  (exec_row i s).trans (invalidOpcodeCommitsOnlyTheFault _ byte s h)

theorem exec_of_valid {i : Instr} {s : State} (hvalid : (i.row s).invalidByte = none)
    (hhalt : ¬(i = .halt ∧ s.haltRefused = true)) : exec i s = .next ((i.row s).result s) :=
  (exec_row i s).trans <| exec_eq_result (row_ne_prefixCb i s) hvalid fun ⟨hrow, hrefused⟩ =>
    hhalt ⟨eq_of_row_eq (by decide) hrow, hrefused⟩

/-- Every instruction from every state: carried out, or a fault recorded by an invalid row or by HALT. -/
theorem exec_cases (i : Instr) (s : State) :
    exec i s = .next ((i.row s).result s) ∨
      ((i.row s).invalidByte ≠ none ∨ i = .halt) ∧ ∃ r, exec i s = .next (s.raise r) := by
  cases hv : (i.row s).invalidByte with
  | some byte => exact .inr ⟨.inl (by simp), _, exec_of_invalid hv⟩
  | none =>
    by_cases hh : i = .halt ∧ s.haltRefused = true
    · obtain ⟨rfl, hr⟩ := hh
      exact .inr ⟨.inr rfl, _, execHalt_of_refused hr⟩
    · exact .inl (exec_of_valid hv hh)

/-- The same of an instruction that answers `t`. -/
theorem exec_next_cases {i : Instr} {s t : State} (h : exec i s = .next t) :
    t = (i.row s).result s ∨ ((i.row s).invalidByte ≠ none ∨ i = .halt) ∧ ∃ r, t = s.raise r := by
  obtain he | ⟨hi, r, he⟩ := exec_cases i s
  · exact .inl (Host.Outcome.next.inj (h.symm.trans he))
  · exact .inr ⟨hi, r, Host.Outcome.next.inj (h.symm.trans he)⟩

/-! ## What a list of writes keeps -/

/-- What no write of a list changes, the list does not change. -/
theorem State.run_keeps {α : Type} (field : State → α) (s : State) {ws : List Write}
    (hws : ∀ t, ∀ w ∈ ws, field (Write.run t w) = field t) : field (s.run ws) = field s := by
  induction ws generalizing s with
  | nil => rfl
  | cons w ws ih =>
    exact (ih (Write.run s w) fun t x hx => hws t x (List.mem_cons_of_mem w hx)).trans (hws s w List.mem_cons_self)

/-- What every write keeps true, a list of writes keeps true. -/
theorem State.run_induction {P : State → Prop} (hP : ∀ s w, P s → P (Write.run s w)) {s : State} (hs : P s)
    (ws : List Write) : P (s.run ws) := by
  induction ws generalizing s with
  | nil => exact hs
  | cons w ws ih => exact ih (hP s w hs)

/-- The register a write is to. -/
def Write.reg? : Write → Option Reg8
  | .reg r _ => some r
  | _ => none

/-- The address and byte a write stores. -/
def Write.store? : Write → Option (Word × Byte)
  | .byte addr v => some (addr, v)
  | _ => none

theorem State.run_reg8 (s : State) (r : Reg8) {ws : List Write} (hr : r ∉ ws.filterMap Write.reg?) :
    (s.run ws).reg8 r = s.reg8 r := by
  refine State.run_keeps (State.reg8 · r) s fun t w hw => ?_
  cases w
  case reg q v =>
    have hq : r ≠ q := by
      rintro rfl
      exact hr (List.mem_filterMap.mpr ⟨_, hw, rfl⟩)
    exact (State.reg8_setReg8 t q r v).trans (if_neg hq)
  all_goals cases r <;> rfl

theorem State.readByte_run_of_not_mem (s : State) (x : Word) {ws : List Write}
    (hx : x ∉ (ws.filterMap Write.store?).map Prod.fst) : (s.run ws).readByte x = s.readByte x := by
  refine State.run_keeps (State.readByte · x) s fun t w hw => ?_
  cases w
  case byte y v =>
    have hy : x ≠ y := by
      rintro rfl
      exact hx (List.mem_map.mpr ⟨(x, v), List.mem_filterMap.mpr ⟨_, hw, rfl⟩, rfl⟩)
    exact (State.readByte_writeByte t y x v).trans (if_neg hy)
  case reg r v => exact State.readByte_congr (State.setReg8_mem t r v) x
  all_goals rfl

/-- Where no address is stored to twice, each byte stored is there at the end. -/
theorem State.readByte_run_of_mem (s : State) {ws : List Write}
    (hnodup : ((ws.filterMap Write.store?).map Prod.fst).Nodup) {p : Word × Byte}
    (hp : p ∈ ws.filterMap Write.store?) : (s.run ws).readByte p.1 = p.2 := by
  induction ws generalizing s with
  | nil => cases hp
  | cons w ws ih =>
    cases w
    case byte addr v =>
      obtain ⟨haddr, hrest⟩ := List.nodup_cons.mp hnodup
      obtain rfl | hp := List.mem_cons.mp hp
      · exact ((s.writeByte addr v).readByte_run_of_not_mem addr haddr).trans (by simp)
      · exact ih (s.writeByte addr v) hrest hp
    all_goals exact ih _ hnodup hp

/-- The instructions that may make a write, the operand of a register or of a store apart (10_state R37, R39
to R43). -/
def Write.allowed (i : Instr) : Write → Bool
  | .reg _ _ | .byte _ _ => true
  | .flags _ => !i.keepsFlags
  | .sp _ => i.writesSp
  | .pc _ => i.transfers
  | .ime _ => decide (i = .di ∨ i = .ei ∨ i = .reti)
  | .delay _ => decide (i = .ei)
  | .halt => decide (i = .halt)
  | .stop => decide (i = .stop)

/-- Each instruction makes only the writes the spec allows it. -/
theorem allowed_of_mem_writes {i : Instr} {s : State} {w : Write} (hw : w ∈ i.writes s) : w.allowed i = true := by
  refine List.all_eq_true.mp ?_ w hw
  cases i
  case ldRrNn p _ | incRr p | decRr p => cases p <;> rfl
  case popQq q => cases q <;> rfl
  case jpCcNn cc _ | jrCcE cc _ | callCcNn cc _ | retCc cc => dsimp only [Instr.writes]; split <;> rfl
  all_goals rfl

/-- The registers an instruction writes are its destinations. -/
theorem filterMap_reg?_writes (i : Instr) (s : State) : (i.writes s).filterMap Write.reg? = i.dests := by
  cases i
  case ldRrNn p _ | incRr p | decRr p => cases p <;> rfl
  case popQq q => cases q <;> rfl
  case jpCcNn cc _ | jrCcE cc _ | callCcNn cc _ | retCc cc => dsimp only [Instr.writes]; split <;> rfl
  all_goals rfl

/-- The bytes an instruction writes are its stores. -/
theorem filterMap_store?_writes (i : Instr) (s : State) :
    (i.writes (s.fetched (i.length s.cfg))).filterMap Write.store? = i.stores s := by
  cases i
  case ldRrNn p _ | incRr p | decRr p => cases p <;> rfl
  case pushQq q => cases q <;> rfl
  case popQq q => cases q <;> rfl
  case ldHlR r => cases r <;> rfl
  case jpCcNn cc _ | jrCcE cc _ | retCc cc => dsimp only [Instr.writes]; split <;> rfl
  case callCcNn cc _ => dsimp only [Instr.writes, Instr.stores]; rw [s.cond_fetched]; split <;> rfl
  all_goals rfl

theorem nodup_pushed (s : State) (v : Word) : ((s.pushed v).map Prod.fst).Nodup := by
  simp [State.pushed]

/-- No instruction stores to one address twice. -/
theorem nodup_stores (i : Instr) (s : State) : ((i.stores s).map Prod.fst).Nodup := by
  cases i
  case pushQq | callNn | rstT => exact nodup_pushed s _
  case callCcNn =>
    dsimp only [Instr.stores]
    split
    · exact nodup_pushed s _
    · exact List.nodup_nil
  case ldNnSp nn =>
    change [nn, nn + 1].Nodup
    simp
  case ldHlR | ldHlN | ldBcA | ldDeA | ldNnA | ldhCA | ldhNA | ldHliA | ldHldA | incHl | decHl | rlcHl | rrcHl | rlHl
      | rrHl | slaHl | sraHl | swapHl | srlHl | resBHl | setBHl => exact List.nodup_singleton _
  all_goals exact List.nodup_nil

theorem stores_eq_nil {i : Instr} (hi : i.invalidByte ≠ none ∨ i = .halt) (s : State) : i.stores s = [] := by
  obtain hi | rfl := hi
  · obtain ⟨byte, hb⟩ := Option.ne_none_iff_exists'.mp hi
    cases i <;> cases hb <;> rfl
  · rfl

end Machine
end Sys2Proof

/-! PROOFS. The rules over all instructions and all steps: which instruction writes what, and what every step keeps. -/

namespace Sys2Proof

theorem writesSp_row (i : Instr) (s : Machine.State) : (i.row s).writesSp = i.writesSp := by
  by_cases hi : i = .prefixCb
  · rw [hi]
    exact writesSp_decodeExtended _
  · rw [row_of_ne_prefixCb hi]

theorem transfers_row (i : Instr) (s : Machine.State) : (i.row s).transfers = i.transfers := by
  by_cases hi : i = .prefixCb
  · rw [hi]
    exact transfers_decodeExtended _
  · rw [row_of_ne_prefixCb hi]

theorem invalidByte_row (i : Instr) (s : Machine.State) : (i.row s).invalidByte = i.invalidByte := by
  by_cases hi : i = .prefixCb
  · rw [hi]
    exact invalidByte_decodeExtended _
  · rw [row_of_ne_prefixCb hi]

namespace Machine

@[simp] theorem State.reg8_charge (s : State) (k : Nat) (r : Reg8) : (s.charge k).reg8 r = s.reg8 r := by
  cases r <;> rfl

@[simp] theorem State.reg8_raise (s : State) (x : FaultRecord) (r : Reg8) : (s.raise x).reg8 r = s.reg8 r := by
  cases r <;> rfl

/-! ## What an instruction that is carried out leaves as it was -/

@[simp] theorem result_cycles (i : Instr) (s : State) :
    (i.result s).cycles = s.cycles + i.tableCycles (i.taken s) :=
  congrArg (· + _) (State.run_keeps State.cycles _ fun _ w _ => by cases w <;> simp [Write.run])

@[simp] theorem result_cfg (i : Instr) (s : State) : (i.result s).cfg = s.cfg :=
  State.run_keeps State.cfg _ fun _ w _ => by cases w <;> simp [Write.run]

@[simp] theorem result_fault (i : Instr) (s : State) : (i.result s).fault = s.fault :=
  State.run_keeps State.fault _ fun _ w _ => by cases w <;> simp [Write.run]

@[simp] theorem result_irqPort (i : Instr) (s : State) : (i.result s).irqPort = s.irqPort :=
  State.run_keeps State.irqPort _ fun _ w _ => by cases w <;> simp [Write.run]

@[simp] theorem result_irq (i : Instr) (s : State) : (i.result s).irq = s.irq :=
  State.run_keeps State.irq _ fun _ w _ => by cases w <;> simp [Write.run]

@[simp] theorem result_irqAck (i : Instr) (s : State) : (i.result s).irqAck = s.irqAck :=
  State.run_keeps State.irqAck _ fun _ w _ => by cases w <;> simp [Write.run]

theorem result_f {i : Instr} (hi : i.keepsFlags = true) (s : State) : (i.result s).f = s.f :=
  State.run_keeps State.f _ fun t w hw => by
    have hallowed := allowed_of_mem_writes hw
    cases w
    case flags v => simp [Write.allowed, hi] at hallowed
    case reg r v => exact t.setReg8_f r v
    all_goals rfl

theorem result_sp {i : Instr} (hi : i.writesSp = false) (s : State) : (i.result s).sp = s.sp :=
  State.run_keeps State.sp _ fun t w hw => by
    have hallowed := allowed_of_mem_writes hw
    cases w
    case sp v => cases hi.symm.trans hallowed
    case reg r v => exact t.setReg8_sp r v
    all_goals rfl

theorem result_pc {i : Instr} (hi : i.transfers = false) (s : State) :
    (i.result s).pc = s.pc + BitVec.ofNat 16 (i.length s.cfg) :=
  State.run_keeps State.pc _ fun t w hw => by
    have hallowed := allowed_of_mem_writes hw
    cases w
    case pc v => cases hi.symm.trans hallowed
    case reg r v => exact t.setReg8_pc r v
    all_goals rfl

theorem result_ime {i : Instr} (hi : ¬(i = .di ∨ i = .ei ∨ i = .reti)) (s : State) : (i.result s).ime = s.ime :=
  State.run_keeps State.ime _ fun t w hw => by
    have hallowed := allowed_of_mem_writes hw
    cases w
    case ime v => exact absurd (of_decide_eq_true hallowed) hi
    case reg r v => exact t.setReg8_ime r v
    all_goals rfl

theorem result_eiDelay {i : Instr} (hi : i ≠ .ei) (s : State) : (i.result s).eiDelay = false :=
  State.run_keeps State.eiDelay _ fun t w hw => by
    have hallowed := allowed_of_mem_writes hw
    cases w
    case delay v => exact absurd (of_decide_eq_true hallowed) hi
    case reg r v => exact t.setReg8_eiDelay r v
    all_goals rfl

theorem result_halt {i : Instr} (hi : i ≠ .halt) (s : State) : (i.result s).halt = s.halt :=
  State.run_keeps State.halt _ fun t w hw => by
    have hallowed := allowed_of_mem_writes hw
    cases w
    case halt => exact absurd (of_decide_eq_true hallowed) hi
    case reg r v => exact t.setReg8_halt r v
    all_goals rfl

theorem result_stop {i : Instr} (hi : i ≠ .stop) (s : State) : (i.result s).stop = s.stop :=
  State.run_keeps State.stop _ fun t w hw => by
    have hallowed := allowed_of_mem_writes hw
    cases w
    case stop => exact absurd (of_decide_eq_true hallowed) hi
    case reg r v => exact t.setReg8_stop r v
    all_goals rfl

theorem result_reg8 {i : Instr} {r : Reg8} (hr : r ∉ i.dests) (s : State) : (i.result s).reg8 r = s.reg8 r := by
  rw [Instr.result, State.reg8_charge, State.run_reg8 _ _ (by rwa [filterMap_reg?_writes]), State.reg8_fetched]

theorem result_readByte_of_not_mem {i : Instr} {s : State} {x : Word} (hx : x ∉ (i.stores s).map Prod.fst) :
    (i.result s).readByte x = s.readByte x :=
  State.readByte_run_of_not_mem _ x (by rwa [filterMap_store?_writes])

theorem result_readByte_of_mem {i : Instr} {s : State} {p : Word × Byte} (hp : p ∈ i.stores s) :
    (i.result s).readByte p.1 = p.2 :=
  State.readByte_run_of_mem _ (by rw [filterMap_store?_writes]; exact nodup_stores i s)
    (by rwa [filterMap_store?_writes])

/-! ## The rules over all instructions -/

/-- Settles O25: the row that runs is charged by `Instr.result`. -/
theorem everyInstructionChargesItsTableCount : Obligations.EveryInstructionChargesItsTableCount := by
  intro i s hvalid hhalt
  refine ⟨_, exec_of_valid hvalid hhalt, ?_⟩
  rw [result_cycles, tableCycles_row]

/-- Settles O31: only transfers write PC after the fetch. -/
theorem sequentialInstructionsAdvancePc : Obligations.SequentialInstructionsAdvancePc := by
  intro i s hseq hvalid hhalt
  exact ⟨_, exec_of_valid ((invalidByte_row i s).trans hvalid) hhalt, result_pc ((transfers_row i s).trans hseq) s⟩

/-- Settles O28: none of their writes is to F, and a recorded fault keeps F. -/
theorem flaglessInstructionsKeepF : Obligations.FlaglessInstructionsKeepF := by
  intro i s t hi h
  have hrow : i.row s = i := row_of_ne_prefixCb (by rintro rfl; cases hi) s
  obtain rfl | ⟨-, r, rfl⟩ := exec_next_cases h
  · rw [hrow]
    exact result_f hi s
  · rfl

/-- Settles O29: the registers of an instruction's writes are its destinations, and no write is to a port or to the
configuration. -/
theorem instructionsWriteOnlyTheirDestinations : Obligations.InstructionsWriteOnlyTheirDestinations := by
  intro i s t h
  obtain rfl | ⟨-, r, rfl⟩ := exec_next_cases h
  · exact ⟨fun r hr => result_reg8 hr s, result_cfg _ s, result_irqPort _ s, result_irq _ s, result_irqAck _ s⟩
  · exact ⟨fun q _ => s.reg8_raise r q, rfl, rfl, rfl, rfl⟩

/-- Settles O30: the bytes among an instruction's writes are its stores, to addresses that differ. -/
theorem instructionsStoreOnlyTheirBytes : Obligations.InstructionsStoreOnlyTheirBytes := by
  intro i s t h
  obtain rfl | ⟨hi, r, rfl⟩ := exec_next_cases h
  · exact ⟨fun p hp => result_readByte_of_mem hp, fun x hx => result_readByte_of_not_mem hx⟩
  · have hnil : (i.row s).stores s = [] := stores_eq_nil (hi.imp_right (by rintro rfl; rfl)) s
    rw [hnil]
    exact ⟨fun p hp => (List.not_mem_nil hp).elim, fun x _ => rfl⟩

/-- Settles O26: no other instruction has a write to `ime`. -/
theorem onlyDiEiRetiWriteIme : Obligations.OnlyDiEiRetiWriteIme := by
  refine ⟨fun i s t hdi hei hreti h => ?_, fun s => ⟨⟨_, rfl, rfl⟩, ⟨_, rfl, rfl⟩, ⟨_, rfl, rfl⟩⟩⟩
  obtain rfl | ⟨-, r, rfl⟩ := exec_next_cases h
  · refine result_ime ?_ s
    rintro (hrow | hrow | hrow)
    · exact hdi (eq_of_row_eq (by decide) hrow)
    · exact hei (eq_of_row_eq (by decide) hrow)
    · exact hreti (eq_of_row_eq (by decide) hrow)
  · rfl

/-- Settles O27: no other instruction has a write to SP; each of the listed ones is run. -/
theorem onlyStackInstructionsWriteSp : Obligations.OnlyStackInstructionsWriteSp := by
  refine ⟨fun i s t hi h => ?_, fun s nn e q cc n => ?_⟩
  · obtain rfl | ⟨-, r, rfl⟩ := exec_next_cases h
    · exact result_sp ((writesSp_row i s).trans hi) s
    · rfl
  · obtain ⟨-, hcalls⟩ := callsReturnsAndRestarts
    obtain ⟨hcall, hcallCc, -, hretCc, hrst⟩ := hcalls s cc nn n
    rw [← add_sext16_eq_ofInt]
    refine ⟨⟨_, rfl, rfl⟩, ⟨_, rfl, rfl⟩, ⟨_, rfl, rfl⟩, ⟨_, rfl, rfl⟩, ⟨_, rfl, rfl⟩,
      ⟨_, rfl, (s.fetched 1).push16_sp _⟩, ⟨_, rfl, ?_⟩, ⟨_, hcall, rfl⟩, ⟨_, hcallCc, ?_⟩, ⟨_, hrst, rfl⟩,
      ⟨_, rfl, rfl⟩, ⟨_, hretCc, ?_⟩, ⟨_, rfl, rfl⟩⟩
    · cases q <;> rfl
    · split <;> rfl
    · split <;> rfl

/-! ## The branches of a step (40_engine R140) -/

theorem step_of_fault {s : State} {r : FaultRecord} (h : s.fault = some r) : step s = stuck r := by
  simp only [step, stepWith, h]

theorem step_of_idles {s : State} (hf : s.fault = none) (hi : s.sampleIrq.idles = true) :
    step s = .next s.sampleIrq.idleTick := by
  simp only [step, stepWith, hf, hi, if_true]

theorem step_of_dispatch {s : State} {k : IrqNum} (hf : s.fault = none) (hi : s.sampleIrq.idles = false)
    (hk : s.sampleIrq.wake.toDispatch = some k) : step s = .next (s.sampleIrq.wake.takeInterrupt k) := by
  simp only [step, stepWith, hf, hi, hk, Bool.false_eq_true, if_false]

theorem step_of_no_dispatch {s : State} (hf : s.fault = none) (hi : s.sampleIrq.idles = false)
    (hk : s.sampleIrq.wake.toDispatch = none) :
    step s = exec (fetchInstr s.sampleIrq.wake) s.sampleIrq.wake := by
  simp only [step, stepWith, hf, hi, hk, Bool.false_eq_true, if_false]

theorem exec_completes (i : Instr) (s : State) : ∃ t, exec i s = .next t := by
  obtain h | ⟨-, r, h⟩ := exec_cases i s
  · exact ⟨_, h⟩
  · exact ⟨_, h⟩

/-- Settles O24: an unfaulted step idles, dispatches or executes, and every instruction completes. -/
theorem everyInstructionAnswersANextState : Obligations.EveryInstructionAnswersANextState := by
  refine ⟨exec_completes, fun s hf => ?_⟩
  cases hi : s.sampleIrq.idles with
  | true => exact ⟨_, step_of_idles hf hi⟩
  | false =>
    cases hk : s.sampleIrq.wake.toDispatch with
    | some k => exact ⟨_, step_of_dispatch hf hi hk⟩
    | none =>
      rw [step_of_no_dispatch hf hi hk]
      exact exec_completes _ _

/-! ## The invariants of a step -/

/-- An instruction keeps what recording a fault, fetching, charging and each single write keep. -/
theorem exec_keeps {P : State → Prop} (hraise : ∀ s r, P s → P (s.raise r))
    (hfetched : ∀ s n, P s → P (s.fetched n)) (hwrite : ∀ s w, P s → P (Write.run s w))
    (hcharge : ∀ s k, P s → P (s.charge k)) {i : Instr} {s t : State} (h : exec i s = .next t) (hs : P s) : P t := by
  obtain rfl | ⟨-, r, rfl⟩ := exec_next_cases h
  · exact hcharge _ _ (State.run_induction hwrite (hfetched _ _ hs) _)
  · exact hraise s r hs

/-- A step keeps what sampling, idling, waking, dispatching and every instruction keep. -/
theorem step_keeps {P : State → Prop} (hsample : ∀ s, P s → P s.sampleIrq) (hidle : ∀ s, P s → P s.idleTick)
    (hwake : ∀ s, P s → P s.wake) (hdispatch : ∀ s k, s.toDispatch = some k → P s → P (s.takeInterrupt k))
    (hexec : ∀ i s t, exec i s = .next t → P s → P t) {s t : State} (h : step s = .next t) (hs : P s) : P t := by
  obtain ⟨-, ⟨-, rfl⟩ | ⟨-, ⟨k, hk, rfl⟩ | ⟨-, he⟩⟩⟩ := step_next h
  · exact hidle _ (hsample s hs)
  · exact hdispatch _ k hk (hwake _ (hsample s hs))
  · exact hexec _ _ t he (hwake _ (hsample s hs))

theorem Write.run_flagNibbleZero (s : State) (w : Write) (hs : s.FlagNibbleZero) : (Write.run s w).FlagNibbleZero := by
  cases w
  case flags v => exact s.writeF_nibble v
  case reg r v => exact (congrArg (· &&& 0x0F) (s.setReg8_f r v)).trans hs
  all_goals exact hs

/-- Settles O18: F is written through its mask alone (10_state R35). -/
theorem stepKeepsFlagNibbleZero : Obligations.StepKeepsFlagNibbleZero := fun _ _ hs h =>
  step_keeps (P := State.FlagNibbleZero) (fun _ h => h) (fun _ h => h)
    (fun s h => (congrArg (· &&& 0x0F) s.wake_f).trans h) (fun _ _ _ h => h)
    (fun _ _ _ => exec_keeps (fun _ _ h => h) (fun _ _ h => h) Write.run_flagNibbleZero (fun _ _ h => h)) h hs

theorem Write.run_memCanonical (s : State) (w : Write) (hs : s.MemCanonical) : (Write.run s w).MemCanonical := by
  cases w
  case byte addr v => exact s.wf_writeByte addr v hs
  case reg r v => exact (congrArg Memory.wf (s.setReg8_mem r v)).trans hs
  all_goals exact hs

theorem State.takeInterrupt_memCanonical (s : State) (k : IrqNum) (hs : s.MemCanonical) :
    (s.takeInterrupt k).MemCanonical := by
  rw [State.takeInterrupt_eq]
  exact s.wf_push16 s.pc hs

/-- Settles O19: memory is written by `writeByte` alone, which keeps the canonical form. -/
theorem stepKeepsMemoryCanonical : Obligations.StepKeepsMemoryCanonical := fun _ _ hs h =>
  step_keeps (P := State.MemCanonical) (fun _ h => h) (fun _ h => h)
    (fun s h => (congrArg Memory.wf s.wake_mem).trans h) (fun s k _ h => s.takeInterrupt_memCanonical k h)
    (fun _ _ _ => exec_keeps (fun _ _ h => h) (fun _ _ h => h) Write.run_memCanonical (fun _ _ h => h)) h hs

/-- No instruction sets both `halt` and `stop`. -/
theorem exec_powerExclusive {i : Instr} {s t : State} (hhalt : s.halt = false) (hstop : s.stop = false)
    (h : exec i s = .next t) : t.PowerExclusive := by
  rintro ⟨hth, hts⟩
  obtain rfl | ⟨-, r, rfl⟩ := exec_next_cases h
  · by_cases hrow : i.row s = .halt
    · rw [hrow, result_stop (by decide), hstop] at hts
      cases hts
    · rw [result_halt hrow, hhalt] at hth
      cases hth
  · exact Bool.noConfusion (hhalt.symm.trans hth)

/-- Settles O20: a core that executes or dispatches is awake, and one instruction sets at most one of the two. -/
theorem stepKeepsHaltAndStopExclusive : Obligations.StepKeepsHaltAndStopExclusive := by
  intro s t hs h
  obtain ⟨-, ⟨-, rfl⟩ | ⟨-, ⟨k, -, rfl⟩ | ⟨-, he⟩⟩⟩ := step_next h
  · exact hs
  · obtain ⟨hhalt, -⟩ := s.sampleIrq.wake_running hs
    simp [State.PowerExclusive, hhalt]
  · obtain ⟨hhalt, hstop⟩ := s.sampleIrq.wake_running hs
    exact exec_powerExclusive hhalt hstop he

theorem exec_delayWithinIme {i : Instr} {s t : State} (h : exec i s = .next t) (hs : s.DelayWithinIme) :
    t.DelayWithinIme := by
  obtain rfl | ⟨-, r, rfl⟩ := exec_next_cases h
  · intro ht
    by_cases hrow : i.row s = .ei
    · rw [hrow]
      rfl
    · rw [result_eiDelay hrow] at ht
      cases ht
  · exact hs

/-- Nothing is dispatched while `ei_delay` is set (40_engine R145). -/
theorem eiDelay_of_toDispatch {s : State} {k : IrqNum} (hk : s.toDispatch = some k) : s.eiDelay = false := by
  cases hd : s.eiDelay with
  | false => rfl
  | true => simp [State.toDispatch, hd] at hk

/-- Settles O21: EI alone sets `ei_delay`, and it sets `ime`; a dispatch clears `ime` only when no delay stands. -/
theorem stepKeepsDelayWithinIme : Obligations.StepKeepsDelayWithinIme := fun _ _ hs h =>
  step_keeps (P := State.DelayWithinIme) (fun _ h => h) (fun _ h => h)
    (fun s h => by rwa [State.DelayWithinIme, s.wake_ime, s.wake_eiDelay])
    (fun _ _ hk _ ht => absurd ht (by simp [eiDelay_of_toDispatch hk]))
    (fun _ _ _ => exec_delayWithinIme) h hs

/-! ## The tick counter: raising it before is raising it after -/

theorem Write.run_charge (s : State) (n : Nat) (w : Write) : Write.run (s.charge n) w = (Write.run s w).charge n := by
  cases w
  case reg r v => cases r <;> rfl
  all_goals rfl

theorem State.run_charge (s : State) (n : Nat) (ws : List Write) : (s.charge n).run ws = (s.run ws).charge n := by
  induction ws generalizing s with
  | nil => rfl
  | cons w ws ih => exact (congrArg (State.run · ws) (Write.run_charge s n w)).trans (ih _)

theorem writes_charge (i : Instr) (s : State) (n : Nat) : i.writes (s.charge n) = i.writes s := by
  cases i
  case ldRR _ r | ldHlR r | incR r | decR r | addAR r | adcAR r | subAR r | sbcAR r | andAR r | xorAR r | orAR r
      | cpAR r | rlcR r | rrcR r | rlR r | rrR r | slaR r | sraR r | swapR r | srlR r
      | bitBR _ r | resBR _ r | setBR _ r =>
    cases r <;> rfl
  case addHlRr p | incRr p | decRr p => cases p <;> rfl
  case pushQq q => cases q <;> rfl
  case jpCcNn cc _ | jrCcE cc _ | callCcNn cc _ | retCc cc => cases cc <;> rfl
  all_goals rfl

theorem taken_charge (i : Instr) (s : State) (n : Nat) : i.taken (s.charge n) = i.taken s := by
  cases i
  case jpCcNn cc _ | jrCcE cc _ | callCcNn cc _ | retCc cc => cases cc <;> rfl
  all_goals rfl

theorem result_charge (i : Instr) (s : State) (n : Nat) : i.result (s.charge n) = (i.result s).charge n := by
  have hrun : ((s.fetched (i.length s.cfg)).charge n).run (i.writes ((s.fetched (i.length s.cfg)).charge n)) =
      ((s.fetched (i.length s.cfg)).run (i.writes (s.fetched (i.length s.cfg)))).charge n := by
    rw [writes_charge, State.run_charge]
  rw [Instr.result, taken_charge]
  refine (congrArg (State.charge · _) hrun).trans ?_
  simp only [Instr.result, State.charge, Nat.add_right_comm]

theorem row_charge (i : Instr) (s : State) (n : Nat) : i.row (s.charge n) = i.row s := by
  cases i <;> rfl

/-- An instruction does not look at the counter it charges. -/
theorem exec_charge {i : Instr} {s t : State} (h : exec i s = .next t) (n : Nat) :
    exec i (s.charge n) = .next (t.charge n) := by
  by_cases hv : (i.row s).invalidByte = none
  · by_cases hh : i = .halt ∧ s.haltRefused = true
    · obtain ⟨rfl, hr⟩ := hh
      cases h.symm.trans (execHalt_of_refused hr)
      exact execHalt_of_refused (s := s.charge n) hr
    · cases h.symm.trans (exec_of_valid hv hh)
      rw [exec_of_valid (by rwa [row_charge]) (s := s.charge n) hh, row_charge, result_charge]
  · obtain ⟨byte, hb⟩ := Option.ne_none_iff_exists'.mp hv
    cases h.symm.trans (exec_of_invalid hb)
    exact exec_of_invalid (by rwa [row_charge])

/-- All a wake does: `stop` is cleared, and `halt` where `stop` was not set. -/
theorem State.wake_eq (s : State) : s.wake = { s with halt := s.halt && s.stop, stop := false } := by
  unfold State.wake
  cases hstop : s.stop with
  | true => simp
  | false =>
    cases hhalt : s.halt with
    | true => simp
    | false =>
      cases s
      cases hstop
      cases hhalt
      rfl

theorem State.wake_charge (s : State) (n : Nat) : (s.charge n).wake = s.wake.charge n := by
  rw [State.wake_eq, State.wake_eq]
  rfl

theorem State.charge_charge (s : State) (k n : Nat) : (s.charge k).charge n = (s.charge n).charge k := by
  simp only [State.charge, Nat.add_right_comm]

theorem State.idleTick_charge (s : State) (n : Nat) : (s.charge n).idleTick = s.idleTick.charge n :=
  s.charge_charge n _

theorem State.takeInterrupt_charge (s : State) (n : Nat) (k : IrqNum) :
    (s.charge n).takeInterrupt k = (s.takeInterrupt k).charge n := by
  rw [State.takeInterrupt_eq, State.takeInterrupt_eq, State.push16_eq, State.push16_eq]
  simp [State.charge, State.writeByte, Nat.add_right_comm]

/-- The step of a raised counter, branch by branch of 40_engine R140: none of them looks at it. -/
theorem step_charge {s t : State} (h : step s = .next t) (n : Nat) : step (s.charge n) = .next (t.charge n) := by
  have hwake : (s.charge n).sampleIrq.wake = s.sampleIrq.wake.charge n := s.sampleIrq.wake_charge n
  obtain ⟨hf, ⟨hi, rfl⟩ | ⟨hi, ⟨k, hk, rfl⟩ | ⟨hk, he⟩⟩⟩ := step_next h
  · exact (step_of_idles (s := s.charge n) hf hi).trans (congrArg _ (s.sampleIrq.idleTick_charge n))
  · rw [step_of_dispatch (s := s.charge n) (k := k) hf hi (by rw [hwake]; exact hk), hwake, State.takeInterrupt_charge]
  · rw [step_of_no_dispatch (s := s.charge n) hf hi (by rw [hwake]; exact hk), hwake]
    exact exec_charge he n

/-- Settles O23: a faulted core does not step at either count, and the next state of any other only has its counter
raised. -/
theorem cyclesInfluenceNothing : Obligations.CyclesInfluenceNothing := by
  intro s n
  change step (s.charge n) = _
  cases hf : s.fault with
  | some r =>
    rw [step_of_fault (s := s.charge n) hf, step_of_fault hf]
    cases r <;> rfl
  | none =>
    obtain ⟨-, hstep⟩ := everyInstructionAnswersANextState
    obtain ⟨t, ht⟩ := hstep s hf
    rw [step_charge ht, ht]
    rfl

end Machine
end Sys2Proof

/-! PROOFS. Statements of single instructions: stack, system, ADC and SBC, the accumulator rotates, DAA after ADD and
SUB, and one instruction that undoes another. -/

namespace Sys2Proof

theorem decodeBytes_pushQq (q : StackPair) (b1 b2 : Byte) :
    decodeBytes (0xC5#8 ||| q.code <<< 4) b1 b2 = .pushQq q := by
  cases q <;> rfl

theorem decodeBytes_popQq (q : StackPair) (b1 b2 : Byte) :
    decodeBytes (0xC1#8 ||| q.code <<< 4) b1 b2 = .popQq q := by
  cases q <;> rfl

namespace Machine

/-! ## PUSH and POP, HALT, STOP, EI and RETI, and F's mask -/

theorem State.complete_push16 (s : State) (n k : Nat) (v : Word) :
    ((s.fetched n).push16 v).complete k =
      .next { ((s.after n k).writeByte (s.sp - 1) (hiByte v)).writeByte (s.sp - 2) (loByte v) with
        sp := s.sp - 2 } := by
  rw [State.push16_eq]
  rfl

theorem State.complete_pushPairWord (s : State) (n k : Nat) (hi lo : Byte) :
    ((s.fetched n).push16 (pairWord hi lo)).complete k =
      .next { ((s.after n k).writeByte (s.sp - 1) hi).writeByte (s.sp - 2) lo with sp := s.sp - 2 } := by
  rw [State.complete_push16, hiByte_pairWord, loByte_pairWord]

/-- POP writes the word at SP to the pair (45_control R341). -/
theorem exec_popQq (q : StackPair) (s : State) :
    exec (.popQq q) s = .next (((s.after 1 12).popped).setStackPair q s.popValue) := by
  cases q <;> rfl

/-- Settles O52: a push is two stores below SP, and a pop writes the two bytes read to the registers of the pair. -/
theorem pushAndPop : Obligations.PushAndPop := by
  refine ⟨fun q b1 b2 => ⟨decodeBytes_pushQq q b1 b2, decodeBytes_popQq q b1 b2⟩, fun s => ?_⟩
  dsimp only
  refine ⟨s.complete_pushPairWord 1 16 _ _, s.complete_pushPairWord 1 16 _ _, s.complete_pushPairWord 1 16 _ _,
    s.complete_pushPairWord 1 16 _ _, ?_, ?_, ?_, ?_⟩
  all_goals
    rw [exec_popQq]
    simp only [State.setStackPair, State.setBc, State.setDe, State.setHl, State.setAf, State.popValue, hiByte_pairWord,
      loByte_pairWord]
    rfl

/-- Settles O58: `haltRefused` is the case the spec refuses, and HALT's two branches split on it. -/
theorem haltHaltsOrIsRecorded : Obligations.HaltHaltsOrIsRecorded := by
  refine ⟨fun _ _ => rfl, fun s => ⟨fun h => ?_, fun hime hirq => ?_⟩⟩
  · have hr : s.haltRefused = false := by
      obtain h | h := h <;> simp [State.haltRefused, h]
    exact execHalt_of_not_refused hr
  · exact execHalt_of_refused (by simp [State.haltRefused, hime, Option.isSome_iff_ne_none, hirq])

theorem StopLength.bytes_eq_ite (l : StopLength) : l.bytes = if l = .two then 2 else 1 := by
  cases l <;> rfl

/-- All a return from an interrupt does to a state (45_control R354). -/
theorem State.complete_returnFromInterrupt (s : State) (n k : Nat) :
    ((s.fetched n).returnFromInterrupt).complete k =
      .next { s.after n k with pc := s.popValue, sp := s.sp + 2, ime := true } := by
  rw [State.returnFromInterrupt_eq]
  rfl

/-- Settles O59: no delay stands from before, so EI's is its own alone. -/
theorem stopEiAndReti : Obligations.StopEiAndReti := by
  refine ⟨fun _ _ => ⟨rfl, rfl, rfl⟩, fun s => ⟨?_, ?_, ?_⟩⟩
  · rw [← StopLength.bytes_eq_ite]
    rfl
  · have hdelay : (decide (s.cfg.eiDelay = .one) && !s.ime || false) =
        decide (s.cfg.eiDelay = .one ∧ s.ime = false) := by
      cases s.ime <;> simp
    rw [← hdelay]
    rfl
  · rw [← pairWord_eq_ofNat]
    exact s.complete_returnFromInterrupt 1 16

theorem and_word_eq_pairWord (v w : Word) : v &&& w = pairWord (hiByte v &&& hiByte w) (loByte v &&& loByte w) := by
  rw [← pairWord_hiByte_loByte (v &&& w), hiByte, loByte, BitVec.extractLsb'_and, BitVec.extractLsb'_and]
  rfl

/-- Settles O17: the mask is applied by the write of F, and once more by its read. -/
theorem wholeWritesOfFlagsAreMasked : Obligations.WholeWritesOfFlagsAreMasked := by
  intro s v w
  refine ⟨rfl, rfl, rfl, rfl, rfl, rfl, loByte_pairWord _ _, ?_⟩
  have hhi : hiByte w &&& hiByte 0xFFF0 = hiByte w := BitVec.and_allOnes
  rw [and_word_eq_pairWord, hhi]
  exact congrArg (pairWord (hiByte w)) (BitVec.and_assoc _ _ _)

/-! ## The 8-bit sum and difference -/

/-- The bits of two operands and of their sum give back the carry. -/
theorem xor_sum_bits (x y c : Bool) : (x ^^ y ^^ (x ^^ (y ^^ c))) = c := by
  cases x <;> cases y <;> cases c <;> rfl

theorem add8_res_eq_add (a b : Byte) (cin : Bool) : (add8 a b cin).res = a + b + (BitVec.ofBool cin).setWidth 8 := by
  apply BitVec.eq_of_toNat_eq
  simp [add8, Nat.add_mod]

theorem add8_toNat (a b : Byte) (cin : Bool) :
    (add8 a b cin).res.toNat + 256 * (add8 a b cin).c.toNat = a.toNat + b.toNat + cin.toNat := by
  have ha := a.isLt
  have hb := b.isLt
  have hc := cin.toNat_le
  simp only [add8, BitVec.toNat_ofNat]
  by_cases h : a.toNat + b.toNat + cin.toNat > 0xFF
  · rw [decide_eq_true h, Bool.toNat_true]
    omega
  · rw [decide_eq_false h, Bool.toNat_false]
    omega

/-- The half carry is the carry that the binary sum takes into bit 4. -/
theorem add8_h_eq_carry (a b : Byte) (cin : Bool) : (add8 a b cin).h = BitVec.carry 4 a b cin := rfl

/-- Settles O44: bit 4 of the sum is the exclusive or of the operands' and of the carry into it. -/
theorem addFunctionIsExact : Obligations.AddFunctionIsExact := by
  intro a b cin
  refine ⟨add8_toNat a b cin, ?_, by simp [add8], rfl⟩
  rw [add8_h_eq_carry, add8_res_eq_add, BitVec.getLsbD_xor, BitVec.getLsbD_xor,
    BitVec.getLsbD_add_add_bool (by decide), xor_sum_bits]

theorem sub8_toNat (a b : Byte) (cin : Bool) :
    (sub8 a b cin).res.toNat + b.toNat + cin.toNat = a.toNat + 256 * (sub8 a b cin).c.toNat := by
  have ha := a.isLt
  have hb := b.isLt
  have hc := cin.toNat_le
  simp only [sub8, BitVec.toNat_ofInt]
  by_cases h : a.toNat < b.toNat + cin.toNat
  · rw [decide_eq_true h, Bool.toNat_true]
    omega
  · rw [decide_eq_false h, Bool.toNat_false]
    omega

/-- The minuend is the sum of the difference, the subtrahend and the borrow. -/
theorem add_sub8_res (a b : Byte) (cin : Bool) : a = (sub8 a b cin).res + b + (BitVec.ofBool cin).setWidth 8 := by
  have h := sub8_toNat a b cin
  have ha := a.isLt
  apply BitVec.eq_of_toNat_eq
  simp
  omega

/-- The half borrow is the carry into bit 4 of the sum that gives back the minuend. -/
theorem sub8_h_eq_carry (a b : Byte) (cin : Bool) : (sub8 a b cin).h = BitVec.carry 4 (sub8 a b cin).res b cin := by
  have h := sub8_toNat a b cin
  have hc := cin.toNat_le
  rw [BitVec.carry]
  change decide (a.toNat % 16 < b.toNat % 16 + cin.toNat) = _
  rw [decide_eq_decide]
  omega

/-- Settles O45: the minuend is a sum, and its bits are those of O44. -/
theorem subFunctionIsExact : Obligations.SubFunctionIsExact := by
  intro a b cin
  refine ⟨sub8_toNat a b cin, ?_, by simp [sub8], rfl⟩
  have ha := congrArg (BitVec.getLsbD · 4) (add_sub8_res a b cin)
  simp only [BitVec.getLsbD_add_add_bool (show 4 < 8 by decide)] at ha
  rw [sub8_h_eq_carry, BitVec.getLsbD_xor, BitVec.getLsbD_xor, Bool.xor_comm, Bool.xor_comm (a.getLsbD 4), ha,
    ← Bool.xor_assoc, xor_sum_bits]

/-! ## ADC and SBC -/

theorem toNat_eq_ite (b : Bool) : b.toNat = if b then 1 else 0 := by
  cases b <;> rfl

theorem byte_ofInt_eq_zero_iff (k : Int) : BitVec.ofInt 8 k = 0 ↔ k % 256 = 0 := by
  rw [← BitVec.toNat_inj, BitVec.toNat_ofInt]
  simp
  omega

theorem State.complete_adc8 (s : State) (n k : Nat) (v : Byte) :
    ((s.fetched n).applyAlu (add8 s.a v s.flagC)).complete k =
      .next { s.after n k with
        a := BitVec.ofNat 8 (s.a.toNat + v.toNat + s.flagC.toNat)
        f := flagByte ((s.a.toNat + v.toNat + s.flagC.toNat) % 256 = 0) false
          (s.a.toNat % 16 + v.toNat % 16 + s.flagC.toNat > 0x0F) (s.a.toNat + v.toNat + s.flagC.toNat > 0xFF) } := by
  simp only [State.complete_applyAlu, add8, byte_ofNat_eq_zero_iff]

theorem State.complete_sbc8 (s : State) (n k : Nat) (v : Byte) :
    ((s.fetched n).applyAlu (sub8 s.a v s.flagC)).complete k =
      .next { s.after n k with
        a := BitVec.ofInt 8 ((s.a.toNat : Int) - v.toNat - s.flagC.toNat)
        f := flagByte (((s.a.toNat : Int) - v.toNat - s.flagC.toNat) % 256 = 0) true
          (s.a.toNat % 16 < v.toNat % 16 + s.flagC.toNat) (s.a.toNat < v.toNat + s.flagC.toNat) } := by
  simp only [State.complete_applyAlu, sub8, byte_ofInt_eq_zero_iff]

/-- Settles O38: the three operands of each decode as one quarter row, and run as one sum or difference. -/
theorem addAndSubWithCarry : Obligations.AddAndSubWithCarry := by
  refine ⟨fun rs _ b1 b2 => ⟨(decodeBytes_quarter2 1 rs b1 b2).trans (onR8_code rs _ _), rfl, rfl,
    (decodeBytes_quarter2 3 rs b1 b2).trans (onR8_code rs _ _), rfl, rfl⟩, fun s rs n => ?_⟩
  rw [← toNat_eq_ite, ← s.reg8_fetched 1 rs]
  exact ⟨s.complete_adc8 1 4 _, s.complete_adc8 1 8 _, s.complete_adc8 2 8 n,
    s.complete_sbc8 1 4 _, s.complete_sbc8 1 8 _, s.complete_sbc8 2 8 n⟩

/-! ## The rotates of the accumulator -/

/-- A rotate of A sets Z by ACC_ROTATE_Z (44_rotate_shift_bit section 2). -/
theorem State.complete_accRotate (s : State) {f : Byte → RotResult} {r : Nat → Nat} {c : Nat → Bool}
    (hf : RotatesAs f r c) :
    ((s.fetched 1).accRotate (f s.a)).complete 4 = .next { s.after 1 4 with
      a := BitVec.ofNat 8 (r s.a.toNat)
      f := flagByte (s.cfg.accRotateZ = .result ∧ r s.a.toNat % 256 = 0) false false (c s.a.toNat) } := by
  have hz : (s.fetched 1).accZ (BitVec.ofNat 8 (r s.a.toNat)) =
      decide (s.cfg.accRotateZ = .result ∧ r s.a.toNat % 256 = 0) := by
    simp only [State.accZ, State.fetched_cfg, byte_ofNat_eq_zero_iff]
    cases s.cfg.accRotateZ <;> simp
  rw [hf, State.accRotate, hz]
  exact State.complete_setFlags rfl _ _ _ _

/-- Settles O49: the four rotates are one rule, each by the numbers it rotates as. -/
theorem accumulatorRotates : Obligations.AccumulatorRotates :=
  ⟨fun _ _ => ⟨rfl, rfl, rfl, rfl⟩, rfl, fun s => ⟨s.complete_accRotate rlc8_rotatesAs,
    s.complete_accRotate rrc8_rotatesAs, s.complete_accRotate (rl8_rotatesAs _),
    s.complete_accRotate (rr8_rotatesAs _)⟩⟩

/-! ## A return after a call, and a pop after a push -/

/-- RET takes the word pushed last (45_control R350). -/
theorem ret_after_push (s : State) (v target : Word) (k : Nat) :
    ∃ u, exec .ret (((s.push16 v).jump target).charge k) = .next u ∧ u.pc = v ∧ u.sp = s.sp := by
  refine ⟨_, rfl, s.popValue_push16 v, ?_⟩
  change (s.push16 v).sp + 2 = s.sp
  rw [State.push16_sp, BitVec.sub_add_cancel]

/-- Settles O56: CALL and RST push the address after them and RET takes it. -/
theorem retUndoesCallAndRst : Obligations.RetUndoesCallAndRst := by
  intro s nn n
  rw [← rstTarget_eq_ofNat]
  obtain ⟨u, hu, hpc, hsp⟩ := ret_after_push (s.fetched 3) (s.pc + 3) nn 24
  obtain ⟨w, hw, hpc', hsp'⟩ := ret_after_push (s.fetched 1) (s.pc + 1) (rstTarget n) 16
  exact ⟨⟨_, u, rfl, rfl, hu, hpc, hsp⟩, ⟨_, w, rfl, rfl, hw, hpc', hsp'⟩⟩

theorem State.readF_mask (s : State) : s.readF &&& 0xF0 = s.readF := BitVec.and_assoc _ _ _

/-- Writing a pair with the value it has changes nothing, but that F's low nibble is lost with AF (R35). -/
theorem State.setStackPair_stackPair (s : State) (q : StackPair) :
    s.setStackPair q (s.stackPair q) = { s with f := if q = .af then s.readF else s.f } := by
  cases q <;>
    simp only [State.setStackPair, State.stackPair, State.setBc, State.setDe, State.setHl, State.setAf, State.writeF,
      State.bc, State.de, State.hl, State.af, hiByte_pairWord, loByte_pairWord, State.readF_mask, if_true, reduceCtorEq,
      if_false]

theorem State.readF_with_f (s : State) (q : StackPair) :
    ({ s with f := if q = .af then s.readF else s.f } : State).readF = s.readF := by
  cases q
  case af => exact s.readF_mask
  all_goals rfl

/-- A pop of the value that the pair has already: only SP moves, F as read (R341). -/
theorem exec_popQq_of_popValue {s : State} {q : StackPair} (h : s.popValue = s.stackPair q) :
    ∃ u, exec (.popQq q) s = .next u ∧ u.stackPair q = s.stackPair q ∧ u.sp = s.sp + 2 ∧
      (∀ r, u.reg8 r = s.reg8 r) ∧ u.readF = s.readF := by
  refine ⟨{ (s.after 1 12).popped with f := if q = .af then s.readF else s.f }, ?_, ?_, rfl, fun r => ?_,
    s.readF_with_f q⟩
  · rw [exec_popQq, h]
    exact congrArg Host.Outcome.next (State.setStackPair_stackPair (s.after 1 12).popped q)
  · cases q
    case af => exact congrArg (pairWord s.a) (s.readF_with_f .af)
    all_goals rfl
  · cases r <;> rfl

theorem exec_pushQq (q : StackPair) (s : State) :
    exec (.pushQq q) s = .next (((s.fetched 1).push16 (s.stackPair q)).charge 16) := by
  cases q <;> rfl

@[simp] theorem State.stackPair_charge (s : State) (k : Nat) (q : StackPair) :
    (s.charge k).stackPair q = s.stackPair q := by
  cases q <;> rfl

@[simp] theorem State.stackPair_fetched (s : State) (n : Nat) (q : StackPair) :
    (s.fetched n).stackPair q = s.stackPair q := by
  cases q <;> rfl

@[simp] theorem State.stackPair_push16 (s : State) (v : Word) (q : StackPair) :
    (s.push16 v).stackPair q = s.stackPair q := by
  cases q <;> simp [State.stackPair, State.bc, State.de, State.hl, State.af, State.readF]

@[simp] theorem State.reg8_push16 (s : State) (v : Word) (r : Reg8) : (s.push16 v).reg8 r = s.reg8 r := by
  cases r <;> simp [State.reg8]

@[simp] theorem State.popValue_charge (s : State) (k : Nat) : (s.charge k).popValue = s.popValue := rfl

@[simp] theorem State.popValue_fetched (s : State) (n : Nat) : (s.fetched n).popValue = s.popValue := rfl

/-- Settles O55: a POP after a PUSH takes the value the pair has (R341), and the PUSH
moves SP alone among the registers. -/
theorem popUndoesPush : Obligations.PopUndoesPush := by
  intro s q
  obtain ⟨u, hu, hpair, hsp, hreg, hf⟩ :=
    exec_popQq_of_popValue (s := ((s.fetched 1).push16 (s.stackPair q)).charge 16) (q := q)
      (by simp [State.popValue_push16])
  refine ⟨_, u, exec_pushQq q s, hu, ?_, ?_, fun r => ?_, ?_⟩
  · simp [hpair]
  · simp [hsp]
  · simp [hreg]
  · rw [hf]
    simp [State.readF]

/-! ## DEC after INC -/

@[simp] theorem State.reg8_after (s : State) (n k : Nat) (r : Reg8) : (s.after n k).reg8 r = s.reg8 r := by
  cases r <;> rfl

theorem State.reg8_with_f (s : State) (v : Byte) (r : Reg8) : ({ s with f := v } : State).reg8 r = s.reg8 r := by
  cases r <;> rfl

theorem flagByte_getLsbD_four (z n h c : Bool) : (flagByte z n h c).getLsbD 4 = c := by
  cases z <;> cases n <;> cases h <;> cases c <;> rfl

theorem exec_incR_reg8 (r : Reg8) (s : State) :
    ∃ t, exec (.incR r) s = .next t ∧ (∀ q, t.reg8 q = if q = r then s.reg8 r + 1 else s.reg8 q) ∧
      t.flagC = s.flagC := by
  obtain ⟨-, h⟩ := byteIncrementAndDecrement
  obtain ⟨hinc, -⟩ := h s r
  refine ⟨_, hinc, fun q => ?_, flagByte_getLsbD_four _ _ _ _⟩
  rw [State.reg8_with_f, State.reg8_setReg8, State.reg8_after]
  exact ite_congr rfl (fun _ => byte_ofNat_toNat_add (s.reg8 r) 1) (fun _ => rfl)

theorem exec_decR_reg8 (r : Reg8) (s : State) :
    ∃ t, exec (.decR r) s = .next t ∧ (∀ q, t.reg8 q = if q = r then s.reg8 r - 1 else s.reg8 q) ∧
      t.f = flagByte (s.reg8 r = 0x01) true ((s.reg8 r).toNat % 16 = 0) s.flagC := by
  obtain ⟨-, h⟩ := byteIncrementAndDecrement
  obtain ⟨-, -, hdec, -⟩ := h s r
  refine ⟨_, hdec, fun q => ?_, rfl⟩
  rw [State.reg8_with_f, State.reg8_setReg8, State.reg8_after]
  exact ite_congr rfl (fun _ => byte_ofNat_toNat_add_255 (s.reg8 r)) (fun _ => rfl)

/-- Settles O47: the byte comes back, and the flags are the DEC's of the byte more by 1. -/
theorem incThenDecRestoresTheRegister : Obligations.IncThenDecRestoresTheRegister := by
  intro s r
  obtain ⟨t, ht, htr, htc⟩ := exec_incR_reg8 r s
  obtain ⟨u, hu, hur, huf⟩ := exec_decR_reg8 r t
  have hr : t.reg8 r = s.reg8 r + 1 := (htr r).trans (if_pos rfl)
  refine ⟨t, u, ht, hu, fun q => ?_, ?_⟩
  · rw [hur q, hr, htr q, add_sub_cancel_right]
    split
    · rename_i hq; rw [hq]
    · rfl
  · have hz : s.reg8 r + 1 = 0x01 ↔ s.reg8 r = 0 := by bv_omega
    have hh : (s.reg8 r + 1).toNat % 16 = 0 ↔ (s.reg8 r).toNat % 16 = 15 := by bv_omega
    simp only [huf, hr, htc, hz, hh]

/-! ## DAA after ADD and SUB of packed decimal digits (42_alu8 R251) -/

/-- DAA right after an instruction that leaves the result `x` adjusts it by its flags. -/
theorem exec_daa_of_applyAlu (s : State) (x : AluResult) (k : Nat) :
    ∃ u, exec .daa ((s.applyAlu x).charge k) = .next u ∧ u.a = (daa8 x.res x.n x.h x.c).res ∧
      u.flagC = (daa8 x.res x.n x.h x.c).c := by
  have hn : (s.applyAlu x).flagN = x.n := State.setFlags_flagN _ _ _ _ _
  have hh : (s.applyAlu x).flagH = x.h := State.setFlags_flagH _ _ _ _ _
  have hc : (s.applyAlu x).flagC = x.c := State.setFlags_flagC _ _ _ _ _
  rw [← hn, ← hh, ← hc]
  exact ⟨_, State.complete_applyAlu ((s.applyAlu x).charge k) 1 4 _, rfl, flagByte_getLsbD_four _ _ _ _⟩

theorem exists_digits_of_isBcd {v : Byte} (h : isBcd v) :
    ∃ t o, t < 10 ∧ o < 10 ∧ v.toNat = 16 * t + o ∧ bcdValue v = 10 * t + o := by
  obtain ⟨ho, ht⟩ := h
  refine ⟨v.toNat / 16, v.toNat % 16, ht, ho, ?_, ?_⟩
  · omega
  · rw [bcdValue, Nat.mul_comm]

/-- Adding 6 past the digit 9 and 0x60 past the value 99 turns a binary sum of packed digits into the decimal one. -/
theorem adjusted_sum_of_digits {x y x' y' : Nat} (hx : x < 10) (hy : y < 10) (hx' : x' < 10) (hy' : y' < 10) :
    ((16 * x + y + (16 * x' + y')) % 256 +
        ((if 100 ≤ 10 * x + y + (10 * x' + y') then 0x60 else 0) + if 10 ≤ y + y' then 0x06 else 0)) % 256 =
      ((10 * x + y + (10 * x' + y')) % 100 / 10 * 16 + (10 * x + y + (10 * x' + y')) % 100 % 10) % 256 := by
  have hmod : (10 * x + y + (10 * x' + y')) % 100 =
      10 * x + y + (10 * x' + y') - if 100 ≤ 10 * x + y + (10 * x' + y') then 100 else 0 := by
    split_ifs <;> omega
  rw [hmod]
  split_ifs <;> omega

/-- The same of a binary difference, 6 and 0x60 taken off where the digit or the value borrows. -/
theorem adjusted_difference_of_digits {x y x' y' : Nat} (hx : x < 10) (hy : y < 10) (hx' : x' < 10) (hy' : y' < 10) :
    ((((((16 * x + y : Nat) : Int) - (16 * x' + y' : Nat)) % 256).toNat -
        ((if 10 * x + y < 10 * x' + y' then 0x60 else 0) + if y < y' then 0x06 else 0 : Nat) : Int) % 256).toNat =
      ((10 * x + y + 100 - (10 * x' + y')) % 100 / 10 * 16 + (10 * x + y + 100 - (10 * x' + y')) % 100 % 10) % 256 := by
  have hmod : (10 * x + y + 100 - (10 * x' + y')) % 100 =
      10 * x + y + 100 - (10 * x' + y') - if 10 * x + y < 10 * x' + y' then 0 else 100 := by
    split_ifs <;> omega
  rw [hmod]
  split_ifs <;> omega

theorem daa8_add8 {x y : Byte} (hx : isBcd x) (hy : isBcd y) :
    (daa8 (add8 x y false).res false (add8 x y false).h (add8 x y false).c).res =
        bcdByte ((bcdValue x + bcdValue y) % 100) ∧
      ((daa8 (add8 x y false).res false (add8 x y false).h (add8 x y false).c).c = true ↔
        100 ≤ bcdValue x + bcdValue y) := by
  obtain ⟨tx, ox, htx, hox, hxn, hxv⟩ := exists_digits_of_isBcd hx
  obtain ⟨ty, oy, hty, hoy, hyn, hyv⟩ := exists_digits_of_isBcd hy
  have hhigh : x.toNat + y.toNat > 0xFF ∨ (x.toNat + y.toNat) % 256 > 0x99 ↔
      100 ≤ bcdValue x + bcdValue y := by omega
  have hlow : x.toNat % 16 + y.toNat % 16 > 0x0F ∨ (x.toNat + y.toNat) % 256 % 16 > 0x09 ↔
      10 ≤ ox + oy := by omega
  rw [add8_without_carry, daa8_eq_table]
  simp only [decide_eq_true_eq, true_and, BitVec.toNat_ofNat, Nat.reducePow, hhigh, hlow, Bool.false_eq_true, if_false,
    and_true]
  apply BitVec.eq_of_toNat_eq
  simp only [bcdByte, BitVec.toNat_ofNat, Nat.reducePow, hxn, hyn, hxv, hyv]
  exact adjusted_sum_of_digits htx hox hty hoy

theorem daa8_sub8 {x y : Byte} (hx : isBcd x) (hy : isBcd y) :
    (daa8 (sub8 x y false).res true (sub8 x y false).h (sub8 x y false).c).res =
        bcdByte ((bcdValue x + 100 - bcdValue y) % 100) ∧
      ((daa8 (sub8 x y false).res true (sub8 x y false).h (sub8 x y false).c).c = true ↔
        bcdValue x < bcdValue y) := by
  obtain ⟨tx, ox, htx, hox, hxn, hxv⟩ := exists_digits_of_isBcd hx
  obtain ⟨ty, oy, hty, hoy, hyn, hyv⟩ := exists_digits_of_isBcd hy
  have hhigh : x.toNat < y.toNat ↔ bcdValue x < bcdValue y := by omega
  have hlow : x.toNat % 16 < y.toNat % 16 ↔ ox < oy := by omega
  rw [sub8_without_borrow, daa8_eq_table]
  simp only [decide_eq_true_eq, hhigh, hlow, Bool.true_eq_false, false_and, or_false, if_true, and_true]
  apply BitVec.eq_of_toNat_eq
  simp only [bcdByte, BitVec.toNat_ofNat, BitVec.toNat_ofInt, Nat.reducePow, Nat.cast_ofNat, hxn, hyn, hxv, hyv]
  exact adjusted_difference_of_digits htx hox hty hoy

/-- Settles O46: DAA sees the flags of the ADD or SUB, and adjusts its result to the decimal one. -/
theorem decimalAdjustCorrectsBcd : Obligations.DecimalAdjustCorrectsBcd := by
  intro s rs ha hr
  rw [← s.reg8_fetched 1 rs] at hr ⊢
  obtain ⟨u, hu, hua, huc⟩ := exec_daa_of_applyAlu (s.fetched 1) (add8 s.a ((s.fetched 1).reg8 rs) false) 4
  obtain ⟨w, hw, hwa, hwc⟩ := exec_daa_of_applyAlu (s.fetched 1) (sub8 s.a ((s.fetched 1).reg8 rs) false) 4
  obtain ⟨hadd, haddC⟩ := daa8_add8 ha hr
  obtain ⟨hsub, hsubC⟩ := daa8_sub8 ha hr
  exact ⟨⟨_, u, rfl, hu, hua.trans hadd, by rw [huc]; exact haddC⟩,
    ⟨_, w, rfl, hw, hwa.trans hsub, by rw [hwc]; exact hsubC⟩⟩

end Machine
end Sys2Proof

/-! PROOFS. The step of 40_engine (R140 to R147): idling, waking, dispatching, EI's delay; the environment's answers;
reset and power-on. -/

namespace Sys2Proof
namespace Machine

theorem State.wake_eq_self {s : State} (hhalt : s.halt = false) (hstop : s.stop = false) : s.wake = s := by
  simp [State.wake, hhalt, hstop]

theorem State.wake_of_powerExclusive {s : State} (h : s.PowerExclusive) :
    s.wake = { s with halt := false, stop := false } := by
  have hboth : (s.halt && s.stop) = false := by simpa [State.PowerExclusive] using h
  rw [State.wake_eq, hboth]

/-- A Running core with nothing to dispatch executes (40_engine R147). -/
theorem step_of_running {s : State} (hr : s.Running) (hn : s.NoDispatch) :
    step s = exec (fetchInstr s) s.sampleIrq := by
  obtain ⟨hf, hhalt, hstop⟩ := hr
  have hwake : s.sampleIrq.wake = s.sampleIrq := State.wake_eq_self hhalt hstop
  have hidle : s.sampleIrq.idles = false := by simp [State.idles, hhalt, hstop]
  have hnone : s.sampleIrq.wake.toDispatch = none := by
    rw [hwake]
    obtain h | h | h := hn <;> simp [State.toDispatch, h]
  rw [step_of_no_dispatch hf hidle hnone, hwake]
  rfl

/-- The state in which a step goes on when a request is present: the request sampled and the core awake. -/
theorem State.sampleIrq_wake_of_request {s : State} {k : IrqNum} (hp : s.PowerExclusive)
    (hk : s.irqPort.answer = some k) :
    s.sampleIrq.wake =
      { s with irq := some k, irqPort := s.irqPort.later, irqAck := none, halt := false, stop := false } := by
  rw [← hk]
  exact State.wake_of_powerExclusive (s := s.sampleIrq) hp

theorem State.idles_of_request {s : State} {k : IrqNum} (hk : s.irqPort.answer = some k) :
    s.sampleIrq.idles = false := by
  simp [State.idles, hk]

/-- A request that is not held back is dispatched, by a core awake or woken (40_engine R144, R145). -/
theorem step_of_request {s : State} {k : IrqNum} (hf : s.fault = none) (hime : s.ime = true)
    (hdelay : s.eiDelay = false) (hk : s.irqPort.answer = some k) :
    step s = .next (s.sampleIrq.wake.takeInterrupt k) :=
  step_of_dispatch hf (State.idles_of_request hk) (by simp [State.toDispatch, hime, hdelay, hk])

/-- Settles O7: what the three bytes decode to is what the step fetches (O3). -/
theorem stepExecutesTheDecodedInstruction : Obligations.StepExecutesTheDecodedInstruction := by
  intro s i rest hr hn hd
  cases hd.symm.trans (threeBytesAlwaysDecode s.cfg _ _ _)
  exact step_of_running hr hn

/-! ## The environment's answers (60_exceptions R405) -/

theorem IrqPort.afterSteps_never (k : Nat) : IrqPort.never.afterSteps k = .never := by
  induction k with
  | zero => rfl
  | succ k ih => exact ih

theorem IrqPort.afterSteps_oracle (n k : Nat) : (IrqPort.oracle n).afterSteps k = .oracle (n + k) := by
  induction k generalizing n with
  | zero => rfl
  | succ k ih => exact (ih (n + 1)).trans (by rw [Nat.add_right_comm]; rfl)

theorem IrqPort.later_cycle_eq_rotate (pattern : List (Option IrqNum)) :
    (IrqPort.cycle pattern).later = .cycle (pattern.rotate 1) := by
  cases pattern <;> simp [IrqPort.later]

theorem IrqPort.afterSteps_cycle (pattern : List (Option IrqNum)) (k : Nat) :
    (IrqPort.cycle pattern).afterSteps k = .cycle (pattern.rotate k) := by
  induction k generalizing pattern with
  | zero => simp [IrqPort.afterSteps]
  | succ k ih => rw [IrqPort.afterSteps, later_cycle_eq_rotate, ih, List.rotate_rotate, Nat.add_comm]

theorem headD_rotate (pattern : List (Option IrqNum)) (k : Nat) :
    (pattern.rotate k).headD none = pattern.getD (k % pattern.length) none := by
  cases pattern with
  | nil => rfl
  | cons a l =>
    have hlt : k % (a :: l).length < (a :: l).length := Nat.mod_lt _ (Nat.succ_pos _)
    rw [← List.rotate_mod, List.headD_eq_head?_getD, List.head?_rotate hlt, List.getD_eq_getElem?_getD]

/-- Settles O8: idling, dispatching and executing all leave the port that the sample left. -/
theorem everyStepTakesOneAnswer : Obligations.EveryStepTakesOneAnswer := by
  refine ⟨fun s t h => ?_, fun n k pattern a p => ⟨?_, ?_, ?_, rfl, rfl⟩⟩
  · obtain ⟨-, ⟨-, rfl⟩ | ⟨-, ⟨k, -, rfl⟩ | ⟨-, he⟩⟩⟩ := step_next h
    · exact ⟨rfl, rfl⟩
    · simp
    · obtain ⟨-, -, hport, hirq, -⟩ := instructionsWriteOnlyTheirDestinations _ _ t he
      simp [hport, hirq]
  · rw [IrqPort.afterSteps_never, IrqPort.answer_never]
  · rw [IrqPort.afterSteps_oracle, IrqPort.answer_oracle]
  · rw [IrqPort.afterSteps_cycle]
    exact headD_rotate pattern k

/-! ## Idling, waking and dispatching -/

/-- Settles O9: a core that idles takes the idle branch, whose charge STOP chooses before HALT. -/
theorem idleStepOnlyCharges : Obligations.IdleStepOnlyCharges := by
  refine ⟨fun s hf hk => ⟨fun hstop => ?_, fun hstop hhalt => ?_⟩, rfl, rfl⟩
  · have hidle : s.sampleIrq.idles = true := by simp [State.idles, hstop, hk]
    simp only [step_of_idles hf hidle, State.idleTick, State.charge, State.sampleIrq, hstop, hk, if_true]
  · have hidle : s.sampleIrq.idles = true := by simp [State.idles, hhalt, hk]
    simp only [step_of_idles hf hidle, State.idleTick, State.charge, State.sampleIrq, hstop, hk,
      Bool.false_eq_true, if_false]

/-- Settles O10: the awake state is the sampled one woken, and a request that is held back dispatches nothing. -/
theorem requestWakesHaltedAndStopped : Obligations.RequestWakesHaltedAndStopped := by
  intro s k hf hp _ hk
  rw [← State.sampleIrq_wake_of_request hp hk]
  refine ⟨fun h => ?_, fun hime hdelay => step_of_request hf hime hdelay hk⟩
  refine step_of_no_dispatch hf (State.idles_of_request hk) ?_
  obtain h | h := h <;> simp [State.toDispatch, h]

theorem irqVector_eq_ofNat (k : IrqNum) : irqVector k = BitVec.ofNat 16 (0x0040 + 8 * k.val) := by
  rw [BitVec.ofNat_add, BitVec.ofNat_mul]
  rfl

/-- Settles O11: the awake state dispatches, and a dispatch is a push and a jump. -/
theorem dispatchEntersTheVector : Obligations.DispatchEntersTheVector := by
  intro s k hf hp hime hdelay hk
  rw [step_of_request hf hime hdelay hk, State.sampleIrq_wake_of_request hp hk, State.takeInterrupt_eq,
    State.push16_eq, irqVector_eq_ofNat]
  rfl

/-- Settles O12: a fault is checked before anything else. -/
theorem faultedCoreIsStuckUntilReset : Obligations.FaultedCoreIsStuckUntilReset :=
  fun _ => ⟨fun _ _ h => step_of_fault h, fun _ h => step_of_fault h, rfl⟩

/-! ## Reset and power-on -/

/-- Settles O15: the reset operation is power-on with the memory and the ticks kept. -/
theorem powerOnAndResetValues : Obligations.PowerOnAndResetValues := by
  have hpc : ∀ c image port, (State.powerOn c image port).pc = if c.resetPc = .zero then 0x0000 else 0x0100 := by
    intro c image port
    dsimp only [State.powerOn]
    cases c.resetPc <;> rfl
  refine ⟨fun c image port => ?_, fun s => ?_⟩
  · rw [← hpc c image port]
    rfl
  · rw [← hpc s.cfg s.mem s.irqPort]
    rfl

/-- Settles O22: reset is power-on with the canonical empty memory. -/
theorem invariantsHoldAtPowerOn : Obligations.InvariantsHoldAtPowerOn := by
  have h : ∀ (c : Config) (image : Memory) (port : IrqPort), image.wf = true →
      (State.powerOn c image port).FlagNibbleZero ∧ (State.powerOn c image port).MemCanonical ∧
      (State.powerOn c image port).PowerExclusive ∧ (State.powerOn c image port).DelayWithinIme :=
    fun c image port hwf => ⟨BitVec.zero_and, hwf, fun ⟨hh, _⟩ => Bool.noConfusion hh,
      fun hd => Bool.noConfusion hd⟩
  exact ⟨h _ _ _ rfl, h⟩

/-! ## EI's delay, and RETI after a dispatch -/

/-- No delay stands after an instruction that found `ime` set and did not fault: EI sets `ei_delay` only where
`ime` was clear (R384). -/
theorem exec_eiDelay {i : Instr} {s t : State} (h : exec i s = .next t) (hime : s.ime = true) (hf : t.fault = none) :
    t.eiDelay = false := by
  obtain rfl | ⟨-, r, rfl⟩ := exec_next_cases h
  · by_cases hrow : i.row s = .ei
    · rw [hrow]
      change (decide (s.cfg.eiDelay = .one) && !s.ime || false) = false
      simp [hime]
    · exact result_eiDelay hrow s
  · cases hf

/-- Settles O13: EI leaves its delay set, which holds a dispatch back; the next instruction clears it. -/
theorem eiHoldsDispatchBackOneInstruction : Obligations.EiHoldsDispatchBackOneInstruction := by
  intro s hr hime hcfg hfetch
  obtain ⟨-, hsystem⟩ := stopEiAndReti
  obtain ⟨-, hei, -⟩ := hsystem s.sampleIrq
  obtain ⟨t, ht, hti, htd, htr⟩ : ∃ t, step s = .next t ∧ t.ime = true ∧ t.eiDelay = true ∧ t.Running :=
    ⟨_, (step_of_running hr (.inl hime)).trans ((congrArg (exec · _) hfetch).trans hei), rfl,
      decide_eq_true ⟨hcfg, hime⟩, hr⟩
  have hstep : step t = exec (fetchInstr t) t.sampleIrq := step_of_running htr (.inr (.inl htd))
  obtain ⟨-, hhalt, hstop⟩ := htr
  refine ⟨t, ht, hti, hstep, fun u k hu hf hui hk => ?_⟩
  have he : exec (fetchInstr t) t.sampleIrq = .next u := hstep.symm.trans hu
  exact ⟨_, dispatchEntersTheVector u k hf (exec_powerExclusive (s := t.sampleIrq) hhalt hstop he) hui
    (exec_eiDelay he hti hf) hk, rfl, rfl, rfl⟩

@[simp] theorem State.reg8_takeInterrupt (s : State) (k : IrqNum) (r : Reg8) :
    (s.takeInterrupt k).reg8 r = s.reg8 r := by
  cases r <;> simp [State.reg8]

@[simp] theorem State.reg8_sampleIrq (s : State) (r : Reg8) : s.sampleIrq.reg8 r = s.reg8 r := by
  cases r <;> rfl

@[simp] theorem State.reg8_wake (s : State) (r : Reg8) : s.wake.reg8 r = s.reg8 r := by
  rw [State.wake_eq]
  cases r <;> rfl

/-- RETI: PC popped, `ime` set, the registers kept (R411). -/
theorem exec_reti (s : State) :
    ∃ u, exec .reti s = .next u ∧ u.pc = s.popValue ∧ u.sp = s.sp + 2 ∧ u.ime = true ∧ u.f = s.f ∧
      ∀ r, u.reg8 r = s.reg8 r :=
  ⟨_, s.complete_returnFromInterrupt 1 16, rfl, rfl, rfl, rfl, fun r => by cases r <;> rfl⟩

@[simp] theorem State.popValue_takeInterrupt (s : State) (k : IrqNum) : (s.takeInterrupt k).popValue = s.pc :=
  s.popValue_push16 s.pc

/-- Settles O14: RETI pops the PC that the dispatch pushed. -/
theorem retiUndoesADispatch : Obligations.RetiUndoesADispatch := by
  intro s k hf _ hime hdelay hk
  obtain ⟨u, hu, hpc, hsp, hui, huf, hreg⟩ := exec_reti (s.sampleIrq.wake.takeInterrupt k)
  refine ⟨_, u, step_of_request hf hime hdelay hk, hu, ?_, ?_, hui, ?_, fun r => ?_⟩
  · simp [hpc]
  · simp [hsp]
  · simp [huf]
  · simp [hreg]

end Machine
end Sys2Proof
